-- ==== Sys2Proof/Word.lean ====
section
/-! DEFINITION. The word types of the core: a byte (a field element and a DMEM byte, R8, R50), the 32-bit host
data word (R29, R55) and the 64-bit command word (R70). -/

namespace Sys2Proof

/-- A field element or a DMEM byte: 8 bits (00_scope.md R8, 20_memory.md R50). -/
abbrev Byte := BitVec 8

/-- A host register or host data word: 32 bits (00_scope.md R8, 10_state.md R29). -/
abbrev Word32 := BitVec 32

/-- A command word: 64 bits (30_encoding.md R70). -/
abbrev Word64 := BitVec 64

end Sys2Proof
end

