-- ==== Sys2Proof/Config.lean ====
section
/-! DEFINITION. What is fixed for the machine (00_scope.md R8) and the values the spec leaves open
(92_eei_decisions.md, "Named open parameters"): the open ones are opaque constants with no body, so nothing can be
proved of their values. -/

namespace Sys2Proof.Config

/-- `DMEM_SIZE`: DMEM has 1024 bytes, addresses 0..1023 (R8, R50, D3). -/
def dmemSize : Nat := 1024

/-- The size of the host window: offsets 0x000..0x7FF (R51, R54, D17). -/
def windowSize : Nat := 0x800

/-- `PRIM`, the primitive (reduction) polynomial 0x11d = x^8+x^4+x^3+x^2+1 (R8, R21). -/
def prim : Nat := 0x11d

/-- `DMEM_INIT`: what DMEM byte `addr` holds after the reset numbered `draw`, until something writes it
(70_reset_and_hazards.md R181, D21, U7). A FREE VALUE, log entry 1. -/
opaque dmemInit (draw addr : Nat) : Byte

/-- `LOG0`: the content of ROM location LOG[0] (10_state.md R24, D28, U5). A FREE VALUE that no command can
observe, log entry 11. -/
opaque log0 : Byte

/-- `HOST_BASE`: where the host window begins in the host's address space (60_exceptions.md R171, D17, U11).
No rule depends on it, log entry 10. -/
opaque hostBase : Nat

end Sys2Proof.Config
end

