-- ==== Sys2Proof/Syntax.lean ====
section
/-! DEFINITION. The commands of RSC-1 (30_encoding.md R76): one constructor for each row of the opcode map. Operands
stand in the order of the assembly syntax (R80). Field elements are bytes; indexes, addresses, lengths and degrees
are natural numbers, because the spec computes with them as exact integers (R10). -/

namespace Sys2Proof

/-- The eight opcodes of 30_encoding.md R76. -/
inductive Opcode where
  | nop | gfMul | gfExp | gfLog | polyMul | polyDiv | genPoly | rsEnc
  deriving DecidableEq, Repr

/-- A command with its operands (30_encoding.md R76, R80). -/
inductive Instr where
  /-- NOP (40_gf_scalar.md R105). -/
  | nop
  /-- GF_MUL (R106): the product of two field elements. -/
  | gfMul (a b : Byte)
  /-- GF_EXP (R107): the power of α with this index. -/
  | gfExp (index : Nat)
  /-- GF_LOG (R108): the discrete logarithm of a field element. -/
  | gfLog (x : Byte)
  /-- POLY_MUL (41_polynomial.md R127). -/
  | polyMul (dst aAddr aLen bAddr bLen : Nat)
  /-- POLY_DIV (41_polynomial.md R128). -/
  | polyDiv (dst nAddr nLen dAddr dLen : Nat)
  /-- GEN_POLY (42_generator.md R143). -/
  | genPoly (dst deg : Nat)
  /-- RS_ENC (43_rs_encoder.md R153). -/
  | rsEnc (dst dataAddr dataLen ec : Nat)
  deriving DecidableEq, Repr

/-- The opcode of a command (30_encoding.md R71: the opcode alone selects the command). -/
def Instr.opcode : Instr → Opcode
  | .nop => .nop
  | .gfMul _ _ => .gfMul
  | .gfExp _ => .gfExp
  | .gfLog _ => .gfLog
  | .polyMul _ _ _ _ _ => .polyMul
  | .polyDiv _ _ _ _ _ => .polyDiv
  | .genPoly _ _ => .genPoly
  | .rsEnc _ _ _ _ => .rsEnc

end Sys2Proof
end

