-- ==== Sys2Proof/WellFormed.lean ====
section
/-! DEFINITION. Which commands have an encoding: every numeric operand fits its field (30_encoding.md R72, R73, R80).
A field element is a byte by its type. -/

namespace Sys2Proof

/-- The operand fits a 10-bit field of format P (30_encoding.md R73, R80: "each 0..1023"). -/
def fits10 (n : Nat) : Bool := decide (n < 1024)

/-- The operand fits the 32-bit field IDX of format S (30_encoding.md R72, R80: "0..2^32-1"). -/
def fits32 (n : Nat) : Bool := decide (n < 4294967296)

/-- Every operand of the command fits its field (30_encoding.md R80). -/
def Instr.wellFormed : Instr → Bool
  | .nop => true
  | .gfMul _ _ => true
  | .gfExp index => fits32 index
  | .gfLog _ => true
  | .polyMul dst aAddr aLen bAddr bLen => fits10 dst && fits10 aAddr && fits10 aLen && fits10 bAddr && fits10 bLen
  | .polyDiv dst nAddr nLen dAddr dLen => fits10 dst && fits10 nAddr && fits10 nLen && fits10 dAddr && fits10 dLen
  | .genPoly dst deg => fits10 dst && fits10 deg
  | .rsEnc dst dataAddr dataLen ec => fits10 dst && fits10 dataAddr && fits10 dataLen && fits10 ec

end Sys2Proof
end

