-- ==== Sys2Proof/Decode.lean ====
section
/-! DEFINITION. From a 64-bit command word to a command or a named rejection (30_encoding.md R70 to R78), and after
it the encoder (R80), both written from the field tables of R72 and R73 and the opcode map of R76. -/

namespace Sys2Proof

/-! ## The fields of a command word (R71, R72, R73, R74) -/

/-- OP = w[7:0], in every command (R71). -/
def fieldOp (w : Word64) : Byte := w.extractLsb' 0 8

/-- Format S: A = w[15:8] (R72). -/
def fieldA (w : Word64) : Byte := w.extractLsb' 8 8

/-- Format S: B = w[23:16] (R72). -/
def fieldB (w : Word64) : Byte := w.extractLsb' 16 8

/-- Format S: IDX = w[63:32], unsigned (R72, R74). -/
def fieldIdx (w : Word64) : Nat := (w.extractLsb' 32 32).toNat

/-- Format P: F1 = w[17:8], first source base address (R73, R74). -/
def fieldF1 (w : Word64) : Nat := (w.extractLsb' 8 10).toNat

/-- Format P: F2 = w[27:18], first source length (R73, R74). -/
def fieldF2 (w : Word64) : Nat := (w.extractLsb' 18 10).toNat

/-- Format P: F3 = w[37:28], second source base address (R73, R74). -/
def fieldF3 (w : Word64) : Nat := (w.extractLsb' 28 10).toNat

/-- Format P: F4 = w[47:38], second source length, or degree or count (R73, R74). -/
def fieldF4 (w : Word64) : Nat := (w.extractLsb' 38 10).toNat

/-- Format P: F5 = w[57:48], destination base address (R73, R74). -/
def fieldF5 (w : Word64) : Nat := (w.extractLsb' 48 10).toNat

/-! ## The opcode map (R76) -/

/-- The opcode byte of each command (R76, column OP). -/
def Opcode.byte : Opcode → Byte
  | .nop => 0x00
  | .gfMul => 0x01
  | .gfExp => 0x02
  | .gfLog => 0x03
  | .polyMul => 0x10
  | .polyDiv => 0x11
  | .genPoly => 0x20
  | .rsEnc => 0x30

/-- The bits a word must match on to select the command (R76, column mask): the opcode, every unused field and
every reserved field (R75). -/
def Opcode.mask : Opcode → Word64
  | .nop => 0xFFFFFFFFFFFFFFFF
  | .gfMul => 0xFFFFFFFFFF0000FF
  | .gfExp => 0x00000000FFFFFFFF
  | .gfLog => 0xFFFFFFFFFFFF00FF
  | .polyMul => 0xFC000000000000FF
  | .polyDiv => 0xFC000000000000FF
  | .genPoly => 0xFC00003FFFFFFFFF
  | .rsEnc => 0xFC00003FF00000FF

/-- What those bits must be (R76, column match). -/
def Opcode.matchWord : Opcode → Word64
  | .nop => 0x0000000000000000
  | .gfMul => 0x0000000000000001
  | .gfExp => 0x0000000000000002
  | .gfLog => 0x0000000000000003
  | .polyMul => 0x0000000000000010
  | .polyDiv => 0x0000000000000011
  | .genPoly => 0x0000000000000020
  | .rsEnc => 0x0000000000000030

/-- The whole map: "It lists every command and there are no others" (R76). -/
def Opcode.all : List Opcode := [.nop, .gfMul, .gfExp, .gfLog, .polyMul, .polyDiv, .genPoly, .rsEnc]

/-- The command an opcode byte selects, none for the 248 unlisted values (R76, R78). -/
def Opcode.ofByte? (b : Byte) : Option Opcode := Opcode.all.find? fun op => op.byte == b

/-- The command with its operands taken from the fields of the word (R76, columns A to F5; R74). -/
def Opcode.operands (op : Opcode) (w : Word64) : Instr :=
  match op with
  | .nop => .nop
  | .gfMul => .gfMul (fieldA w) (fieldB w)
  | .gfExp => .gfExp (fieldIdx w)
  | .gfLog => .gfLog (fieldA w)
  | .polyMul => .polyMul (fieldF5 w) (fieldF1 w) (fieldF2 w) (fieldF3 w) (fieldF4 w)
  | .polyDiv => .polyDiv (fieldF5 w) (fieldF1 w) (fieldF2 w) (fieldF3 w) (fieldF4 w)
  | .genPoly => .genPoly (fieldF5 w) (fieldF4 w)
  | .rsEnc => .rsEnc (fieldF5 w) (fieldF1 w) (fieldF2 w) (fieldF4 w)

/-! ## Decoding (R75, R77, R78) -/

/-- Why a command word is illegal (30_encoding.md R77, R78; the two first ranks of 60_exceptions.md R162). Both are
reported as ILLEGAL_COMMAND. -/
inductive DecodeError where
  /-- The opcode byte is not in the map (R78). -/
  | unlistedOpcode (op : Byte)
  /-- A listed opcode with a nonzero unused or reserved bit (R75). -/
  | reservedBits (op : Opcode)
  deriving DecidableEq, Repr

/-- The decode check of `Execute` (R77): the opcode first, then `w & MASK[op] = MATCH[op]`. -/
def decode (w : Word64) : Except DecodeError Instr :=
  match Opcode.ofByte? (fieldOp w) with
  | none => .error (.unlistedOpcode (fieldOp w))
  | some op =>
    if w &&& op.mask = op.matchWord then .ok (op.operands w) else .error (.reservedBits op)

/-- The instruction the decoder reads from the word `w` of an opcode-table row of `nbits` bits, bit 0 the least
significant. A command word has 64 bits (R70), and every bit above `nbits` is 0. -/
def decodeTableWord (nbits w : Nat) : Option Instr :=
  if nbits ≤ 64 ∧ w < 2 ^ nbits then (decode (BitVec.ofNat 64 w)).toOption else none

/-! ## Encoding (R80) -/

/-- Format S: `w = OP | A<<8 | B<<16 | IDX<<32` (R80, R72). -/
def assembleS (op : Opcode) (a b : Byte) (idx : Nat) : Word64 :=
  op.byte.setWidth 64 ||| a.setWidth 64 <<< 8 ||| b.setWidth 64 <<< 16 ||| BitVec.ofNat 64 idx <<< 32

/-- Format P: `w = OP | F1<<8 | F2<<18 | F3<<28 | F4<<38 | F5<<48` (R80, R73). -/
def assembleP (op : Opcode) (f1 f2 f3 f4 f5 : Nat) : Word64 :=
  op.byte.setWidth 64 ||| BitVec.ofNat 64 f1 <<< 8 ||| BitVec.ofNat 64 f2 <<< 18 ||| BitVec.ofNat 64 f3 <<< 28 |||
    BitVec.ofNat 64 f4 <<< 38 ||| BitVec.ofNat 64 f5 <<< 48

/-- The command word of a well-formed command; unused fields are 0 (R80). -/
def encode : Instr → Word64
  | .nop => assembleS .nop 0 0 0
  | .gfMul a b => assembleS .gfMul a b 0
  | .gfExp index => assembleS .gfExp 0 0 index
  | .gfLog x => assembleS .gfLog x 0 0
  | .polyMul dst aAddr aLen bAddr bLen => assembleP .polyMul aAddr aLen bAddr bLen dst
  | .polyDiv dst nAddr nLen dAddr dLen => assembleP .polyDiv nAddr nLen dAddr dLen dst
  | .genPoly dst deg => assembleP .genPoly 0 0 0 deg dst
  | .rsEnc dst dataAddr dataLen ec => assembleP .rsEnc dataAddr dataLen 0 ec dst

end Sys2Proof
end

