-- ==== Sys2Proof/Machine/State.lean ====
section
/-! DEFINITION. The state of the machine: all the spec gives the core (10_state.md R20), the host agent
(70_reset_and_hazards.md R190, 30_encoding.md R81) and the order of the agents' steps, as plain data; the reasons a
step can stop; the state right after power-on. -/

namespace Sys2Proof.Machine

/-- DMEM as the bytes written since the last reset, by address, addresses strictly rising (Memory.wf in Ops.lean).
An address that is not listed holds DMEM's unspecified reset content (R62, R181). -/
abbrev Memory := List Host.Cell

/-- The error codes of 60_exceptions.md R160 (their numbers stand in Flags.lean). -/
inductive ErrorCode where
  | invalidArgument | addrRange | illegalCommand
  deriving DecidableEq, Repr

/-- A variable of the host (30_encoding.md R81, `rd32 off -> r` and `dmem.read addr, n -> r`): element `index` of the
host variable numbered `name`. -/
structure HostVar where
  name : Nat
  index : Nat
  deriving DecidableEq, Repr

/-- One access of the host: a read or a write of a width in bits at a window offset (20_memory.md R55). Any width and
any offset can be asked for; which are admitted is R55's matter. -/
inductive HostAccess where
  /-- A read; the value goes into a host variable. -/
  | read (width offset : Nat) (dst : HostVar)
  /-- A write of the 32-bit bus value (R56: an 8-bit write uses bits [7:0]). -/
  | write (width offset : Nat) (value : Word32)
  deriving DecidableEq, Repr

/-- What the host's program is made of once its pseudo-instructions are expanded (30_encoding.md R81). -/
inductive HostOp where
  /-- One access. -/
  | access (a : HostAccess)
  /-- `wait`: read STATUS, and again while bit 0 is 1. -/
  | wait
  deriving DecidableEq, Repr

/-- Whose step comes next (70_reset_and_hazards.md R190: host step, core step, reset step). -/
inductive Turn where
  | host | core | reset
  deriving DecidableEq, Repr

/-- The machine. -/
structure State where
  /-- DMEM: the bytes written since the last reset (20_memory.md R50). -/
  dmem : Memory
  /-- CMD_LO, command word bits [31:0] (10_state.md R30). -/
  cmdLo : Word32
  /-- CMD_HI, command word bits [63:32] (R30). -/
  cmdHi : Word32
  /-- STATUS.ERR (R36). -/
  err : Bool
  /-- STATUS.ERRCODE (R37). -/
  errCode : Byte
  /-- STATUS.ERROP (R37). -/
  errOp : Byte
  /-- RESULT bits [7:0]; bits [31:8] read 0 (R34). -/
  result : Byte
  /-- The command in flight, `none` when idle (R39); STATUS.BUSY is read from it. -/
  pending : Option Word64
  /-- What the host has still to do, in program order (30_encoding.md R81). -/
  program : List HostOp
  /-- The host's variables, each at most once, the one assigned last first. -/
  hostVars : List (HostVar × Word32)
  /-- The host is in the busy interval of 70_reset_and_hazards.md R185: it has started a command and has not read
  STATUS with BUSY = 0 since. -/
  awaitingIdle : Bool
  /-- The model's own: whose steps come next, in order (R190); once it is empty see `nextTurn`. -/
  schedule : List Turn
  /-- The model's own: how many resets there have been since power-on; it numbers the draws of `Config.dmemInit`. -/
  resets : Nat
  deriving DecidableEq, Repr

/-- Why the machine stops with a fault. The core itself never does: an error of a command is recorded in STATUS and the
core goes idle (60_exceptions.md R163, R168). -/
inductive Fault where
  /-- Raised by a host access (`hostAccess`) at an offset that does not exist: the window has the 11-bit offsets
  0x000..0x7FF (20_memory.md R51, R54). SAFE: nothing follows. -/
  | hostOffsetOutsideWindow (offset : Nat)
  deriving DecidableEq, Repr

/-- Why the machine gives no step. -/
inductive Refusal where
  /-- Raised by an arm of `exec` whose instruction has no meaning yet. SAFE: nothing follows. -/
  | notModelled (mnemonic : String)
  /-- Raised by a host access (`hostAccess`) that 20_memory.md R55 does not admit: "A model must refuse such an access"
  (R57). SAFE: nothing follows. -/
  | hostAccessNotAdmitted (width offset : Nat)
  /-- Raised by a host access (`hostAccess`) other than a STATUS read in the busy interval: "A model must refuse a host
  access that is a hazard" (70_reset_and_hazards.md R185). SAFE: nothing follows. -/
  | busyHazard (offset : Nat)
  deriving DecidableEq, Repr

/-- The state after power-on: every register as 10_state.md R40 says, DMEM unspecified (nothing listed), no command in
flight. The host's fields and the model's own are empty (DESIGN CHOICE, log entries 3, 4, 5). -/
def State.reset : State where
  dmem := []
  cmdLo := 0
  cmdHi := 0
  err := false
  errCode := 0
  errOp := 0
  result := 0
  pending := none
  program := []
  hostVars := []
  awaitingIdle := false
  schedule := []
  resets := 0

end Sys2Proof.Machine
end

