-- ==== Sys2Proof/Machine/Flags.lean ====
section
/-! DEFINITION. STATUS and its fields (10_state.md R33, R35 to R38) and the numbers of the error codes
(60_exceptions.md R160). The core has no other flag (R38). -/

namespace Sys2Proof.Machine

/-- The value of STATUS.ERRCODE for each error (60_exceptions.md R160). -/
def ErrorCode.byte : ErrorCode → Byte
  | .invalidArgument => 0x01
  | .addrRange => 0x02
  | .illegalCommand => 0x03

/-- STATUS.BUSY = 1 exactly when a command is pending (10_state.md R35, R39). -/
def State.busy (s : State) : Bool := s.pending.isSome

/-- The value a read of STATUS returns (R33): reserved [31:24], ERROP [23:16], ERRCODE [15:8], reserved [7:2],
ERR [1], BUSY [0]; the reserved bits read 0. -/
def State.status (s : State) : Word32 :=
  0#8 ++ s.errOp ++ s.errCode ++ 0#6 ++ BitVec.ofBool s.err ++ BitVec.ofBool s.busy

/-- STATUS.BUSY of a value that was read, `s[0]` (30_encoding.md R81, `wait`). -/
def statusBusy (v : Word32) : Bool := v.getLsbD 0

end Sys2Proof.Machine
end

