-- ==== Sys2Proof/Machine/Ops.lean ====
section
/-! DEFINITION. The named operations over memory and registers: the bytes of DMEM (20_memory.md R50, R62), MemRead and
MemWrite (00_scope.md R12), writing RESULT, completing a command (10_state.md R39), recording an error
(60_exceptions.md R163), clearing it (R166), and starting a command (10_state.md R32). -/

namespace Sys2Proof.Machine

/-! ## DMEM -/

/-- The byte listed at an address, `none` where nothing was written since the last reset. -/
def Memory.lookup : Memory → Nat → Option Byte
  | [], _ => none
  | (k, b) :: m, a => if k = a then some b else Memory.lookup m a

/-- The memory with byte `b` at address `a`, in its place in the rising order. -/
def Memory.store : Memory → Nat → Byte → Memory
  | [], a, b => [(a, b)]
  | (k, c) :: m, a, b =>
    if a < k then (a, b) :: (k, c) :: m
    else if a = k then (a, b) :: m
    else (k, c) :: Memory.store m a b

/-- The memory with these bytes at consecutive addresses from `a` on. -/
def Memory.storeAll : Memory → Nat → List Byte → Memory
  | m, _, [] => m
  | m, a, b :: v => Memory.storeAll (Memory.store m a b) (a + 1) v

/-- Addresses strictly rising from `lo` on, all of them addresses of DMEM. -/
def Memory.risesFrom (lo : Nat) : Memory → Bool
  | [] => true
  | (k, _) :: m => decide (lo ≤ k) && decide (k < Config.dmemSize) && Memory.risesFrom (k + 1) m

/-- The canonical form: addresses strictly rising, each in 0..1023. An unlisted address holds no value here (what the
machine reads there is the free value of `unwrittenByte`), so no entry equals it: log entry 2. -/
def Memory.wf (m : Memory) : Bool := Memory.risesFrom 0 m

/-- What a byte holds that nothing has written since the last reset: the unspecified value drawn at that reset
(70_reset_and_hazards.md R181). A FREE VALUE, log entry 1. -/
def State.unwrittenByte (s : State) (a : Nat) : Byte := Config.dmemInit s.resets a

/-- DMEM[a]: the last value written, or the unspecified reset content (20_memory.md R62). -/
def State.readByte (s : State) (a : Nat) : Byte := (Memory.lookup s.dmem a).getD (s.unwrittenByte a)

/-- DMEM[a] <- b (R62). -/
def State.writeByte (s : State) (a : Nat) (b : Byte) : State := { s with dmem := Memory.store s.dmem a b }

/-- `MemRead(a, n)`: the bytes DMEM[a], ..., DMEM[a+n-1] (00_scope.md R12). -/
def State.memRead (s : State) (a : Nat) : Nat → List Byte
  | 0 => []
  | n + 1 => s.readByte a :: s.memRead (a + 1) n

/-- `MemWrite(a, n, v)`: DMEM[a+k] <- v[k] (00_scope.md R12). -/
def State.memWrite (s : State) (a : Nat) (v : List Byte) : State := { s with dmem := Memory.storeAll s.dmem a v }

/-! ## Registers -/

/-- `RESULT <- zext_32(v)` (10_state.md R34). -/
def State.writeResult (s : State) (v : Byte) : State := { s with result := v }

/-- The value a read of RESULT returns: bits [31:8] read 0 (R34). -/
def State.resultWord (s : State) : Word32 := s.result.setWidth 32

/-- The whole CMD register, CMD_HI:CMD_LO (10_state.md R30, 30_encoding.md R70). -/
def State.cmd (s : State) : Word64 := s.cmdHi ++ s.cmdLo

/-- CMD <- w, both halves (20_memory.md R56: CMD_LO holds bits [31:0], CMD_HI bits [63:32]). -/
def State.writeCmd (s : State) (w : Word64) : State :=
  { s with cmdLo := w.extractLsb' 0 32, cmdHi := w.extractLsb' 32 32 }

/-! ## Completing a command, and the error that ends one -/

/-- A command completes: `pending <- none`, so BUSY goes to 0 in the same step (10_state.md R35, R39). -/
def State.complete (s : State) : State := { s with pending := none }

/-- `raise Error(code)`: what a failed command changes, and nothing else (60_exceptions.md R163): ERR, ERRCODE, ERROP
(bits [7:0] of the failing word), and `pending <- none`. -/
def State.raiseError (s : State) (code : ErrorCode) (op : Byte) : State :=
  { s with err := true, errCode := code.byte, errOp := op, pending := none }

/-- CLR_ERR: ERR, ERRCODE and ERROP become 0, nothing else changes (10_state.md R32, 60_exceptions.md R166). -/
def State.clearError (s : State) : State := { s with err := false, errCode := 0, errOp := 0 }

/-- GO starts the command CMD holds at that moment (10_state.md R32, R39), and the host's busy interval begins
(70_reset_and_hazards.md R185). -/
def State.startCommand (s : State) : State := { s with pending := some s.cmd, awaitingIdle := true }

/-- A command word delivered from outside: the effect of writing it to CMD and then 0x3 (CLR_ERR and GO) to CTRL
(30_encoding.md R70, R81; 10_state.md R32), with the core's step next. Log entry 8. -/
def State.loadCommand (s : State) (w : Word64) : State :=
  { ((s.writeCmd w).clearError).startCommand with schedule := .core :: s.schedule }

end Sys2Proof.Machine
end

