-- ==== Sys2Proof/Machine/Operands.lean ====
section
/-! DEFINITION. The one operand form of the polynomial commands, a range (base, length) of DMEM (20_memory.md R52,
R53). Immediates are the fields of the word (Decode.lean). -/

namespace Sys2Proof.Machine

/-- A range is in bounds when base + length <= 1024, as mathematical integers; length 0 is in bounds for every base
(20_memory.md R52). -/
def inBounds (base len : Nat) : Bool := decide (base + len ≤ Config.dmemSize)

/-- The addresses of a range: DMEM[base], ..., DMEM[base+len-1] (R52). -/
def inRange (base len a : Nat) : Bool := decide (base ≤ a) && decide (a < base + len)

/-- A command's result `bytes` goes to its destination range and the command completes (R53, 10_state.md R39). -/
def State.finishWith (s : State) (dst : Nat) (bytes : List Byte) : State := (s.memWrite dst bytes).complete

/-- A scalar command's result goes to RESULT and the command completes (10_state.md R34, R39). -/
def State.finishScalar (s : State) (v : Byte) : State := (s.writeResult v).complete

end Sys2Proof.Machine
end

