-- ==== Sys2Proof/Machine/GfScalar.lean ====
section
/-! DEFINITION. The scalar commands NOP, GF_MUL, GF_EXP and GF_LOG (40_gf_scalar.md R105 to R108): their whole effect at
the completion step. -/

namespace Sys2Proof.Machine

/-- NOP: no effect; the command completes (R105). -/
def execNop (s : State) : Host.Outcome State Fault Refusal := .next s.complete

/-- GF_MUL: `RESULT <- zext_32(gf_mul(a, b))` (R106). -/
def execGfMul (a b : Byte) (s : State) : Host.Outcome State Fault Refusal := .next (s.finishScalar (gfMul a b))

/-- GF_EXP: `RESULT <- zext_32(gf_exp(i))` (R107). -/
def execGfExp (index : Nat) (s : State) : Host.Outcome State Fault Refusal := .next (s.finishScalar (gfExp index))

/-- GF_LOG: x = 0 is INVALID_ARGUMENT, else `RESULT <- zext_32(gf_log(x))` (R108). -/
def execGfLog (x : Byte) (s : State) : Host.Outcome State Fault Refusal :=
  if x = 0 then .next (s.raiseError .invalidArgument Opcode.gfLog.byte)
  else .next (s.finishScalar (gfLog x))

end Sys2Proof.Machine
end

