-- ==== Sys2Proof/Machine/Polynomial.lean ====
section
/-! DEFINITION. The polynomial multiplier and divider (41_polynomial.md): `poly_mul` (R120), `poly_div` (R122), and the
commands POLY_MUL (R127) and POLY_DIV (R128). A polynomial is the list of its coefficients, highest degree first
(00_scope.md R11). The loops of R120 and R122 are written by recursion on the lists, log entry 20. -/

namespace Sys2Proof.Machine

/-- `zeros(n)`: the list of n zero bytes (R11). -/
def zeros (n : Nat) : List Byte := List.replicate n 0

/-- XOR the second list into the leading entries of the first: one inner loop of R120 and R122, whose entries
`out[i+j]` start where the first list starts. -/
def xorInto : List Byte → List Byte → List Byte
  | [], _ => []
  | p, [] => p
  | x :: p, y :: q => (x ^^^ y) :: xorInto p q

/-- `poly_mul(a, b)` (R120): entry i+j collects `gf_mul(a[i], b[j])`. The head of `a` is XORed in at index 0, and the
products of the rest of `a` stand one place further on. -/
def polyMul : List Byte → List Byte → List Byte
  | [], b => zeros (b.length - 1)
  | x :: a, b => xorInto (0 :: polyMul a b) (b.map (gfMul x))

/-- One position of the sweep of R122: with c the leading entry, XOR `gf_mul(d[j], c)` into entry j, unless c is 0. -/
def polyDivPosition (d r : List Byte) : List Byte :=
  match r with
  | [] => []
  | c :: _ => if c = 0 then r else xorInto r (d.map fun dj => gfMul dj c)

/-- The sweep of R122 over this many leading positions; a position that is done is not touched again. -/
def polyDivSweep (d : List Byte) : Nat → List Byte → List Byte
  | 0, r => r
  | n + 1, r =>
    match polyDivPosition d r with
    | [] => []
    | x :: r' => x :: polyDivSweep d n r'

/-- `poly_div(n, d)` (R122): the sweep over positions 0..len(n)-len(d), on a working copy. -/
def polyDiv (n d : List Byte) : List Byte := polyDivSweep d (n.length - d.length + 1) n

/-- POLY_MUL (R127). The checks stand in the order of the rule (60_exceptions.md R162), the sources are read before the
destination is written (20_memory.md R61). -/
def execPolyMul (dst aAddr aLen bAddr bLen : Nat) (s : State) : Host.Outcome State Fault Refusal :=
  if aLen = 0 ∨ bLen = 0 then .next (s.raiseError .invalidArgument Opcode.polyMul.byte)
  else if inBounds aAddr aLen && inBounds bAddr bLen && inBounds dst (aLen + bLen - 1) then
    .next (s.finishWith dst (polyMul (s.memRead aAddr aLen) (s.memRead bAddr bLen)))
  else .next (s.raiseError .addrRange Opcode.polyMul.byte)

/-- POLY_DIV (R128): the whole working array is written; the divisor is not checked for monicity (R125). -/
def execPolyDiv (dst nAddr nLen dAddr dLen : Nat) (s : State) : Host.Outcome State Fault Refusal :=
  if dLen = 0 ∨ nLen < dLen then .next (s.raiseError .invalidArgument Opcode.polyDiv.byte)
  else if inBounds nAddr nLen && inBounds dAddr dLen && inBounds dst nLen then
    .next (s.finishWith dst (polyDiv (s.memRead nAddr nLen) (s.memRead dAddr dLen)))
  else .next (s.raiseError .addrRange Opcode.polyDiv.byte)

end Sys2Proof.Machine
end

