-- ==== Sys2Proof/Machine/Generator.lean ====
section
/-! DEFINITION. The generator-polynomial builder (42_generator.md): `gen_poly` (R140) and GEN_POLY (R143). -/

namespace Sys2Proof.Machine

/-- `gen_poly(k)` (R140): [1], multiplied by the binomial [1, gf_exp(i)] for each i in [0, k). -/
def genPoly : Nat → List Byte
  | 0 => [1]
  | k + 1 => polyMul (genPoly k) [1, gfExp k]

/-- GEN_POLY (R143): deg + 1 bytes to the destination; the only error is ADDR_RANGE. -/
def execGenPoly (dst deg : Nat) (s : State) : Host.Outcome State Fault Refusal :=
  if inBounds dst (deg + 1) then .next (s.finishWith dst (genPoly deg))
  else .next (s.raiseError .addrRange Opcode.genPoly.byte)

end Sys2Proof.Machine
end

