-- ==== Sys2Proof/Machine/RsEncoder.lean ====
section
/-! DEFINITION. The Reed-Solomon encoder (43_rs_encoder.md): `rs_encode` (R150) and RS_ENC (R153). The generator and the
padded dividend are values, never DMEM bytes (R153, 10_state.md R39). -/

namespace Sys2Proof.Machine

/-- `last(p, k)`: the last k entries (00_scope.md R11). -/
def lastEntries (p : List Byte) (k : Nat) : List Byte := p.drop (p.length - k)

/-- `rs_encode(data, k)` (R150): divide the data, padded with k zeros, by the generator, and keep the last k entries. -/
def rsEncode (data : List Byte) (k : Nat) : List Byte := lastEntries (polyDiv (data ++ zeros k) (genPoly k)) k

/-- RS_ENC (R153). -/
def execRsEnc (dst dataAddr dataLen ec : Nat) (s : State) : Host.Outcome State Fault Refusal :=
  if ec = 0 ∨ dataLen = 0 then .next (s.raiseError .invalidArgument Opcode.rsEnc.byte)
  else if inBounds dataAddr dataLen && inBounds dst ec then
    .next (s.finishWith dst (rsEncode (s.memRead dataAddr dataLen) ec))
  else .next (s.raiseError .addrRange Opcode.rsEnc.byte)

end Sys2Proof.Machine
end

