-- ==== Sys2Proof/Machine/Dispatch.lean ====
section
/-! DEFINITION. One arm per command: `Execute`'s case analysis (30_encoding.md R77). -/

namespace Sys2Proof.Machine

def exec (i : Instr) (s : State) : Host.Outcome State Fault Refusal :=
  match i with
  | .nop => Sys2Proof.Machine.execNop s
  | .gfMul a b => Sys2Proof.Machine.execGfMul a b s
  | .gfExp index => Sys2Proof.Machine.execGfExp index s
  | .gfLog x => Sys2Proof.Machine.execGfLog x s
  | .polyMul dst aAddr aLen bAddr bLen => Sys2Proof.Machine.execPolyMul dst aAddr aLen bAddr bLen s
  | .polyDiv dst nAddr nLen dAddr dLen => Sys2Proof.Machine.execPolyDiv dst nAddr nLen dAddr dLen s
  | .genPoly dst deg => Sys2Proof.Machine.execGenPoly dst deg s
  | .rsEnc dst dataAddr dataLen ec => Sys2Proof.Machine.execRsEnc dst dataAddr dataLen ec s

end Sys2Proof.Machine
end

