-- ==== Sys2Proof/Machine/HostPort.lean ====
section
/-! DEFINITION. The host window: the registers (10_state.md R29 to R34), the DMEM window (20_memory.md R54, R56), which
accesses are admitted (R55, R57), the busy hazard (70_reset_and_hazards.md R185), and one host access (R60). -/

namespace Sys2Proof.Machine

/-! ## The map of the window (R29, R54) -/

/-- CMD_LO. -/
def offCmdLo : Nat := 0x000
/-- CMD_HI. -/
def offCmdHi : Nat := 0x004
/-- CTRL. -/
def offCtrl : Nat := 0x008
/-- STATUS. -/
def offStatus : Nat := 0x00C
/-- RESULT. -/
def offResult : Nat := 0x010
/-- Where the DMEM window begins: offset o is DMEM[o - 0x400]. -/
def offDmem : Nat := 0x400

/-- The host's address of an offset of the window (60_exceptions.md R171). No rule depends on it. -/
def hostAddress (offset : Nat) : Nat := Config.hostBase + offset

/-- The window offset at a host address, where there is one (R171). -/
def windowOffset? (addr : Nat) : Option Nat :=
  if Config.hostBase ≤ addr ∧ addr < Config.hostBase + Config.windowSize then some (addr - Config.hostBase) else none

/-! ## Registers (R29) -/

/-- What a 32-bit read of a register offset returns (R30, R32, R33, R34); CTRL and every reserved offset read 0
(20_memory.md R58). -/
def State.readReg (s : State) (offset : Nat) : Word32 :=
  if offset = offCmdLo then s.cmdLo
  else if offset = offCmdHi then s.cmdHi
  else if offset = offStatus then s.status
  else if offset = offResult then s.resultWord
  else 0

/-- A write of `v` to CTRL (10_state.md R32): CLR_ERR (bit 1) first, then GO (bit 0), which does nothing while ERR = 1
(60_exceptions.md R165); bits [31:2] are ignored. -/
def State.writeCtrl (s : State) (v : Word32) : State :=
  let t := if v.getLsbD 1 then s.clearError else s
  if v.getLsbD 0 then (if t.err then t else t.startCommand) else t

/-- A 32-bit write to a register offset. Writes to STATUS, RESULT and reserved offsets are ignored (R58, D19). -/
def State.writeReg (s : State) (offset : Nat) (v : Word32) : State :=
  if offset = offCmdLo then { s with cmdLo := v }
  else if offset = offCmdHi then { s with cmdHi := v }
  else if offset = offCtrl then s.writeCtrl v
  else s

/-! ## The DMEM window (R54, R56) -/

/-- A 32-bit read at DMEM address d, little-endian: DMEM[d] is bits [7:0] (R56). -/
def State.readWord (s : State) (d : Nat) : Word32 :=
  s.readByte (d + 3) ++ s.readByte (d + 2) ++ s.readByte (d + 1) ++ s.readByte d

/-- The four bytes of a bus value, bits [7:0] first (R56). -/
def busBytes (v : Word32) : List Byte :=
  [v.extractLsb' 0 8, v.extractLsb' 8 8, v.extractLsb' 16 8, v.extractLsb' 24 8]

/-- A 32-bit write at DMEM address d, little-endian (R56). -/
def State.writeWord (s : State) (d : Nat) (v : Word32) : State := s.memWrite d (busBytes v)

/-! ## One access -/

/-- Which accesses the core admits (R55): 32 bits at any offset that is a multiple of 4; 8 bits at a DMEM offset. -/
def admitted (width offset : Nat) : Bool :=
  decide (offset < Config.windowSize) &&
    ((decide (width = 32) && decide (offset % 4 = 0)) || (decide (width = 8) && decide (offDmem ≤ offset)))

/-- The value an admitted read returns; an 8-bit read has bits [31:8] zero (R56, R58). -/
def State.portRead (s : State) (width offset : Nat) : Word32 :=
  if offset < offDmem then s.readReg offset
  else if width = 8 then (s.readByte (offset - offDmem)).setWidth 32
  else s.readWord (offset - offDmem)

/-- What an admitted write does; an 8-bit write ignores bits [31:8] (R56, R59). -/
def State.portWrite (s : State) (width offset : Nat) (v : Word32) : State :=
  if offset < offDmem then s.writeReg offset v
  else if width = 8 then s.writeByte (offset - offDmem) (v.extractLsb' 0 8)
  else s.writeWord (offset - offDmem) v

/-- Assigning a host variable: its earlier value goes, every other variable keeps its own (30_encoding.md R81). -/
def State.setVar (s : State) (x : HostVar) (v : Word32) : State :=
  { s with hostVars := (x, v) :: s.hostVars.filter fun p => !(p.1 == x) }

/-- The value of a host variable, `none` where nothing was read into it. -/
def State.var? (s : State) (x : HostVar) : Option Word32 := (s.hostVars.find? fun p => p.1 == x).map Prod.snd

/-- The busy interval after a read at an offset: a read of STATUS that shows BUSY = 0 ends it
(70_reset_and_hazards.md R185). -/
def State.noteRead (s : State) (offset : Nat) : State :=
  if offset = offStatus then { s with awaitingIdle := s.awaitingIdle && s.busy } else s

/-- The window offset of an access. -/
def HostAccess.offset : HostAccess → Nat
  | .read _ offset _ => offset
  | .write _ offset _ => offset

/-- The width of an access, in bits. -/
def HostAccess.width : HostAccess → Nat
  | .read width _ _ => width
  | .write width _ _ => width

/-- A read of STATUS, the one access the busy interval allows (R185). -/
def HostAccess.isStatusRead : HostAccess → Bool
  | .read _ offset _ => offset == offStatus
  | .write _ _ _ => false

/-- What an admitted access that is no hazard does, in one step (R59, R60). No read changes the core (R59). -/
def HostAccess.perform (a : HostAccess) (s : State) : State :=
  match a with
  | .read width offset dst => (s.setVar dst (s.portRead width offset)).noteRead offset
  | .write width offset v => s.portWrite width offset v

/-- One host access (70_reset_and_hazards.md R190, host step): it has its effect, or it is refused because R55 does not
admit it (R57) or because it is a hazard (R185). An offset outside the window does not exist (R51). -/
def hostAccess (a : HostAccess) (s : State) : Host.Outcome State Fault Refusal :=
  if Config.windowSize ≤ a.offset then .fault (.hostOffsetOutsideWindow a.offset)
  else if !admitted a.width a.offset then .refused (.hostAccessNotAdmitted a.width a.offset)
  else if s.awaitingIdle && !a.isStatusRead then .refused (.busyHazard a.offset)
  else .next (a.perform s)

end Sys2Proof.Machine
end

