-- ==== Sys2Proof/Machine/HostProgram.lean ====
section
/-! DEFINITION. Host programs: the statements of 30_encoding.md R81 with their fixed expansions, and the host step of
70_reset_and_hazards.md R190. -/

namespace Sys2Proof.Machine

/-- The host statements of R81. `exec` takes the assembled command word (a command of R80, or any word). -/
inductive HostStmt where
  | wr32 (offset : Nat) (v : Word32)
  | wr8 (offset : Nat) (v : Word32)
  | rd32 (offset : Nat) (r : HostVar)
  | rd8 (offset : Nat) (r : HostVar)
  | wait
  | exec (w : Word64)
  | dmemBytes (addr : Nat) (bytes : List Byte)
  | dmemRead (addr n : Nat) (name : Nat)
  | clrerr
  deriving DecidableEq, Repr

/-- `dmem.bytes addr, b0, ...`: `wr8 0x400+addr+k, bk`, in increasing k (R81). -/
def expandBytes (addr : Nat) : List Byte → List HostOp
  | [] => []
  | b :: bs => .access (.write 8 (offDmem + addr) (b.setWidth 32)) :: expandBytes (addr + 1) bs

/-- `dmem.read addr, n -> r`: `rd8 0x400+addr+k -> r[k]`, in increasing k (R81). -/
def expandRead (addr n name : Nat) : List HostOp :=
  (List.range n).map fun k => .access (.read 8 (offDmem + addr + k) ⟨name, k⟩)

/-- The expansion of a statement into accesses and `wait` (R81). -/
def HostStmt.expand : HostStmt → List HostOp
  | .wr32 offset v => [.access (.write 32 offset v)]
  | .wr8 offset v => [.access (.write 8 offset v)]
  | .rd32 offset r => [.access (.read 32 offset r)]
  | .rd8 offset r => [.access (.read 8 offset r)]
  | .wait => [.wait]
  | .exec w =>
    [.access (.write 32 offCmdLo (w.extractLsb' 0 32)), .access (.write 32 offCmdHi (w.extractLsb' 32 32)),
      .access (.write 32 offCtrl 1), .wait]
  | .dmemBytes addr bytes => expandBytes addr bytes
  | .dmemRead addr n name => expandRead addr n name
  | .clrerr => [.access (.write 32 offCtrl 2)]

/-- A host program: its statements expanded, in order. -/
def hostProgram (p : List HostStmt) : List HostOp := p.flatMap HostStmt.expand

/-- The variable the `wait` loop reads STATUS into (R81: `rd32 0x00C -> s`): variable 0 is kept for it, log entry 5. -/
def pollVar : HostVar := ⟨0, 0⟩

/-- The access of one round of `wait`: `rd32 0x00C -> s` (R81). -/
def statusPoll : HostAccess := .read 32 offStatus pollVar

/-- The host's program moves on. -/
def State.setProgram (s : State) (p : List HostOp) : State := { s with program := p }

/-- Host step (70_reset_and_hazards.md R190): the next access of the program. `wait` stays at the head of the program
while the STATUS it reads shows BUSY = 1 (30_encoding.md R81). A host that has done its last statement does nothing
more. -/
def hostStep (s : State) : Host.Outcome State Fault Refusal :=
  match s.program with
  | [] => .next s
  | .access a :: rest => hostAccess a (s.setProgram rest)
  | .wait :: rest =>
    hostAccess statusPoll (s.setProgram (if statusBusy s.status then .wait :: rest else rest))

end Sys2Proof.Machine
end

