-- ==== Sys2Proof/Machine/Agents.lean ====
section
/-! DEFINITION. The steps of the agents (70_reset_and_hazards.md R190): the core step, which performs `Execute(w)`
(30_encoding.md R77), the reset step (R180), and whose step comes next. The host step stands in HostProgram.lean. -/

namespace Sys2Proof.Machine

/-- `Execute(w)` (30_encoding.md R77): decode, then the command; a word that does not decode is ILLEGAL_COMMAND
(R75, R78), with ERROP its low byte (60_exceptions.md R161). -/
def execute (w : Word64) (s : State) : Host.Outcome State Fault Refusal :=
  match decode w with
  | .ok i => exec i s
  | .error _ => .next (s.raiseError .illegalCommand (fieldOp w))

/-- Core step (R190): enabled exactly when a command is pending; an idle core changes no state (60_exceptions.md R174). -/
def coreStep (s : State) : Host.Outcome State Fault Refusal :=
  match s.pending with
  | some w => execute w s
  | none => .next s

/-- Reset step (R180): every register to its reset value, the command in flight abandoned, DMEM unspecified by a new
draw (R181). The host and the schedule are outside the core (log entry 7). -/
def resetStep (s : State) : State :=
  { s with
    dmem := State.reset.dmem, cmdLo := State.reset.cmdLo, cmdHi := State.reset.cmdHi, err := State.reset.err,
    errCode := State.reset.errCode, errOp := State.reset.errOp, result := State.reset.result,
    pending := State.reset.pending, resets := s.resets + 1 }

/-- Whose step comes next (R190): as the schedule says; once the schedule is empty, the core's while a command is in
flight, and otherwise the host's (DESIGN CHOICE, log entry 4). -/
def nextTurn (s : State) : Turn :=
  match s.schedule with
  | t :: _ => t
  | [] => if s.busy then .core else .host

/-- The state with the turn that is now taken removed from the schedule. -/
def popTurn (s : State) : State := { s with schedule := s.schedule.tail }

end Sys2Proof.Machine
end

