-- ==== Sys2Proof/Machine/Step.lean ====
section
/-! DEFINITION. One step of the machine (70_reset_and_hazards.md R190): the step of the agent whose turn it is. -/

namespace Sys2Proof.Machine

/-- One step: the next turn is taken off the schedule, and its agent makes its step (R190). -/
def step (s : State) : Host.Outcome State Fault Refusal :=
  match nextTurn s with
  | .core => coreStep (popTurn s)
  | .host => hostStep (popTurn s)
  | .reset => .next (resetStep (popTurn s))

/-- The machine with the command word `w` (its `nbits` low bits) in CMD and in flight, and the core's step next: what a
host does by writing CMD and GO. Log entry 8. -/
def State.withFetchWord (s : State) (nbits w : Nat) : State :=
  s.loadCommand (BitVec.ofNat 64 (w % 2 ^ nbits))

end Sys2Proof.Machine
end

