-- ==== Sys2Proof/Machine/Assembler.lean ====
section
/-! DEFINITION. The assembler of RSC-1 (30_encoding.md R80): one line of text to a command, to its command word. A line
that is no command, or has an operand that does not fit its field, is refused (U14): no word is produced. -/

namespace Sys2Proof.Machine

/-- A blank between the parts of a line (DESIGN CHOICE, log entry 19). -/
def isBlank (c : Char) : Bool := c == ' ' || c == '\t'

/-- The line without the blanks at its ends. -/
def trimBlanks (l : List Char) : List Char := ((l.dropWhile isBlank).reverse.dropWhile isBlank).reverse

/-- The value of a digit in base 10 or 16; hexadecimal letters in either case (DESIGN CHOICE, log entry 19). -/
def digitValue? (base : Nat) (c : Char) : Option Nat :=
  let n := c.toNat
  if 48 ≤ n ∧ n ≤ 57 then some (n - 48)
  else if base = 16 ∧ 97 ≤ n ∧ n ≤ 102 then some (n - 87)
  else if base = 16 ∧ 65 ≤ n ∧ n ≤ 70 then some (n - 55)
  else none

/-- The digits read from left to right. -/
def digitsValue? (base acc : Nat) : List Char → Option Nat
  | [] => some acc
  | c :: cs =>
    match digitValue? base c with
    | some d => digitsValue? base (acc * base + d) cs
    | none => none

/-- "An operand is a decimal number or a `0x` hexadecimal number" (R80); at least one digit. -/
def number? : List Char → Option Nat
  | [] => none
  | '0' :: 'x' :: ds => if ds = [] then none else digitsValue? 16 0 ds
  | ds => digitsValue? 10 0 ds

/-- The parts of a text between its commas (R80). -/
def splitCommas : List Char → List (List Char)
  | [] => [[]]
  | c :: cs =>
    if c = ',' then [] :: splitCommas cs
    else
      match splitCommas cs with
      | [] => [[c]]
      | part :: parts => (c :: part) :: parts

/-- The numbers of a list of operand texts, none if one of them is no number. -/
def numbers? : List (List Char) → Option (List Nat)
  | [] => some []
  | t :: ts =>
    match number? (trimBlanks t), numbers? ts with
    | some n, some ns => some (n :: ns)
    | _, _ => none

/-- The lower-case mnemonics (R80). -/
def mnemonicText : Opcode → List Char
  | .nop => "nop".toList
  | .gfMul => "gf.mul".toList
  | .gfExp => "gf.exp".toList
  | .gfLog => "gf.log".toList
  | .polyMul => "poly.mul".toList
  | .polyDiv => "poly.div".toList
  | .genPoly => "gen.poly".toList
  | .rsEnc => "rs.enc".toList

/-- The operand fits an 8-bit field of format S (R72, R80: "0..255"). -/
def fits8 (n : Nat) : Bool := decide (n < 256)

/-- A command whose operands all fit, else nothing: the assembler "refuses it and does not truncate it" (R80). -/
def ifFits (i : Instr) : Option Instr := if i.wellFormed then some i else none

/-- The command of a mnemonic with these operands, in the order of R80's syntax column. -/
def commandOf? (op : Opcode) (operands : List Nat) : Option Instr :=
  match op with
  | .nop => match operands with
    | [] => some .nop
    | _ => none
  | .gfMul => match operands with
    | [a, b] => if fits8 a && fits8 b then some (.gfMul (BitVec.ofNat 8 a) (BitVec.ofNat 8 b)) else none
    | _ => none
  | .gfExp => match operands with
    | [i] => ifFits (.gfExp i)
    | _ => none
  | .gfLog => match operands with
    | [x] => if fits8 x then some (.gfLog (BitVec.ofNat 8 x)) else none
    | _ => none
  | .polyMul => match operands with
    | [dst, aAddr, aLen, bAddr, bLen] => ifFits (.polyMul dst aAddr aLen bAddr bLen)
    | _ => none
  | .polyDiv => match operands with
    | [dst, nAddr, nLen, dAddr, dLen] => ifFits (.polyDiv dst nAddr nLen dAddr dLen)
    | _ => none
  | .genPoly => match operands with
    | [dst, deg] => ifFits (.genPoly dst deg)
    | _ => none
  | .rsEnc => match operands with
    | [dst, dataAddr, dataLen, ec] => ifFits (.rsEnc dst dataAddr dataLen ec)
    | _ => none

/-- One line of assembly: a mnemonic, then operands separated by commas (R80). -/
def parseLine (line : List Char) : Option Instr :=
  let text := trimBlanks line
  let name := text.takeWhile fun c => !isBlank c
  let rest := trimBlanks (text.dropWhile fun c => !isBlank c)
  match Opcode.all.find? fun op => mnemonicText op == name with
  | none => none
  | some op =>
    if rest = [] then commandOf? op []
    else
      match numbers? (splitCommas rest) with
      | some operands => commandOf? op operands
      | none => none

/-- The command word a line assembles to (R80). -/
def assembleLine (line : List Char) : Option Word64 := (parseLine line).map encode

end Sys2Proof.Machine
end

