-- ==== Sys2Proof/Safety.lean ====
section
/-! DEFINITION. What counts as a sound state and as the end of a run: the invariant of the machine, and the end of a host
program's run with what is then observed (70_reset_and_hazards.md R191). -/

namespace Sys2Proof.Machine

/-- The invariant of the machine: every clause is a promise of the spec over all steps. -/
structure Inv (s : State) : Prop where
  /-- DMEM keeps its canonical form: addresses strictly rising, each in 0..1023 (20_memory.md R50). -/
  dmemCanonical : Memory.wf s.dmem = true
  /-- The command in flight is still the one in CMD: commands never change CMD, and the host may not write it while it
  waits (10_state.md R30, 60_exceptions.md R161, 70_reset_and_hazards.md R185). -/
  pendingIsCmd : ∀ w, s.pending = some w → w = s.cmd
  /-- No command runs while ERR = 1 (60_exceptions.md R165). -/
  busyNoError : s.busy = true → s.err = false
  /-- A command in flight lies in the host's busy interval (70_reset_and_hazards.md R185). -/
  busyAwaited : s.busy = true → s.awaitingIdle = true
  /-- While ERR = 0, ERRCODE and ERROP read 0 (10_state.md R37). -/
  noErrorNoCode : s.err = false → s.errCode = 0 ∧ s.errOp = 0
  /-- While ERR = 1, ERRCODE is one of the three codes (60_exceptions.md R160). -/
  errorHasCode : s.err = true → ∃ code : ErrorCode, s.errCode = code.byte

/-- The run of the host's program has ended (70_reset_and_hazards.md R191): the host has performed its last statement and
no command is in flight. (That no access was refused is said by there being this state at all.) -/
def State.ended (s : State) : Prop := s.program = [] ∧ s.pending = none

/-- What is observed of an ended run: DMEM, RESULT and STATUS (R191). -/
structure Observation where
  dmem : List Byte
  result : Word32
  status : Word32
  deriving DecidableEq, Repr

/-- The observation of a state (R191). -/
def State.observe (s : State) : Observation where
  dmem := s.memRead 0 Config.dmemSize
  result := s.resultWord
  status := s.status

end Sys2Proof.Machine
end

