-- ==== Sys2Proof/Certificates/Slice0/Obligations.lean ====
section
/-! DEFINITION. The statements about the model, and above them the words they are said in: the loops of the spec's
pseudocode with their indexes, the illegal words by their fields, the causes of each error, what a command reads and
where it stores. -/

open Sys2Proof Sys2Proof.Machine

/-! ## The words of the statements -/

namespace Sys2Proof.Spec

/-- The loops of `poly_mul` as 41_polynomial.md R120 writes them, entry by entry. -/
def mulLoop (a b : List Byte) : List Byte :=
  (List.range a.length).foldl
    (fun out i => (List.range b.length).foldl
      (fun out j => out.modify (i + j) fun x => x ^^^ gfMul (a.getD i 0) (b.getD j 0)) out)
    (List.replicate (a.length + b.length - 1) 0)

/-- The working copy of `poly_div` after the first `rounds` rounds of the outer loop of R122, entry by entry; `c` is
read once, before the inner loop. -/
def divRounds (n d : List Byte) (rounds : Nat) : List Byte :=
  (List.range rounds).foldl
    (fun r i =>
      let c := r.getD i 0
      if c = 0 then r
      else (List.range d.length).foldl (fun r j => r.modify (i + j) fun x => x ^^^ gfMul (d.getD j 0) c) r)
    n

/-- The loops of `poly_div` as R122 writes them: positions 0 to len(n) - len(d) inclusive. -/
def divLoop (n d : List Byte) : List Byte := divRounds n d (n.length - d.length + 1)

/-- "The values `c` taken at each `i`" (R123): the quotient coefficients, highest first. -/
def quotient (n d : List Byte) : List Byte :=
  (List.range (n.length - d.length + 1)).map fun i => (divRounds n d i).getD i 0

/-- α^i by the doublings of 10_state.md R21, with no table and no reduction of the index. -/
def alphaPower (i : Nat) : Byte := BitVec.ofNat 8 (romValue i)

/-- The loop of `gen_poly` as 42_generator.md R140 writes it. -/
def genLoop (k : Nat) : List Byte := (List.range k).foldl (fun g i => mulLoop g [1, alphaPower i]) [1]

/-- The steps of `rs_encode` as 43_rs_encoder.md R150 writes them. -/
def encodeLoop (data : List Byte) (k : Nat) : List Byte :=
  let r := divLoop (data ++ List.replicate k 0) (genLoop k)
  r.drop (r.length - k)

/-- The value of a polynomial, highest degree first (00_scope.md R11), at a field element, by Horner's rule. -/
def evalPoly (p : List Byte) (x : Byte) : Byte := p.foldl (fun acc c => gfMul acc x ^^^ c) 0

/-- The coefficient at index k of the product of two polynomials: the XOR over i + j = k of a[i]·b[j]. -/
def productEntry (a b : List Byte) (k : Nat) : Byte :=
  (List.range (k + 1)).foldl
    (fun acc i => acc ^^^ if i < a.length ∧ k - i < b.length then gfMul (a.getD i 0) (b.getD (k - i) 0) else 0) 0

/-- The illegal command words, by the fields of 30_encoding.md R76's rows: an opcode not in the map, or a listed opcode
with a nonzero unused or reserved bit (R75, R78). -/
def IllegalWord (w : Word64) : Prop :=
  let op := w.extractLsb' 0 8
  op ∉ [0x00#8, 0x01#8, 0x02#8, 0x03#8, 0x10#8, 0x11#8, 0x20#8, 0x30#8] ∨
  (op = 0x00#8 ∧ w.extractLsb' 8 56 ≠ 0) ∨
  (op = 0x01#8 ∧ w.extractLsb' 24 40 ≠ 0) ∨
  (op = 0x02#8 ∧ w.extractLsb' 8 24 ≠ 0) ∨
  (op = 0x03#8 ∧ w.extractLsb' 16 48 ≠ 0) ∨
  ((op = 0x10#8 ∨ op = 0x11#8) ∧ w.extractLsb' 58 6 ≠ 0) ∨
  (op = 0x20#8 ∧ (w.extractLsb' 8 30 ≠ 0 ∨ w.extractLsb' 58 6 ≠ 0)) ∨
  (op = 0x30#8 ∧ (w.extractLsb' 28 10 ≠ 0 ∨ w.extractLsb' 58 6 ≠ 0))

/-- The operands of a command as numbers, in the order of the syntax column of 30_encoding.md R80. -/
def operandValues : Instr → List Nat
  | .nop => []
  | .gfMul a b => [a.toNat, b.toNat]
  | .gfExp index => [index]
  | .gfLog x => [x.toNat]
  | .polyMul dst aAddr aLen bAddr bLen => [dst, aAddr, aLen, bAddr, bLen]
  | .polyDiv dst nAddr nLen dAddr dLen => [dst, nAddr, nLen, dAddr, dLen]
  | .genPoly dst deg => [dst, deg]
  | .rsEnc dst dataAddr dataLen ec => [dst, dataAddr, dataLen, ec]

/-- The first number that does not fit, for each operand of R80's table: fields of 8, 32 and 10 bits. -/
def operandBounds : Opcode → List Nat
  | .nop => []
  | .gfMul => [2 ^ 8, 2 ^ 8]
  | .gfExp => [2 ^ 32]
  | .gfLog => [2 ^ 8]
  | .polyMul => [2 ^ 10, 2 ^ 10, 2 ^ 10, 2 ^ 10, 2 ^ 10]
  | .polyDiv => [2 ^ 10, 2 ^ 10, 2 ^ 10, 2 ^ 10, 2 ^ 10]
  | .genPoly => [2 ^ 10, 2 ^ 10]
  | .rsEnc => [2 ^ 10, 2 ^ 10, 2 ^ 10, 2 ^ 10]

/-- An operand as it stands in a line of assembly: its text, what surrounds it up to the commas, and its number. -/
structure OperandText where
  before : List Char
  text : List Char
  after : List Char
  value : Nat

/-- The operand is blanks, a numeral of that number, and blanks (R80; the blanks are log entry 19). -/
def OperandText.Written (o : OperandText) : Prop :=
  (∀ c ∈ o.before, isBlank c = true) ∧ number? o.text = some o.value ∧ ∀ c ∈ o.after, isBlank c = true

/-- A line of assembly (R80): a mnemonic, then operands separated by commas. -/
def lineText (indent : List Char) (op : Opcode) (gap : List Char) (operands : List OperandText) : List Char :=
  indent ++ mnemonicText op ++ gap ++ [','].intercalate (operands.map fun o => o.before ++ o.text ++ o.after)

/-- The line is a mnemonic with these operands and nothing else. -/
def LineOf (line : List Char) (op : Opcode) (values : List Nat) : Prop :=
  ∃ (indent gap : List Char) (operands : List OperandText),
    line = lineText indent op gap operands ∧ operands.map OperandText.value = values ∧
    (∀ c ∈ indent, isBlank c = true) ∧ (∀ c ∈ gap, isBlank c = true) ∧ (operands ≠ [] → gap ≠ []) ∧
    ∀ o ∈ operands, o.Written

/-- The causes of INVALID_ARGUMENT (60_exceptions.md R160). -/
def InvalidArgument : Instr → Prop
  | .nop => False
  | .gfMul _ _ => False
  | .gfExp _ => False
  | .gfLog x => x = 0
  | .polyMul _ _ aLen _ bLen => aLen = 0 ∨ bLen = 0
  | .polyDiv _ _ nLen _ dLen => dLen = 0 ∨ nLen < dLen
  | .genPoly _ _ => False
  | .rsEnc _ _ dataLen ec => ec = 0 ∨ dataLen = 0

/-- The causes of ADDR_RANGE (60_exceptions.md R160, 20_memory.md R52): some range has base + length > 1024. -/
def RangeOutOfBounds : Instr → Prop
  | .nop => False
  | .gfMul _ _ => False
  | .gfExp _ => False
  | .gfLog _ => False
  | .polyMul dst aAddr aLen bAddr bLen =>
    aAddr + aLen > 1024 ∨ bAddr + bLen > 1024 ∨ dst + (aLen + bLen - 1) > 1024
  | .polyDiv dst nAddr nLen dAddr dLen => nAddr + nLen > 1024 ∨ dAddr + dLen > 1024 ∨ dst + nLen > 1024
  | .genPoly dst deg => dst + deg + 1 > 1024
  | .rsEnc dst dataAddr dataLen ec => dataAddr + dataLen > 1024 ∨ dst + ec > 1024

/-- The source ranges a command reads, (base, length) each. -/
def sources : Instr → List (Nat × Nat)
  | .nop => []
  | .gfMul _ _ => []
  | .gfExp _ => []
  | .gfLog _ => []
  | .polyMul _ aAddr aLen bAddr bLen => [(aAddr, aLen), (bAddr, bLen)]
  | .polyDiv _ nAddr nLen dAddr dLen => [(nAddr, nLen), (dAddr, dLen)]
  | .genPoly _ _ => []
  | .rsEnc _ dataAddr dataLen _ => [(dataAddr, dataLen)]

/-- The destination range a command stores to, (base, length). -/
def destination : Instr → Option (Nat × Nat)
  | .nop => none
  | .gfMul _ _ => none
  | .gfExp _ => none
  | .gfLog _ => none
  | .polyMul dst _ aLen _ bLen => some (dst, aLen + bLen - 1)
  | .polyDiv dst _ nLen _ _ => some (dst, nLen)
  | .genPoly dst deg => some (dst, deg + 1)
  | .rsEnc dst _ _ ec => some (dst, ec)

/-- The state in which only DMEM differs. -/
def withDmem (s : State) (m : Memory) : State := { s with dmem := m }

/-- With DMEM `m` in place of its own, the state reads `bytes` from `base` on and every other byte as before. -/
def StoresExactly (s : State) (m : Memory) (base : Nat) (bytes : List Byte) : Prop :=
  ∀ a, (withDmem s m).readByte a =
    if base ≤ a ∧ a < base + bytes.length then bytes.getD (a - base) 0 else s.readByte a

/-- The state with an error recorded, and nothing else changed but that no command is pending (60_exceptions.md R163). -/
def withError (s : State) (code op : Byte) : State :=
  { s with err := true, errCode := code, errOp := op, pending := none }

end Sys2Proof.Spec

open Sys2Proof.Spec

/-! ## Encoding -/

/-- The example words of the spec decode to the commands they stand for (40_gf_scalar.md R105 to R108, 41_polynomial.md
R127, R128, 42_generator.md R143, 43_rs_encoder.md R153). -/
def Obligations.SpecExampleWordsDecode : Prop :=
  decode 0x0000000000000000 = .ok .nop ∧
  decode 0x0000000000800201 = .ok (.gfMul 0x02 0x80) ∧
  decode 0x0000012C00000002 = .ok (.gfExp 300) ∧
  decode 0x0000000000001D03 = .ok (.gfLog 0x1D) ∧
  decode 0x0004008020080010 = .ok (.polyMul 4 0 2 2 2) ∧
  decode 0x00000080300C0011 = .ok (.polyDiv 0 0 3 3 2) ∧
  decode 0x0200028000000020 = .ok (.genPoly 0x200 10) ∧
  decode 0x0010028000400030 = .ok (.rsEnc 16 0 16 10)

/-- Decoding the word of a well-formed command gives the command back, with every operand. -/
def Obligations.DecodeInvertsEncode : Prop :=
  ∀ i : Instr, i.wellFormed = true → decode (encode i) = .ok i

/-- Each legal word has one meaning: a word that decodes is the word of the command it decodes to, and that command is
well-formed. So no bit of a legal word is ignored. -/
def Obligations.EncodeInvertsDecode : Prop :=
  ∀ (w : Word64) (i : Instr), decode w = .ok i → i.wellFormed = true ∧ encode i = w

/-- Decoding refuses exactly the illegal words, said by their fields, not by the masks. -/
def Obligations.DecodeRefusesExactlyIllegalWords : Prop :=
  ∀ w : Word64, (∃ e, decode w = .error e) ↔ IllegalWord w

/-- An illegal command word in flight ends in ILLEGAL_COMMAND: no byte of DMEM and no bit of RESULT changes; every other
word is a command of the map, so there is no hint and no legal reserved encoding (30_encoding.md R78). -/
def Obligations.IllegalWordRecordsIllegalCommand : Prop :=
  ∀ (s : State) (w : Word64), s.pending = some w →
    (IllegalWord w → coreStep s = .next (withError s 0x03 (w.extractLsb' 0 8))) ∧
    (¬ IllegalWord w → ∃ i : Instr, decode w = .ok i ∧ coreStep s = exec i s)

/-- The assembler (30_encoding.md R80): it reads decimal and `0x` numerals as their numbers; a mnemonic takes exactly the
numbers that fit its fields and gives the command that has them, and one number too large, too few or too many give
nothing; a line gives a command exactly when it is that command's mnemonic with its operands' numbers; and the word is
the command's, and decodes to it. So no operand is truncated. The blanks a line may have are log entry 19. -/
def Obligations.AssembledLineIsALegalWord : Prop :=
  (∀ ds : List Nat, ds ≠ [] → (∀ d ∈ ds, d < 10) →
    number? (ds.map Nat.digitChar) = some (ds.foldl (fun v d => 10 * v + d) 0)) ∧
  (∀ ds : List Nat, ds ≠ [] → (∀ d ∈ ds, d < 16) →
    number? ('0' :: 'x' :: ds.map Nat.digitChar) = some (ds.foldl (fun v d => 16 * v + d) 0)) ∧
  (∀ (op : Opcode) (values : List Nat), List.Forall₂ (· < ·) values (operandBounds op) →
    ∃ i : Instr, commandOf? op values = some i ∧ i.opcode = op ∧ operandValues i = values) ∧
  (∀ (op : Opcode) (values : List Nat), ¬ List.Forall₂ (· < ·) values (operandBounds op) →
    commandOf? op values = none) ∧
  (∀ (line : List Char) (i : Instr),
    parseLine line = some i ↔ i.wellFormed = true ∧ LineOf line i.opcode (operandValues i)) ∧
  (∀ (line : List Char) (w : Word64), assembleLine line = some w ↔ ∃ i, parseLine line = some i ∧ w = encode i) ∧
  (∀ (line : List Char) (i : Instr), parseLine line = some i → decode (encode i) = .ok i)

/-! ## Steps -/

/-- A step is the step of the agent whose turn it is (70_reset_and_hazards.md R190), in the state with the turn taken off
the schedule. The core's: `exec` of the command that the word in flight decodes to. The host's: the next access of its
program, taken off the program, so that the step is refused or faults where that access is (R191); for `wait`
(30_encoding.md R81) the STATUS read, the program moving on only if BUSY = 0 (log entry 5 names the variable). -/
def Obligations.StepRunsDecodedCommand : Prop :=
  (∀ (s : State) (w : Word64) (i : Instr), nextTurn s = .core → s.pending = some w → decode w = .ok i →
    step s = exec i { s with schedule := s.schedule.tail }) ∧
  (∀ (s : State) (a : HostAccess) (rest : List HostOp), nextTurn s = .host → s.program = .access a :: rest →
    step s = hostAccess a { s with schedule := s.schedule.tail, program := rest } ∧
    (∀ r, hostAccess a s = .refused r → step s = .refused r) ∧
    (∀ f, hostAccess a s = .fault f → step s = .fault f)) ∧
  (∀ (s : State) (rest : List HostOp), nextTurn s = .host → s.program = .wait :: rest →
    (s.pending ≠ none → step s = hostAccess (.read 32 0x00C pollVar) { s with schedule := s.schedule.tail }) ∧
    (s.pending = none → step s =
      hostAccess (.read 32 0x00C pollVar) { s with schedule := s.schedule.tail, program := rest }))

/-- The pseudo-instruction `exec` (30_encoding.md R81) with any number of polls that find BUSY = 1 before the core's turn:
the host writes CMD and GO, polls, and ends with the effect of the command and a last STATUS read; the number of polls
leaves no trace. Rests on log entry 4 for the schedule, which is fixed up to that number, and on log entry 5 for the host
variable the polls read into. -/
def Obligations.ExecStatementRunsCommandAfterAnyPolls : Prop :=
  ∀ (s : State) (w : Word64) (rest : List HostOp) (polls : Nat) (later : List Turn),
    s.pending = none → s.awaitingIdle = false → s.err = false →
    s.program = HostStmt.expand (.exec w) ++ rest →
    s.schedule = List.replicate (3 + polls) .host ++ .core :: .host :: later →
    ∃ u : State,
      execute w { s with cmdLo := w.extractLsb' 0 32, cmdHi := w.extractLsb' 32 32, pending := some w,
                         awaitingIdle := true, program := .wait :: rest, schedule := later } = .next u ∧
      Sys2Proof.core.run (polls + 5) s =
        .next { u with program := rest, awaitingIdle := false,
                       hostVars := (pollVar, u.status) :: s.hostVars.filter fun p => !(p.1 == pollVar) }

/-- "A host that follows rule R185 sees the same results under every schedule" (70_reset_and_hazards.md R190): two runs of
one program without a reset, from states that differ at most in the schedule, that both end (R191) have the same
observation, the same state of the core, and the same value of every host variable that no STATUS read assigns. The
premise Inv rules out a command in flight outside the busy interval, which no run reaches. -/
def Obligations.ResultsAgreeUnderEverySchedule : Prop :=
  ∀ (s s' t t' : State) (n n' : Nat), Inv s → s' = { s with schedule := s'.schedule } →
    Sys2Proof.core.run n s = .next t → Sys2Proof.core.run n' s' = .next t' →
    t.resets = s.resets → t'.resets = s.resets → t.ended → t'.ended →
    t.observe = t'.observe ∧
    t' = { t with schedule := t'.schedule, hostVars := t'.hostVars, awaitingIdle := t'.awaitingIdle } ∧
    ∀ x : HostVar, x ≠ pollVar → (∀ width, HostOp.access (.read width 0x00C x) ∉ s.program) → t.var? x = t'.var? x

/-- An idle core and a host that has finished stand still (60_exceptions.md R174, 70_reset_and_hazards.md R191). -/
def Obligations.EndedMachineStandsStill : Prop :=
  ∀ s : State, s.ended → nextTurn s ≠ .reset → step s = .next { s with schedule := s.schedule.tail }

/-! ## Scalar commands -/

/-- NOP completes and changes nothing (40_gf_scalar.md R105). -/
def Obligations.NopChangesNothing : Prop :=
  ∀ s : State, exec .nop s = .next { s with pending := none }

/-- GF_MUL writes to RESULT the carry-less product reduced by 0x11d, computed with no table (40_gf_scalar.md R103), and
changes nothing else. -/
def Obligations.GfMulIsProductModulo11d : Prop :=
  ∀ (s : State) (a b : Byte),
    gfMul a b = clmulMod a b ∧ exec (.gfMul a b) s = .next { s with result := clmulMod a b, pending := none }

/-- GF_EXP writes to RESULT the power of α that as many doublings give, for an index of any size, and changes nothing
else (10_state.md R21, 40_gf_scalar.md R101, R107). -/
def Obligations.GfExpIsRepeatedDoubling : Prop :=
  ∀ (s : State) (i : Nat), exec (.gfExp i) s = .next { s with result := alphaPower i, pending := none }

/-- GF_LOG and GF_EXP invert each other, and change nothing but RESULT (10_state.md R25). -/
def Obligations.GfLogAndGfExpInvertEachOther : Prop :=
  (∀ (s : State) (x : Byte), x ≠ 0 → ∃ l : Byte, l.toNat ≤ 254 ∧
    exec (.gfLog x) s = .next { s with result := l, pending := none } ∧
    exec (.gfExp l.toNat) s = .next { s with result := x, pending := none }) ∧
  (∀ (s : State) (i : Nat), i ≤ 254 → ∃ x : Byte, x ≠ 0 ∧
    exec (.gfExp i) s = .next { s with result := x, pending := none } ∧
    exec (.gfLog x) s = .next { s with result := BitVec.ofNat 8 i, pending := none }) ∧
  (∀ i : Nat, i < 256 → expRom i ≠ 0)

/-- GF_LOG of 0 records INVALID_ARGUMENT with ERROP 0x03, and changes nothing else (40_gf_scalar.md R108). -/
def Obligations.GfLogOfZeroIsInvalidArgument : Prop :=
  ∀ s : State, exec (.gfLog 0) s = .next (withError s 0x01 0x03)

/-- The field laws of 40_gf_scalar.md R104. -/
def Obligations.GfMulIsFieldMultiplication : Prop :=
  (∀ a : Byte, a ≠ 0 → ∀ b : Byte, gfMul a b = 1 ↔ b = expRom ((255 - (logRom a).toNat) % 255)) ∧
  (∀ a : Byte, a ≠ 0 → gfExp (gfLog a).toNat = a) ∧
  (∀ i : Nat, i ≤ 254 → (gfLog (gfExp i)).toNat = i) ∧
  (∀ a b : Byte, gfMul a b = gfMul b a) ∧
  (∀ a : Byte, gfMul a 0 = 0) ∧
  (∀ a : Byte, gfMul 1 a = a) ∧
  (∀ a b c : Byte, gfMul (gfMul a b) c = gfMul a (gfMul b c)) ∧
  (∀ a b c : Byte, gfMul a (b ^^^ c) = gfMul a b ^^^ gfMul a c)

/-- The ROMs hold what the algorithm of 10_state.md R21 produces: round i records `value` in EXP[i] and i in
LOG[value], and EXP[255] = EXP[0]. -/
def Obligations.RomsHoldTheDoublingTable : Prop :=
  (∀ i : Nat, i ≤ 254 → romValue i < 256 ∧ (expRom i).toNat = romValue i ∧
    (logRom (BitVec.ofNat 8 (romValue i))).toNat = i) ∧
  expRom 255 = expRom 0

/-! ## Polynomial commands -/

/-- `poly_mul` is what the loops of 41_polynomial.md R120 give, and POLY_MUL, operands legal, stores it: the destination
holds the result on the source bytes as they stood before, every other byte and everything else is unchanged (R127,
20_memory.md R61). -/
def Obligations.PolyMulStoresAccumulationLoop : Prop :=
  (∀ a b : List Byte, a ≠ [] → b ≠ [] →
    polyMul a b = mulLoop a b ∧ (mulLoop a b).length = a.length + b.length - 1) ∧
  ∀ (s : State) (dst aAddr aLen bAddr bLen : Nat), aLen ≠ 0 → bLen ≠ 0 →
    aAddr + aLen ≤ 1024 → bAddr + bLen ≤ 1024 → dst + (aLen + bLen - 1) ≤ 1024 →
    ∃ m : Memory,
      exec (.polyMul dst aAddr aLen bAddr bLen) s = .next { s with dmem := m, pending := none } ∧
      (mulLoop (s.memRead aAddr aLen) (s.memRead bAddr bLen)).length = aLen + bLen - 1 ∧
      StoresExactly s m dst (mulLoop (s.memRead aAddr aLen) (s.memRead bAddr bLen))

/-- `poly_mul` is the true product of polynomials, coefficient by coefficient and in value, and its other properties
(41_polynomial.md R121). -/
def Obligations.PolyMulIsTheTrueProduct : Prop :=
  ∀ a b : List Byte, a ≠ [] → b ≠ [] →
    (polyMul a b).length = a.length + b.length - 1 ∧
    (∀ k, k < a.length + b.length - 1 → (polyMul a b).getD k 0 = productEntry a b k) ∧
    (∀ x : Byte, evalPoly (polyMul a b) x = gfMul (evalPoly a x) (evalPoly b x)) ∧
    polyMul a b = polyMul b a ∧
    polyMul [1] b = b ∧
    (polyMul a b).getD 0 0 = gfMul (a.getD 0 0) (b.getD 0 0) ∧
    (a.getD 0 0 = 1 → b.getD 0 0 = 1 → (polyMul a b).getD 0 0 = 1) ∧
    (∀ c : Byte, polyMul [c] b = b.map (gfMul c))

/-- `poly_div` is what the loops of 41_polynomial.md R122 leave, for a divisor that is monic or not, and POLY_DIV, operands
legal, stores the whole working array; every other byte and everything else is unchanged (R128). -/
def Obligations.PolyDivStoresSweep : Prop :=
  (∀ n d : List Byte, 1 ≤ d.length → d.length ≤ n.length →
    polyDiv n d = divLoop n d ∧ (divLoop n d).length = n.length) ∧
  ∀ (s : State) (dst nAddr nLen dAddr dLen : Nat), 1 ≤ dLen → dLen ≤ nLen →
    nAddr + nLen ≤ 1024 → dAddr + dLen ≤ 1024 → dst + nLen ≤ 1024 →
    ∃ m : Memory,
      exec (.polyDiv dst nAddr nLen dAddr dLen) s = .next { s with dmem := m, pending := none } ∧
      (divLoop (s.memRead nAddr nLen) (s.memRead dAddr dLen)).length = nLen ∧
      StoresExactly s m dst (divLoop (s.memRead nAddr nLen) (s.memRead dAddr dLen))

/-- Division by a monic divisor: the leading entries are 0, the trailing len(d) - 1 entries are the remainder, and the
values `c` of the sweep are the quotient (41_polynomial.md R123). -/
def Obligations.PolyDivByMonicLeavesRemainder : Prop :=
  ∀ n d : List Byte, d.getD 0 0 = 1 → d.length ≤ n.length →
    polyDiv n d = List.replicate (n.length - d.length + 1) 0 ++ lastEntries (polyDiv n d) (d.length - 1) ∧
    n = List.zipWith (fun x y => x ^^^ y) (polyMul (quotient n d) d) (polyDiv n d)

/-- The corner cases of `poly_div` (41_polynomial.md R126): the divisor [1]; equal lengths, one round; a zero dividend; a
leading entry 0, whose round changes nothing. -/
def Obligations.PolyDivCornerCases : Prop :=
  (∀ n : List Byte, n ≠ [] → polyDiv n [1] = List.replicate n.length 0 ∧ lastEntries (polyDiv n [1]) 0 = []) ∧
  (∀ n d : List Byte, d ≠ [] → n.length = d.length → polyDiv n d = divRounds n d 1) ∧
  (∀ (len : Nat) (d : List Byte), d ≠ [] → d.length ≤ len → polyDiv (List.replicate len 0) d = List.replicate len 0) ∧
  (∀ (n d : List Byte) (i : Nat), (divRounds n d i).getD i 0 = 0 → divRounds n d (i + 1) = divRounds n d i) ∧
  (∀ x : Byte, gfMul x 0 = 0)

/-- A command in flight ends with exactly one error, in the order of 60_exceptions.md R162, and what it records is all it
changes (R161, R163); with no error it completes and the error fields stay. -/
def Obligations.ExactlyOneErrorInPriorityOrder : Prop :=
  ∀ (s : State) (w : Word64), s.pending = some w →
    (IllegalWord w → coreStep s = .next (withError s 0x03 (w.extractLsb' 0 8))) ∧
    (¬ IllegalWord w → ∃ i : Instr, decode w = .ok i ∧
      (InvalidArgument i → coreStep s = .next (withError s 0x01 (w.extractLsb' 0 8))) ∧
      (¬ InvalidArgument i → RangeOutOfBounds i → coreStep s = .next (withError s 0x02 (w.extractLsb' 0 8))) ∧
      (¬ InvalidArgument i → ¬ RangeOutOfBounds i → ∃ t : State, coreStep s = .next t ∧ t.pending = none ∧
        t.err = s.err ∧ t.errCode = s.errCode ∧ t.errOp = s.errOp))

/-- `gen_poly` is what the loop of 42_generator.md R140 gives, and GEN_POLY, destination in bounds, stores its deg + 1
bytes; every other byte and everything else is unchanged (R143). -/
def Obligations.GenPolyStoresGenerator : Prop :=
  (∀ k : Nat, genPoly k = genLoop k ∧ (genLoop k).length = k + 1) ∧
  ∀ (s : State) (dst deg : Nat), dst + deg + 1 ≤ 1024 →
    ∃ m : Memory,
      exec (.genPoly dst deg) s = .next { s with dmem := m, pending := none } ∧
      (genLoop deg).length = deg + 1 ∧ StoresExactly s m dst (genLoop deg)

/-- The properties of `gen_poly` (42_generator.md R141). -/
def Obligations.GenPolyIsMonicWithAlphaPowersAsRoots : Prop :=
  ∀ k : Nat,
    (genPoly k).length = k + 1 ∧ (genPoly k).getD 0 0 = 1 ∧
    (∀ (i : Nat) (x : Byte), evalPoly [1, gfExp i] x = x ^^^ gfExp i) ∧
    (∀ x : Byte, evalPoly (genPoly k) x = (List.range k).foldl (fun acc i => gfMul acc (x ^^^ gfExp i)) 1) ∧
    (k ≤ 255 → ∀ x : Byte, evalPoly (genPoly k) x = 0 ↔ ∃ i, i < k ∧ x = gfExp i) ∧
    (genPoly k).getD k 0 = gfExp (k * (k - 1) / 2) ∧
    genPoly 0 = [1] ∧ genPoly 1 = [1, 1] ∧ genPoly 2 = [1, 3, 2] ∧ genPoly 3 = [1, 7, 14, 8]

/-- Degrees of 255 and above (42_generator.md R142): the factors repeat with period 255, `gen_poly(255)` is x^255 + 1 and
vanishes at every nonzero element, `gen_poly(256)` is x^256 + x^255 + x + 1, and GEN_POLY computes such degrees by R140
like any other. -/
def Obligations.GenPolyDegreesOf255AndAbove : Prop :=
  (∀ k : Nat, genPoly (k + 1) = polyMul (genPoly k) [1, gfExp (k % 255)]) ∧
  genPoly 255 = 1 :: List.replicate 254 0 ++ [1] ∧
  (∀ x : Byte, evalPoly (genPoly 255) x = (List.range 255).foldl (fun acc i => gfMul acc (x ^^^ expRom i)) 1) ∧
  (∀ x : Byte, x ≠ 0 → ∃ i, i < 255 ∧ expRom i = x) ∧
  genPoly 256 = 1 :: 1 :: List.replicate 253 0 ++ [1, 1] ∧
  (∀ (s : State) (dst deg : Nat), 255 ≤ deg → dst + deg + 1 ≤ 1024 →
    ∃ t : State, exec (.genPoly dst deg) s = .next t ∧ t.memRead dst (deg + 1) = genLoop deg)

/-- `rs_encode` is what the steps of 43_rs_encoder.md R150 give, exactly k bytes, and RS_ENC, operands legal, stores them,
computed on the data as it stood before; every other byte and everything else is unchanged (R153). -/
def Obligations.RsEncStoresRemainder : Prop :=
  (∀ (data : List Byte) (k : Nat), data ≠ [] → 1 ≤ k →
    rsEncode data k = encodeLoop data k ∧ (encodeLoop data k).length = k) ∧
  ∀ (s : State) (dst dataAddr dataLen ec : Nat), ec ≠ 0 → dataLen ≠ 0 →
    dataAddr + dataLen ≤ 1024 → dst + ec ≤ 1024 →
    ∃ m : Memory,
      exec (.rsEnc dst dataAddr dataLen ec) s = .next { s with dmem := m, pending := none } ∧
      (encodeLoop (s.memRead dataAddr dataLen) ec).length = ec ∧
      StoresExactly s m dst (encodeLoop (s.memRead dataAddr dataLen) ec)

/-- The properties of `rs_encode` (43_rs_encoder.md R152): exactly k bytes; two commands on the same data store the same
bytes; the codeword is divisible; linearity; zero data; a leading zero; the boundary case. -/
def Obligations.RsEncodeIsLinearAndDivisible : Prop :=
  (∀ (data : List Byte) (k : Nat), data ≠ [] → 1 ≤ k →
    (rsEncode data k).length = k ∧
    polyDiv (data ++ rsEncode data k) (genPoly k) = List.replicate (data.length + k) 0 ∧
    (∀ other : List Byte, other.length = data.length →
      rsEncode (List.zipWith (fun x y => x ^^^ y) data other) k =
        List.zipWith (fun x y => x ^^^ y) (rsEncode data k) (rsEncode other k)) ∧
    rsEncode (List.replicate data.length 0) k = List.replicate k 0 ∧
    rsEncode (0 :: data) k = rsEncode data k) ∧
  (∀ d : Byte, rsEncode [d] 1 = [d]) ∧
  (∀ (s s' t t' : State) (dst dst' a a' len ec : Nat), 1 ≤ ec → 1 ≤ len → a + len ≤ 1024 → a' + len ≤ 1024 →
    dst + ec ≤ 1024 → dst' + ec ≤ 1024 → s.memRead a len = s'.memRead a' len →
    exec (.rsEnc dst a len ec) s = .next t → exec (.rsEnc dst' a' len ec) s' = .next t' →
    t.memRead dst ec = t'.memRead dst' ec)

/-- RS_ENC with its destination right behind the data leaves a codeword in DMEM: the data is unchanged and the whole
range is a polynomial with the roots α^0, ..., α^(ec-1). -/
def Obligations.RsEncLeavesCodewordWithGeneratorRoots : Prop :=
  ∀ (s : State) (dataAddr dataLen ec : Nat), 1 ≤ ec → 1 ≤ dataLen → dataAddr + dataLen + ec ≤ 1024 →
    ∃ t : State, exec (.rsEnc (dataAddr + dataLen) dataAddr dataLen ec) s = .next t ∧
      t.memRead dataAddr dataLen = s.memRead dataAddr dataLen ∧
      ∀ j, j < ec → evalPoly (t.memRead dataAddr (dataLen + ec)) (alphaPower j) = 0

/-- The golden vector of the source (95_test_vectors.md L1-1), from any state that holds the data. -/
def Obligations.GoldenVectorEncodes : Prop :=
  ∀ s : State, s.memRead 0 16 = [32, 91, 11, 120, 209, 114, 220, 77, 67, 64, 236, 17, 236, 17, 236, 17] →
    ∃ t : State, exec (.rsEnc 16 0 16 10) s = .next t ∧
      t.memRead 16 10 = [196, 35, 39, 119, 235, 215, 231, 226, 93, 23]

/-- What a command computes depends on its operands and its source bytes alone: two states that agree on them get the
same record of error or the same RESULT or the same stored bytes, whatever else they hold (20_memory.md R61,
10_state.md R39). -/
def Obligations.CommandResultDependsOnlyOnItsSources : Prop :=
  ∀ (i : Instr) (s s' t t' : State), (∀ r ∈ sources i, s.memRead r.1 r.2 = s'.memRead r.1 r.2) →
    exec i s = .next t → exec i s' = .next t' →
    ((t.err = s.err ∧ t.errCode = s.errCode ∧ t.errOp = s.errOp ∧
        t'.err = s'.err ∧ t'.errCode = s'.errCode ∧ t'.errOp = s'.errOp) ∨
      (t.err = t'.err ∧ t.errCode = t'.errCode ∧ t.errOp = t'.errOp)) ∧
    ((t.result = s.result ∧ t'.result = s'.result) ∨ t.result = t'.result) ∧
    ∃ (base : Nat) (bytes : List Byte), (bytes = [] ∨ destination i = some (base, bytes.length)) ∧
      StoresExactly s t.dmem base bytes ∧ StoresExactly s' t'.dmem base bytes

/-! ## The host port -/

/-- A DMEM byte written through the window reads back as the last value written, and every other byte as before
(20_memory.md R62), in 8-bit accesses whose bits [31:8] do not count (R56). -/
def Obligations.DmemReadsBackLastWrite : Prop :=
  ∀ (s : State) (o o' : Nat) (v : Word32) (x : HostVar), s.awaitingIdle = false →
    0x400 ≤ o → o < 0x800 → 0x400 ≤ o' → o' < 0x800 →
    ∃ t u : State, hostAccess (.write 8 o v) s = .next t ∧ hostAccess (.read 8 o' x) t = .next u ∧
      u.var? x = some (((if o' = o then v.extractLsb' 0 8 else s.readByte (o' - 0x400)) : Byte).setWidth 32)

/-- Byte order is little-endian and fixed (20_memory.md R56): 32-bit and 8-bit accesses to DMEM, and the two halves of
CMD; no other width has a step. -/
def Obligations.HostBusIsLittleEndian : Prop :=
  ∀ (s : State) (o : Nat) (v : Word32) (x : HostVar), s.awaitingIdle = false → 0x400 ≤ o → o < 0x800 →
    (o % 4 = 0 →
      (∃ m : Memory, hostAccess (.write 32 o v) s = .next { s with dmem := m } ∧
        StoresExactly s m (o - 0x400)
          [v.extractLsb' 0 8, v.extractLsb' 8 8, v.extractLsb' 16 8, v.extractLsb' 24 8]) ∧
      (∃ (t : State) (r : Word32), hostAccess (.read 32 o x) s = .next t ∧ t.var? x = some r ∧
        r.extractLsb' 0 8 = s.readByte (o - 0x400) ∧ r.extractLsb' 8 8 = s.readByte (o - 0x400 + 1) ∧
        r.extractLsb' 16 8 = s.readByte (o - 0x400 + 2) ∧ r.extractLsb' 24 8 = s.readByte (o - 0x400 + 3))) ∧
    (∃ m : Memory, hostAccess (.write 8 o v) s = .next { s with dmem := m } ∧
      StoresExactly s m (o - 0x400) [v.extractLsb' 0 8]) ∧
    (∃ (t : State) (r : Word32), hostAccess (.read 8 o x) s = .next t ∧ t.var? x = some r ∧
      r.extractLsb' 0 8 = s.readByte (o - 0x400) ∧ r.extractLsb' 8 24 = 0) ∧
    s.cmd.extractLsb' 0 32 = s.cmdLo ∧ s.cmd.extractLsb' 32 32 = s.cmdHi ∧
    (∀ (a : HostAccess) (t : State), a.width ≠ 8 → a.width ≠ 32 → hostAccess a s ≠ .next t)

/-- Outside the busy interval, the accesses of 20_memory.md R55 have a step; every other access of the window is refused,
and no other access has a step (R57). That the refusal has this name also inside the busy interval is the model's choice,
log entry 16. -/
def Obligations.HostAccessAdmittedOrRefused : Prop :=
  ∀ (s : State) (a : HostAccess),
    (s.awaitingIdle = false → a.offset < 0x800 →
      ((a.width = 32 ∧ a.offset % 4 = 0) ∨ (a.width = 8 ∧ 0x400 ≤ a.offset)) → ∃ t, hostAccess a s = .next t) ∧
    (a.offset < 0x800 → ¬ ((a.width = 32 ∧ a.offset % 4 = 0) ∨ (a.width = 8 ∧ 0x400 ≤ a.offset)) →
      hostAccess a s = .refused (.hostAccessNotAdmitted a.width a.offset)) ∧
    (0x800 ≤ a.offset → ∀ t, hostAccess a s ≠ .next t)

/-- An offset outside the 2 KiB window does not exist: the access faults, whatever its width and whatever the state. The
model's reading of 20_memory.md R51 (log entry 15). -/
def Obligations.OffsetOutsideWindowFaults : Prop :=
  ∀ (s : State) (a : HostAccess), 0x800 ≤ a.offset → hostAccess a s = .fault (.hostOffsetOutsideWindow a.offset)

/-- The busy interval (70_reset_and_hazards.md R185): a CTRL write that starts a command opens it; inside it only an
aligned 32-bit STATUS read has a step; such a read ends it where it shows BUSY = 0, and leaves it as it was where it shows
BUSY = 1; nothing else ends it, so neither the completion nor a reset does (the model's reading, log entries 6 and 7). -/
def Obligations.BusyIntervalAllowsOnlyStatusReads : Prop :=
  (∀ (s t : State) (v : Word32), s.awaitingIdle = false → hostAccess (.write 32 0x008 v) s = .next t →
    (t.awaitingIdle = true ↔ v.getLsbD 0 = true ∧ (s.err = false ∨ v.getLsbD 1 = true))) ∧
  (∀ (s : State) (x : HostVar), ∃ t : State, hostAccess (.read 32 0x00C x) s = .next t ∧
    (s.busy = false → t.awaitingIdle = false) ∧ (s.busy = true → t.awaitingIdle = s.awaitingIdle)) ∧
  (∀ (s t : State) (a : HostAccess), s.awaitingIdle = true → hostAccess a s = .next t →
    ∃ x, a = .read 32 0x00C x) ∧
  (∀ s t : State, step s = .next t → s.awaitingIdle = true → t.awaitingIdle = false →
    nextTurn s = .host ∧ s.busy = false ∧
      ∃ rest, s.program = .wait :: rest ∨ ∃ x, s.program = .access (.read 32 0x00C x) :: rest)

/-- Reserved offsets read 0 and ignore writes, writes to STATUS and RESULT are ignored, CTRL reads 0 (20_memory.md
R58). -/
def Obligations.ReservedAndReadOnlyOffsets : Prop :=
  ∀ (s : State) (o : Nat) (v : Word32) (x : HostVar), s.awaitingIdle = false → 0x014 ≤ o → o < 0x400 → o % 4 = 0 →
    (∃ t : State, hostAccess (.read 32 o x) s = .next t ∧ t.var? x = some 0) ∧
    hostAccess (.write 32 o v) s = .next s ∧
    hostAccess (.write 32 0x00C v) s = .next s ∧ hostAccess (.write 32 0x010 v) s = .next s ∧
    ∃ t : State, hostAccess (.read 32 0x008 x) s = .next t ∧ t.var? x = some 0

/-- No read has a side effect on the core, so that the same read again returns the same; writes to CMD_LO, CMD_HI and
DMEM only store their value (20_memory.md R59). -/
def Obligations.ReadsHaveNoSideEffect : Prop :=
  (∀ (s t : State) (width o : Nat) (x : HostVar), hostAccess (.read width o x) s = .next t →
    t = { s with hostVars := t.hostVars, awaitingIdle := t.awaitingIdle } ∧
    ∀ y : HostVar, ∃ u : State, hostAccess (.read width o y) t = .next u ∧ u.var? y = t.var? x) ∧
  (∀ (s : State) (v : Word32), s.awaitingIdle = false →
    hostAccess (.write 32 0x000 v) s = .next { s with cmdLo := v } ∧
    hostAccess (.write 32 0x004 v) s = .next { s with cmdHi := v }) ∧
  (∀ (s t : State) (width o : Nat) (v : Word32), 0x400 ≤ o → hostAccess (.write width o v) s = .next t →
    t = { s with dmem := t.dmem })

/-- A write to CTRL (10_state.md R32): CLR_ERR first, then GO; bits [31:2] do not count; CTRL reads 0; in the busy interval
the write is a hazard. -/
def Obligations.CtrlWriteClearsThenStarts : Prop :=
  (∀ (s : State) (v : Word32), s.awaitingIdle = true →
    hostAccess (.write 32 0x008 v) s = .refused (.busyHazard 0x008)) ∧
  ∀ (s : State) (v : Word32) (x : HostVar), s.awaitingIdle = false →
    (v.getLsbD 1 = false → v.getLsbD 0 = false → hostAccess (.write 32 0x008 v) s = .next s) ∧
    (v.getLsbD 1 = true → v.getLsbD 0 = false →
      hostAccess (.write 32 0x008 v) s = .next { s with err := false, errCode := 0, errOp := 0 }) ∧
    (v.getLsbD 1 = false → v.getLsbD 0 = true → s.err = true → hostAccess (.write 32 0x008 v) s = .next s) ∧
    (v.getLsbD 1 = false → v.getLsbD 0 = true → s.err = false →
      hostAccess (.write 32 0x008 v) s =
        .next { s with pending := some (s.cmdHi ++ s.cmdLo), awaitingIdle := true }) ∧
    (v.getLsbD 1 = true → v.getLsbD 0 = true →
      hostAccess (.write 32 0x008 v) s =
        .next { s with err := false, errCode := 0, errOp := 0, pending := some (s.cmdHi ++ s.cmdLo),
                       awaitingIdle := true }) ∧
    (∃ t : State, hostAccess (.read 32 0x008 x) s = .next t ∧ t.var? x = some 0)

/-- The fields of STATUS and their reset values (10_state.md R33), and that writes to it are ignored. -/
def Obligations.StatusWordFields : Prop :=
  State.reset.readReg 0x00C = 0 ∧
  ∀ (s : State) (v : Word32),
    (s.readReg 0x00C).extractLsb' 0 1 = (if s.pending = none then 0 else 1) ∧
    (s.readReg 0x00C).extractLsb' 1 1 = (if s.err = true then 1 else 0) ∧
    (s.readReg 0x00C).extractLsb' 2 6 = 0 ∧
    (s.readReg 0x00C).extractLsb' 8 8 = s.errCode ∧
    (s.readReg 0x00C).extractLsb' 16 8 = s.errOp ∧
    (s.readReg 0x00C).extractLsb' 24 8 = 0 ∧
    (Inv s → s.err = false → s.errCode = 0 ∧ s.errOp = 0) ∧
    s.writeReg 0x00C v = s

/-! ## Whole-machine rules -/

/-- ERR goes to 1 when a command completes with an error, and only then; it goes to 0 by CLR_ERR and by reset, and only
then (10_state.md R36). -/
def Obligations.ErrSetOnlyByFailureClearedOnlyByHostOrReset : Prop :=
  ∀ s t : State, step s = .next t →
    (s.err = false → t.err = true → nextTurn s = .core ∧ ∃ (w : Word64) (code : ErrorCode), s.pending = some w ∧
      t = withError { s with schedule := s.schedule.tail } code.byte (w.extractLsb' 0 8)) ∧
    (s.err = true → t.err = false → nextTurn s = .reset ∨
      (nextTurn s = .host ∧ ∃ (v : Word32) (rest : List HostOp),
        s.program = .access (.write 32 0x008 v) :: rest ∧ v.getLsbD 1 = true)) ∧
    (nextTurn s = .reset → t.err = false) ∧
    (∀ (v : Word32) (rest : List HostOp), nextTurn s = .host → s.program = .access (.write 32 0x008 v) :: rest →
      v.getLsbD 1 = true → t.err = false) ∧
    (∀ w : Word64, nextTurn s = .core → s.pending = some w →
      (IllegalWord w ∨ ∃ i, decode w = .ok i ∧ (InvalidArgument i ∨ RangeOutOfBounds i)) → t.err = true)

/-- Every successful GF_MUL, GF_EXP or GF_LOG writes its result to RESULT; nothing else but a reset changes it; it reads with
bits [31:8] zero and ignores writes (10_state.md R34). -/
def Obligations.ResultChangesOnlyByScalarCommandOrReset : Prop :=
  (∀ s t : State, step s = .next t → t.result ≠ s.result →
    (nextTurn s = .reset ∧ t.result = 0) ∨
    (nextTurn s = .core ∧ ∃ w : Word64, s.pending = some w ∧
      ((∃ a b, decode w = .ok (.gfMul a b) ∧ t.result = gfMul a b) ∨
       (∃ i, decode w = .ok (.gfExp i) ∧ t.result = gfExp i) ∨
       (∃ x, x ≠ 0 ∧ decode w = .ok (.gfLog x) ∧ t.result = gfLog x)))) ∧
  (∀ (s t : State) (w : Word64), step s = .next t → nextTurn s = .core → s.pending = some w →
    (∀ a b, decode w = .ok (.gfMul a b) → t.result = gfMul a b) ∧
    (∀ i, decode w = .ok (.gfExp i) → t.result = gfExp i) ∧
    (∀ x, x ≠ 0 → decode w = .ok (.gfLog x) → t.result = gfLog x)) ∧
  (∀ s : State, (s.readReg 0x010).extractLsb' 0 8 = s.result ∧ (s.readReg 0x010).extractLsb' 8 24 = 0) ∧
  (∀ (s : State) (v : Word32), s.writeReg 0x010 v = s) ∧
  State.reset.readReg 0x010 = 0

/-- CMD_LO and CMD_HI change only by a host write of that half, to the value written, and by reset, to 0; no command
changes them (10_state.md R30). -/
def Obligations.CmdChangesOnlyByHostWriteOrReset : Prop :=
  ∀ s t : State, step s = .next t →
    (t.cmdLo ≠ s.cmdLo → (nextTurn s = .reset ∧ t.cmdLo = 0) ∨
      (nextTurn s = .host ∧ ∃ rest, s.program = .access (.write 32 0x000 t.cmdLo) :: rest)) ∧
    (t.cmdHi ≠ s.cmdHi → (nextTurn s = .reset ∧ t.cmdHi = 0) ∨
      (nextTurn s = .host ∧ ∃ rest, s.program = .access (.write 32 0x004 t.cmdHi) :: rest))

/-- A byte of DMEM changes only by a reset, by a host write that covers it, or by a command in whose in-bounds destination
range it lies (20_memory.md R61, R62). -/
def Obligations.DmemByteChangesOnlyInsideADestination : Prop :=
  ∀ (s t : State) (a : Nat), step s = .next t → t.readByte a ≠ s.readByte a →
    nextTurn s = .reset ∨
    (nextTurn s = .host ∧ ∃ (width o : Nat) (v : Word32) (rest : List HostOp),
      s.program = .access (.write width o v) :: rest ∧ 0x400 ≤ o ∧ o - 0x400 ≤ a ∧ a < o - 0x400 + width / 8) ∨
    (nextTurn s = .core ∧ ∃ (w : Word64) (i : Instr) (base len : Nat), s.pending = some w ∧ decode w = .ok i ∧
      destination i = some (base, len) ∧ base + len ≤ 1024 ∧ base ≤ a ∧ a < base + len)

/-- BUSY goes to 1 only by a CTRL write with GO, which puts CMD in flight, and to 0 only at the core's step or a reset;
the core's step always ends the command (10_state.md R35, R39). -/
def Obligations.BusyFromGoUntilCompletion : Prop :=
  ∀ s t : State, step s = .next t →
    (s.busy = false → t.busy = true → t.pending = some s.cmd ∧ nextTurn s = .host ∧
      ∃ (v : Word32) (rest : List HostOp), s.program = .access (.write 32 0x008 v) :: rest ∧ v.getLsbD 0 = true) ∧
    (s.busy = true → t.busy = false → nextTurn s = .core ∨ nextTurn s = .reset) ∧
    (nextTurn s = .core → t.busy = false)

/-- While ERR = 1, no step but a reset or a CLR_ERR write changes STATUS, RESULT or starts a command: the first error
stays (60_exceptions.md R165). The premise Inv rules out a state with ERR = 1 and a command in flight, which no run
reaches. -/
def Obligations.StickyErrorKeepsFirstError : Prop :=
  (∀ (s : State) (v : Word32), s.err = true → s.awaitingIdle = false → v.getLsbD 0 = true → v.getLsbD 1 = false →
    hostAccess (.write 32 0x008 v) s = .next s) ∧
  (∀ s t : State, Inv s → step s = .next t → s.err = true → nextTurn s ≠ .reset →
    (nextTurn s = .host → ∀ (v : Word32) (rest : List HostOp),
      s.program = .access (.write 32 0x008 v) :: rest → v.getLsbD 1 = false) →
    t.status = s.status ∧ t.pending = none ∧ t.result = s.result)

/-- The invariant holds after power-on. -/
def Obligations.InvHoldsAtReset : Prop := Inv State.reset

/-- Every step keeps the invariant. -/
def Obligations.StepKeepsInv : Prop := ∀ s t : State, Inv s → step s = .next t → Inv t

/-- Reset in any state, also with a command in flight, sets every register to its reset value: CMD, STATUS and RESULT
read 0 and no command is pending; power-on leaves the same (70_reset_and_hazards.md R180). -/
def Obligations.ResetSetsEveryRegister : Prop :=
  (State.reset.cmd = 0 ∧ State.reset.status = 0 ∧ State.reset.resultWord = 0 ∧ State.reset.pending = none) ∧
  ∀ s : State, nextTurn s = .reset → ∃ t : State, step s = .next t ∧ t.cmd = 0 ∧ t.readReg 0x000 = 0 ∧
    t.readReg 0x004 = 0 ∧ t.readReg 0x00C = 0 ∧ t.readReg 0x010 = 0 ∧ t.busy = false ∧ t.err = false ∧
    t.errCode = 0 ∧ t.errOp = 0 ∧ t.pending = none

/-- After a reset every DMEM byte holds what the new draw gives it, nothing of what it held before
(70_reset_and_hazards.md R181). The draw is the free value of log entry 1, and the statement holds whatever it is. -/
def Obligations.ResetDrawsEveryDmemByte : Prop :=
  ∀ s : State, nextTurn s = .reset → ∃ t : State, step s = .next t ∧ t.resets = s.resets + 1 ∧
    ∀ a : Nat, t.readByte a = Config.dmemInit (s.resets + 1) a

/-- After a reset the core is idle, and a GO right after it runs NOP: it starts and completes with every register still at
its reset value (70_reset_and_hazards.md R183). -/
def Obligations.GoAfterResetRunsNop : Prop :=
  ∀ s t : State, nextTurn s = .reset → step s = .next t → t.awaitingIdle = false →
    t.pending = none ∧ ∃ u : State, hostAccess (.write 32 0x008 1) t = .next u ∧ u.pending = some 0 ∧
      decode 0 = .ok .nop ∧ coreStep u = .next { u with pending := none } ∧
      u = { t with pending := some 0, awaitingIdle := true }

/-! ## Host statements -/

/-- `dmem.bytes` (30_encoding.md R81): after as many host steps as it has bytes, they are in DMEM and nothing else has
changed. -/
def Obligations.DmemBytesStatementStoresItsBytes : Prop :=
  ∀ (s : State) (addr : Nat) (bytes : List Byte) (rest : List HostOp) (later : List Turn),
    s.awaitingIdle = false → addr + bytes.length ≤ 1024 →
    s.program = HostStmt.expand (.dmemBytes addr bytes) ++ rest →
    s.schedule = List.replicate bytes.length .host ++ later →
    ∃ m : Memory,
      Sys2Proof.core.run bytes.length s = .next { s with dmem := m, program := rest, schedule := later } ∧
      StoresExactly s m addr bytes

/-- `dmem.read` (30_encoding.md R81): after n host steps, element k of the host variable holds DMEM[addr+k], every other
variable keeps its value, and nothing else has changed. -/
def Obligations.DmemReadStatementReadsItsBytes : Prop :=
  ∀ (s : State) (addr n name : Nat) (rest : List HostOp) (later : List Turn),
    s.awaitingIdle = false → addr + n ≤ 1024 →
    s.program = HostStmt.expand (.dmemRead addr n name) ++ rest →
    s.schedule = List.replicate n .host ++ later →
    ∃ t : State, Sys2Proof.core.run n s = .next t ∧
      t = { s with hostVars := t.hostVars, program := rest, schedule := later } ∧
      (∀ k, k < n → t.var? ⟨name, k⟩ = some ((s.readByte (addr + k)).setWidth 32)) ∧
      (∀ x : HostVar, (x.name ≠ name ∨ n ≤ x.index) → t.var? x = s.var? x)
end

