-- ==== Sys2Proof/Laws/State.lean ====
section
/-! SUPPORT. What each state-changing operation does to each field: one lemma per field per update, true by rfl, so that
no later proof unfolds a record update. -/

namespace Sys2Proof.Machine

/-! ### State.writeByte -/

@[simp] theorem State.writeByte_dmem (s : State) (a : Nat) (b : Byte) : (s.writeByte a b).dmem = Memory.store s.dmem a b := rfl
@[simp] theorem State.writeByte_cmdLo (s : State) (a : Nat) (b : Byte) : (s.writeByte a b).cmdLo = s.cmdLo := rfl
@[simp] theorem State.writeByte_cmdHi (s : State) (a : Nat) (b : Byte) : (s.writeByte a b).cmdHi = s.cmdHi := rfl
@[simp] theorem State.writeByte_err (s : State) (a : Nat) (b : Byte) : (s.writeByte a b).err = s.err := rfl
@[simp] theorem State.writeByte_errCode (s : State) (a : Nat) (b : Byte) : (s.writeByte a b).errCode = s.errCode := rfl
@[simp] theorem State.writeByte_errOp (s : State) (a : Nat) (b : Byte) : (s.writeByte a b).errOp = s.errOp := rfl
@[simp] theorem State.writeByte_result (s : State) (a : Nat) (b : Byte) : (s.writeByte a b).result = s.result := rfl
@[simp] theorem State.writeByte_pending (s : State) (a : Nat) (b : Byte) : (s.writeByte a b).pending = s.pending := rfl
@[simp] theorem State.writeByte_program (s : State) (a : Nat) (b : Byte) : (s.writeByte a b).program = s.program := rfl
@[simp] theorem State.writeByte_hostVars (s : State) (a : Nat) (b : Byte) : (s.writeByte a b).hostVars = s.hostVars := rfl
@[simp] theorem State.writeByte_awaitingIdle (s : State) (a : Nat) (b : Byte) : (s.writeByte a b).awaitingIdle = s.awaitingIdle := rfl
@[simp] theorem State.writeByte_schedule (s : State) (a : Nat) (b : Byte) : (s.writeByte a b).schedule = s.schedule := rfl
@[simp] theorem State.writeByte_resets (s : State) (a : Nat) (b : Byte) : (s.writeByte a b).resets = s.resets := rfl

/-! ### State.memWrite -/

@[simp] theorem State.memWrite_dmem (s : State) (a : Nat) (v : List Byte) : (s.memWrite a v).dmem = Memory.storeAll s.dmem a v := rfl
@[simp] theorem State.memWrite_cmdLo (s : State) (a : Nat) (v : List Byte) : (s.memWrite a v).cmdLo = s.cmdLo := rfl
@[simp] theorem State.memWrite_cmdHi (s : State) (a : Nat) (v : List Byte) : (s.memWrite a v).cmdHi = s.cmdHi := rfl
@[simp] theorem State.memWrite_err (s : State) (a : Nat) (v : List Byte) : (s.memWrite a v).err = s.err := rfl
@[simp] theorem State.memWrite_errCode (s : State) (a : Nat) (v : List Byte) : (s.memWrite a v).errCode = s.errCode := rfl
@[simp] theorem State.memWrite_errOp (s : State) (a : Nat) (v : List Byte) : (s.memWrite a v).errOp = s.errOp := rfl
@[simp] theorem State.memWrite_result (s : State) (a : Nat) (v : List Byte) : (s.memWrite a v).result = s.result := rfl
@[simp] theorem State.memWrite_pending (s : State) (a : Nat) (v : List Byte) : (s.memWrite a v).pending = s.pending := rfl
@[simp] theorem State.memWrite_program (s : State) (a : Nat) (v : List Byte) : (s.memWrite a v).program = s.program := rfl
@[simp] theorem State.memWrite_hostVars (s : State) (a : Nat) (v : List Byte) : (s.memWrite a v).hostVars = s.hostVars := rfl
@[simp] theorem State.memWrite_awaitingIdle (s : State) (a : Nat) (v : List Byte) : (s.memWrite a v).awaitingIdle = s.awaitingIdle := rfl
@[simp] theorem State.memWrite_schedule (s : State) (a : Nat) (v : List Byte) : (s.memWrite a v).schedule = s.schedule := rfl
@[simp] theorem State.memWrite_resets (s : State) (a : Nat) (v : List Byte) : (s.memWrite a v).resets = s.resets := rfl

/-! ### State.writeResult -/

@[simp] theorem State.writeResult_dmem (s : State) (v : Byte) : (s.writeResult v).dmem = s.dmem := rfl
@[simp] theorem State.writeResult_cmdLo (s : State) (v : Byte) : (s.writeResult v).cmdLo = s.cmdLo := rfl
@[simp] theorem State.writeResult_cmdHi (s : State) (v : Byte) : (s.writeResult v).cmdHi = s.cmdHi := rfl
@[simp] theorem State.writeResult_err (s : State) (v : Byte) : (s.writeResult v).err = s.err := rfl
@[simp] theorem State.writeResult_errCode (s : State) (v : Byte) : (s.writeResult v).errCode = s.errCode := rfl
@[simp] theorem State.writeResult_errOp (s : State) (v : Byte) : (s.writeResult v).errOp = s.errOp := rfl
@[simp] theorem State.writeResult_result (s : State) (v : Byte) : (s.writeResult v).result = v := rfl
@[simp] theorem State.writeResult_pending (s : State) (v : Byte) : (s.writeResult v).pending = s.pending := rfl
@[simp] theorem State.writeResult_program (s : State) (v : Byte) : (s.writeResult v).program = s.program := rfl
@[simp] theorem State.writeResult_hostVars (s : State) (v : Byte) : (s.writeResult v).hostVars = s.hostVars := rfl
@[simp] theorem State.writeResult_awaitingIdle (s : State) (v : Byte) : (s.writeResult v).awaitingIdle = s.awaitingIdle := rfl
@[simp] theorem State.writeResult_schedule (s : State) (v : Byte) : (s.writeResult v).schedule = s.schedule := rfl
@[simp] theorem State.writeResult_resets (s : State) (v : Byte) : (s.writeResult v).resets = s.resets := rfl

/-! ### State.writeCmd -/

@[simp] theorem State.writeCmd_dmem (s : State) (w : Word64) : (s.writeCmd w).dmem = s.dmem := rfl
@[simp] theorem State.writeCmd_cmdLo (s : State) (w : Word64) : (s.writeCmd w).cmdLo = w.extractLsb' 0 32 := rfl
@[simp] theorem State.writeCmd_cmdHi (s : State) (w : Word64) : (s.writeCmd w).cmdHi = w.extractLsb' 32 32 := rfl
@[simp] theorem State.writeCmd_err (s : State) (w : Word64) : (s.writeCmd w).err = s.err := rfl
@[simp] theorem State.writeCmd_errCode (s : State) (w : Word64) : (s.writeCmd w).errCode = s.errCode := rfl
@[simp] theorem State.writeCmd_errOp (s : State) (w : Word64) : (s.writeCmd w).errOp = s.errOp := rfl
@[simp] theorem State.writeCmd_result (s : State) (w : Word64) : (s.writeCmd w).result = s.result := rfl
@[simp] theorem State.writeCmd_pending (s : State) (w : Word64) : (s.writeCmd w).pending = s.pending := rfl
@[simp] theorem State.writeCmd_program (s : State) (w : Word64) : (s.writeCmd w).program = s.program := rfl
@[simp] theorem State.writeCmd_hostVars (s : State) (w : Word64) : (s.writeCmd w).hostVars = s.hostVars := rfl
@[simp] theorem State.writeCmd_awaitingIdle (s : State) (w : Word64) : (s.writeCmd w).awaitingIdle = s.awaitingIdle := rfl
@[simp] theorem State.writeCmd_schedule (s : State) (w : Word64) : (s.writeCmd w).schedule = s.schedule := rfl
@[simp] theorem State.writeCmd_resets (s : State) (w : Word64) : (s.writeCmd w).resets = s.resets := rfl

/-! ### State.complete -/

@[simp] theorem State.complete_dmem (s : State) : (s.complete).dmem = s.dmem := rfl
@[simp] theorem State.complete_cmdLo (s : State) : (s.complete).cmdLo = s.cmdLo := rfl
@[simp] theorem State.complete_cmdHi (s : State) : (s.complete).cmdHi = s.cmdHi := rfl
@[simp] theorem State.complete_err (s : State) : (s.complete).err = s.err := rfl
@[simp] theorem State.complete_errCode (s : State) : (s.complete).errCode = s.errCode := rfl
@[simp] theorem State.complete_errOp (s : State) : (s.complete).errOp = s.errOp := rfl
@[simp] theorem State.complete_result (s : State) : (s.complete).result = s.result := rfl
@[simp] theorem State.complete_pending (s : State) : (s.complete).pending = none := rfl
@[simp] theorem State.complete_program (s : State) : (s.complete).program = s.program := rfl
@[simp] theorem State.complete_hostVars (s : State) : (s.complete).hostVars = s.hostVars := rfl
@[simp] theorem State.complete_awaitingIdle (s : State) : (s.complete).awaitingIdle = s.awaitingIdle := rfl
@[simp] theorem State.complete_schedule (s : State) : (s.complete).schedule = s.schedule := rfl
@[simp] theorem State.complete_resets (s : State) : (s.complete).resets = s.resets := rfl

/-! ### State.raiseError -/

@[simp] theorem State.raiseError_dmem (s : State) (c : ErrorCode) (op : Byte) : (s.raiseError c op).dmem = s.dmem := rfl
@[simp] theorem State.raiseError_cmdLo (s : State) (c : ErrorCode) (op : Byte) : (s.raiseError c op).cmdLo = s.cmdLo := rfl
@[simp] theorem State.raiseError_cmdHi (s : State) (c : ErrorCode) (op : Byte) : (s.raiseError c op).cmdHi = s.cmdHi := rfl
@[simp] theorem State.raiseError_err (s : State) (c : ErrorCode) (op : Byte) : (s.raiseError c op).err = true := rfl
@[simp] theorem State.raiseError_errCode (s : State) (c : ErrorCode) (op : Byte) : (s.raiseError c op).errCode = c.byte := rfl
@[simp] theorem State.raiseError_errOp (s : State) (c : ErrorCode) (op : Byte) : (s.raiseError c op).errOp = op := rfl
@[simp] theorem State.raiseError_result (s : State) (c : ErrorCode) (op : Byte) : (s.raiseError c op).result = s.result := rfl
@[simp] theorem State.raiseError_pending (s : State) (c : ErrorCode) (op : Byte) : (s.raiseError c op).pending = none := rfl
@[simp] theorem State.raiseError_program (s : State) (c : ErrorCode) (op : Byte) : (s.raiseError c op).program = s.program := rfl
@[simp] theorem State.raiseError_hostVars (s : State) (c : ErrorCode) (op : Byte) : (s.raiseError c op).hostVars = s.hostVars := rfl
@[simp] theorem State.raiseError_awaitingIdle (s : State) (c : ErrorCode) (op : Byte) : (s.raiseError c op).awaitingIdle = s.awaitingIdle := rfl
@[simp] theorem State.raiseError_schedule (s : State) (c : ErrorCode) (op : Byte) : (s.raiseError c op).schedule = s.schedule := rfl
@[simp] theorem State.raiseError_resets (s : State) (c : ErrorCode) (op : Byte) : (s.raiseError c op).resets = s.resets := rfl

/-! ### State.clearError -/

@[simp] theorem State.clearError_dmem (s : State) : (s.clearError).dmem = s.dmem := rfl
@[simp] theorem State.clearError_cmdLo (s : State) : (s.clearError).cmdLo = s.cmdLo := rfl
@[simp] theorem State.clearError_cmdHi (s : State) : (s.clearError).cmdHi = s.cmdHi := rfl
@[simp] theorem State.clearError_err (s : State) : (s.clearError).err = false := rfl
@[simp] theorem State.clearError_errCode (s : State) : (s.clearError).errCode = 0 := rfl
@[simp] theorem State.clearError_errOp (s : State) : (s.clearError).errOp = 0 := rfl
@[simp] theorem State.clearError_result (s : State) : (s.clearError).result = s.result := rfl
@[simp] theorem State.clearError_pending (s : State) : (s.clearError).pending = s.pending := rfl
@[simp] theorem State.clearError_program (s : State) : (s.clearError).program = s.program := rfl
@[simp] theorem State.clearError_hostVars (s : State) : (s.clearError).hostVars = s.hostVars := rfl
@[simp] theorem State.clearError_awaitingIdle (s : State) : (s.clearError).awaitingIdle = s.awaitingIdle := rfl
@[simp] theorem State.clearError_schedule (s : State) : (s.clearError).schedule = s.schedule := rfl
@[simp] theorem State.clearError_resets (s : State) : (s.clearError).resets = s.resets := rfl

/-! ### State.startCommand -/

@[simp] theorem State.startCommand_dmem (s : State) : (s.startCommand).dmem = s.dmem := rfl
@[simp] theorem State.startCommand_cmdLo (s : State) : (s.startCommand).cmdLo = s.cmdLo := rfl
@[simp] theorem State.startCommand_cmdHi (s : State) : (s.startCommand).cmdHi = s.cmdHi := rfl
@[simp] theorem State.startCommand_err (s : State) : (s.startCommand).err = s.err := rfl
@[simp] theorem State.startCommand_errCode (s : State) : (s.startCommand).errCode = s.errCode := rfl
@[simp] theorem State.startCommand_errOp (s : State) : (s.startCommand).errOp = s.errOp := rfl
@[simp] theorem State.startCommand_result (s : State) : (s.startCommand).result = s.result := rfl
@[simp] theorem State.startCommand_pending (s : State) : (s.startCommand).pending = some s.cmd := rfl
@[simp] theorem State.startCommand_program (s : State) : (s.startCommand).program = s.program := rfl
@[simp] theorem State.startCommand_hostVars (s : State) : (s.startCommand).hostVars = s.hostVars := rfl
@[simp] theorem State.startCommand_awaitingIdle (s : State) : (s.startCommand).awaitingIdle = true := rfl
@[simp] theorem State.startCommand_schedule (s : State) : (s.startCommand).schedule = s.schedule := rfl
@[simp] theorem State.startCommand_resets (s : State) : (s.startCommand).resets = s.resets := rfl

/-! ### State.finishWith -/

@[simp] theorem State.finishWith_dmem (s : State) (dst : Nat) (v : List Byte) : (s.finishWith dst v).dmem = Memory.storeAll s.dmem dst v := rfl
@[simp] theorem State.finishWith_cmdLo (s : State) (dst : Nat) (v : List Byte) : (s.finishWith dst v).cmdLo = s.cmdLo := rfl
@[simp] theorem State.finishWith_cmdHi (s : State) (dst : Nat) (v : List Byte) : (s.finishWith dst v).cmdHi = s.cmdHi := rfl
@[simp] theorem State.finishWith_err (s : State) (dst : Nat) (v : List Byte) : (s.finishWith dst v).err = s.err := rfl
@[simp] theorem State.finishWith_errCode (s : State) (dst : Nat) (v : List Byte) : (s.finishWith dst v).errCode = s.errCode := rfl
@[simp] theorem State.finishWith_errOp (s : State) (dst : Nat) (v : List Byte) : (s.finishWith dst v).errOp = s.errOp := rfl
@[simp] theorem State.finishWith_result (s : State) (dst : Nat) (v : List Byte) : (s.finishWith dst v).result = s.result := rfl
@[simp] theorem State.finishWith_pending (s : State) (dst : Nat) (v : List Byte) : (s.finishWith dst v).pending = none := rfl
@[simp] theorem State.finishWith_program (s : State) (dst : Nat) (v : List Byte) : (s.finishWith dst v).program = s.program := rfl
@[simp] theorem State.finishWith_hostVars (s : State) (dst : Nat) (v : List Byte) : (s.finishWith dst v).hostVars = s.hostVars := rfl
@[simp] theorem State.finishWith_awaitingIdle (s : State) (dst : Nat) (v : List Byte) : (s.finishWith dst v).awaitingIdle = s.awaitingIdle := rfl
@[simp] theorem State.finishWith_schedule (s : State) (dst : Nat) (v : List Byte) : (s.finishWith dst v).schedule = s.schedule := rfl
@[simp] theorem State.finishWith_resets (s : State) (dst : Nat) (v : List Byte) : (s.finishWith dst v).resets = s.resets := rfl

/-! ### State.finishScalar -/

@[simp] theorem State.finishScalar_dmem (s : State) (v : Byte) : (s.finishScalar v).dmem = s.dmem := rfl
@[simp] theorem State.finishScalar_cmdLo (s : State) (v : Byte) : (s.finishScalar v).cmdLo = s.cmdLo := rfl
@[simp] theorem State.finishScalar_cmdHi (s : State) (v : Byte) : (s.finishScalar v).cmdHi = s.cmdHi := rfl
@[simp] theorem State.finishScalar_err (s : State) (v : Byte) : (s.finishScalar v).err = s.err := rfl
@[simp] theorem State.finishScalar_errCode (s : State) (v : Byte) : (s.finishScalar v).errCode = s.errCode := rfl
@[simp] theorem State.finishScalar_errOp (s : State) (v : Byte) : (s.finishScalar v).errOp = s.errOp := rfl
@[simp] theorem State.finishScalar_result (s : State) (v : Byte) : (s.finishScalar v).result = v := rfl
@[simp] theorem State.finishScalar_pending (s : State) (v : Byte) : (s.finishScalar v).pending = none := rfl
@[simp] theorem State.finishScalar_program (s : State) (v : Byte) : (s.finishScalar v).program = s.program := rfl
@[simp] theorem State.finishScalar_hostVars (s : State) (v : Byte) : (s.finishScalar v).hostVars = s.hostVars := rfl
@[simp] theorem State.finishScalar_awaitingIdle (s : State) (v : Byte) : (s.finishScalar v).awaitingIdle = s.awaitingIdle := rfl
@[simp] theorem State.finishScalar_schedule (s : State) (v : Byte) : (s.finishScalar v).schedule = s.schedule := rfl
@[simp] theorem State.finishScalar_resets (s : State) (v : Byte) : (s.finishScalar v).resets = s.resets := rfl

/-! ### State.setVar -/

@[simp] theorem State.setVar_dmem (s : State) (x : HostVar) (v : Word32) : (s.setVar x v).dmem = s.dmem := rfl
@[simp] theorem State.setVar_cmdLo (s : State) (x : HostVar) (v : Word32) : (s.setVar x v).cmdLo = s.cmdLo := rfl
@[simp] theorem State.setVar_cmdHi (s : State) (x : HostVar) (v : Word32) : (s.setVar x v).cmdHi = s.cmdHi := rfl
@[simp] theorem State.setVar_err (s : State) (x : HostVar) (v : Word32) : (s.setVar x v).err = s.err := rfl
@[simp] theorem State.setVar_errCode (s : State) (x : HostVar) (v : Word32) : (s.setVar x v).errCode = s.errCode := rfl
@[simp] theorem State.setVar_errOp (s : State) (x : HostVar) (v : Word32) : (s.setVar x v).errOp = s.errOp := rfl
@[simp] theorem State.setVar_result (s : State) (x : HostVar) (v : Word32) : (s.setVar x v).result = s.result := rfl
@[simp] theorem State.setVar_pending (s : State) (x : HostVar) (v : Word32) : (s.setVar x v).pending = s.pending := rfl
@[simp] theorem State.setVar_program (s : State) (x : HostVar) (v : Word32) : (s.setVar x v).program = s.program := rfl
@[simp] theorem State.setVar_hostVars (s : State) (x : HostVar) (v : Word32) : (s.setVar x v).hostVars = (x, v) :: s.hostVars.filter fun p => !(p.1 == x) := rfl
@[simp] theorem State.setVar_awaitingIdle (s : State) (x : HostVar) (v : Word32) : (s.setVar x v).awaitingIdle = s.awaitingIdle := rfl
@[simp] theorem State.setVar_schedule (s : State) (x : HostVar) (v : Word32) : (s.setVar x v).schedule = s.schedule := rfl
@[simp] theorem State.setVar_resets (s : State) (x : HostVar) (v : Word32) : (s.setVar x v).resets = s.resets := rfl

/-! ### State.setProgram -/

@[simp] theorem State.setProgram_dmem (s : State) (p : List HostOp) : (s.setProgram p).dmem = s.dmem := rfl
@[simp] theorem State.setProgram_cmdLo (s : State) (p : List HostOp) : (s.setProgram p).cmdLo = s.cmdLo := rfl
@[simp] theorem State.setProgram_cmdHi (s : State) (p : List HostOp) : (s.setProgram p).cmdHi = s.cmdHi := rfl
@[simp] theorem State.setProgram_err (s : State) (p : List HostOp) : (s.setProgram p).err = s.err := rfl
@[simp] theorem State.setProgram_errCode (s : State) (p : List HostOp) : (s.setProgram p).errCode = s.errCode := rfl
@[simp] theorem State.setProgram_errOp (s : State) (p : List HostOp) : (s.setProgram p).errOp = s.errOp := rfl
@[simp] theorem State.setProgram_result (s : State) (p : List HostOp) : (s.setProgram p).result = s.result := rfl
@[simp] theorem State.setProgram_pending (s : State) (p : List HostOp) : (s.setProgram p).pending = s.pending := rfl
@[simp] theorem State.setProgram_program (s : State) (p : List HostOp) : (s.setProgram p).program = p := rfl
@[simp] theorem State.setProgram_hostVars (s : State) (p : List HostOp) : (s.setProgram p).hostVars = s.hostVars := rfl
@[simp] theorem State.setProgram_awaitingIdle (s : State) (p : List HostOp) : (s.setProgram p).awaitingIdle = s.awaitingIdle := rfl
@[simp] theorem State.setProgram_schedule (s : State) (p : List HostOp) : (s.setProgram p).schedule = s.schedule := rfl
@[simp] theorem State.setProgram_resets (s : State) (p : List HostOp) : (s.setProgram p).resets = s.resets := rfl

/-! ### popTurn -/

@[simp] theorem popTurn_dmem (s : State) : (popTurn s).dmem = s.dmem := rfl
@[simp] theorem popTurn_cmdLo (s : State) : (popTurn s).cmdLo = s.cmdLo := rfl
@[simp] theorem popTurn_cmdHi (s : State) : (popTurn s).cmdHi = s.cmdHi := rfl
@[simp] theorem popTurn_err (s : State) : (popTurn s).err = s.err := rfl
@[simp] theorem popTurn_errCode (s : State) : (popTurn s).errCode = s.errCode := rfl
@[simp] theorem popTurn_errOp (s : State) : (popTurn s).errOp = s.errOp := rfl
@[simp] theorem popTurn_result (s : State) : (popTurn s).result = s.result := rfl
@[simp] theorem popTurn_pending (s : State) : (popTurn s).pending = s.pending := rfl
@[simp] theorem popTurn_program (s : State) : (popTurn s).program = s.program := rfl
@[simp] theorem popTurn_hostVars (s : State) : (popTurn s).hostVars = s.hostVars := rfl
@[simp] theorem popTurn_awaitingIdle (s : State) : (popTurn s).awaitingIdle = s.awaitingIdle := rfl
@[simp] theorem popTurn_schedule (s : State) : (popTurn s).schedule = s.schedule.tail := rfl
@[simp] theorem popTurn_resets (s : State) : (popTurn s).resets = s.resets := rfl

/-! ### resetStep -/

@[simp] theorem resetStep_dmem (s : State) : (resetStep s).dmem = [] := rfl
@[simp] theorem resetStep_cmdLo (s : State) : (resetStep s).cmdLo = 0 := rfl
@[simp] theorem resetStep_cmdHi (s : State) : (resetStep s).cmdHi = 0 := rfl
@[simp] theorem resetStep_err (s : State) : (resetStep s).err = false := rfl
@[simp] theorem resetStep_errCode (s : State) : (resetStep s).errCode = 0 := rfl
@[simp] theorem resetStep_errOp (s : State) : (resetStep s).errOp = 0 := rfl
@[simp] theorem resetStep_result (s : State) : (resetStep s).result = 0 := rfl
@[simp] theorem resetStep_pending (s : State) : (resetStep s).pending = none := rfl
@[simp] theorem resetStep_program (s : State) : (resetStep s).program = s.program := rfl
@[simp] theorem resetStep_hostVars (s : State) : (resetStep s).hostVars = s.hostVars := rfl
@[simp] theorem resetStep_awaitingIdle (s : State) : (resetStep s).awaitingIdle = s.awaitingIdle := rfl
@[simp] theorem resetStep_schedule (s : State) : (resetStep s).schedule = s.schedule := rfl
@[simp] theorem resetStep_resets (s : State) : (resetStep s).resets = s.resets + 1 := rfl

end Sys2Proof.Machine
end

