-- ==== Sys2Proof/Laws/Memory.lean ====
section
/-! SUPPORT. Memory: reading after writing, that every memory operation keeps the canonical form, and that canonical
memories listing the same bytes are equal. -/

namespace Sys2Proof.Machine

/-! ## Reading after writing -/

@[simp] theorem Memory.lookup_store (m : Memory) (a : Nat) (b : Byte) (x : Nat) :
    Memory.lookup (Memory.store m a b) x = if x = a then some b else Memory.lookup m x := by
  induction m with
  | nil => simp [Memory.store, Memory.lookup, eq_comm]
  | cons head m ih =>
    obtain ⟨k, c⟩ := head
    by_cases hlt : a < k
    · simp [Memory.store, hlt, Memory.lookup, eq_comm]
    by_cases heq : a = k
    · subst heq
      by_cases hx : x = a
      · simp [Memory.store, Memory.lookup, hx]
      · simp [Memory.store, Memory.lookup, hx, Ne.symm hx]
    · by_cases hx : x = a
      · subst hx
        simp [Memory.store, Memory.lookup, hlt, heq, Ne.symm heq, ih]
      · simp [Memory.store, Memory.lookup, hlt, heq, hx, ih]

theorem Memory.lookup_storeAll (v : List Byte) (m : Memory) (a x : Nat) :
    Memory.lookup (Memory.storeAll m a v) x =
      if a ≤ x ∧ x < a + v.length then v[x - a]? else Memory.lookup m x := by
  induction v generalizing m a with
  | nil =>
    have : ¬ (a ≤ x ∧ x < a) := by omega
    simp [Memory.storeAll, this]
  | cons b v ih =>
    rw [Memory.storeAll, ih, Memory.lookup_store, List.length_cons]
    by_cases hx : x = a
    · subst hx
      have : ¬ (x + 1 ≤ x ∧ x < x + 1 + v.length) := by omega
      simp
    · by_cases h : a + 1 ≤ x ∧ x < a + 1 + v.length
      · have h' : a ≤ x ∧ x < a + (v.length + 1) := by omega
        have hs : x - a = (x - (a + 1)) + 1 := by omega
        rw [if_pos h, if_pos h', hs, List.getElem?_cons_succ]
      · have h' : ¬ (a ≤ x ∧ x < a + (v.length + 1)) := by omega
        rw [if_neg h, if_neg h', if_neg hx]

/-- DMEM[x] after DMEM[a] <- b. -/
theorem State.readByte_writeByte (s : State) (a : Nat) (b : Byte) (x : Nat) :
    (s.writeByte a b).readByte x = if x = a then b else s.readByte x := by
  by_cases h : x = a <;> simp [State.readByte, State.unwrittenByte, h]

/-- DMEM[x] after MemWrite(a, n, v). -/
theorem State.readByte_memWrite (s : State) (a : Nat) (v : List Byte) (x : Nat) :
    (s.memWrite a v).readByte x = if a ≤ x ∧ x < a + v.length then v.getD (x - a) 0 else s.readByte x := by
  by_cases h : a ≤ x ∧ x < a + v.length
  · have hlt : x - a < v.length := by omega
    simp [State.readByte, Memory.lookup_storeAll, h, hlt]
  · simp [State.readByte, State.unwrittenByte, Memory.lookup_storeAll, h]

/-- A read depends on DMEM and the reset count only. -/
theorem State.readByte_congr {s t : State} (hm : t.dmem = s.dmem) (hr : t.resets = s.resets) (a : Nat) :
    t.readByte a = s.readByte a := by
  simp [State.readByte, State.unwrittenByte, hm, hr]

@[simp] theorem State.memRead_length (s : State) (a n : Nat) : (s.memRead a n).length = n := by
  induction n generalizing a with
  | zero => rfl
  | succ n ih => simp [State.memRead, ih]

theorem State.memRead_getElem? (s : State) (a n k : Nat) :
    (s.memRead a n)[k]? = if k < n then some (s.readByte (a + k)) else none := by
  induction n generalizing a k with
  | zero => simp [State.memRead]
  | succ n ih =>
    cases k with
    | zero => simp [State.memRead]
    | succ k => simp [State.memRead, ih, Nat.add_assoc, Nat.add_comm 1 k]

/-- Two states that agree on the bytes of a range read the same from it. -/
theorem State.memRead_congr {s t : State} {a n : Nat}
    (h : ∀ x, a ≤ x → x < a + n → t.readByte x = s.readByte x) : t.memRead a n = s.memRead a n := by
  induction n generalizing a with
  | zero => rfl
  | succ n ih =>
    rw [State.memRead, State.memRead, h a (by omega) (by omega), ih fun x h1 h2 => h x (by omega) (by omega)]

/-! ## The canonical form -/

theorem Memory.risesFrom_mono {lo lo' : Nat} (h : lo' ≤ lo) {m : Memory} (hm : Memory.risesFrom lo m = true) :
    Memory.risesFrom lo' m = true := by
  cases m with
  | nil => rfl
  | cons head m =>
    simp only [Memory.risesFrom, Bool.and_eq_true, decide_eq_true_eq] at hm ⊢
    exact ⟨⟨by omega, hm.1.2⟩, hm.2⟩

theorem Memory.risesFrom_store {m : Memory} {lo a : Nat} (b : Byte) (hm : Memory.risesFrom lo m = true)
    (hlo : lo ≤ a) (ha : a < Config.dmemSize) : Memory.risesFrom lo (Memory.store m a b) = true := by
  induction m generalizing lo with
  | nil => simp [Memory.store, Memory.risesFrom, hlo, ha]
  | cons head m ih =>
    obtain ⟨k, c⟩ := head
    simp only [Memory.risesFrom, Bool.and_eq_true, decide_eq_true_eq] at hm
    obtain ⟨⟨hk, hkd⟩, hrest⟩ := hm
    by_cases hlt : a < k
    · simp [Memory.store, hlt, Memory.risesFrom, hlo, ha, hkd, hrest]
    by_cases heq : a = k
    · subst heq
      simp [Memory.store, Memory.risesFrom, hlo, ha, hrest]
    · simp [Memory.store, hlt, heq, Memory.risesFrom, hk, hkd, ih hrest (by omega)]

/-- DMEM[a] <- b keeps the canonical form, for an address of DMEM. -/
theorem Memory.wf_store {m : Memory} {a : Nat} (b : Byte) (hm : Memory.wf m = true) (ha : a < Config.dmemSize) :
    Memory.wf (Memory.store m a b) = true :=
  Memory.risesFrom_store b hm (Nat.zero_le a) ha

/-- MemWrite to a range in bounds keeps the canonical form. -/
theorem Memory.wf_storeAll {m : Memory} {a : Nat} {v : List Byte} (hm : Memory.wf m = true)
    (ha : a + v.length ≤ Config.dmemSize) : Memory.wf (Memory.storeAll m a v) = true := by
  induction v generalizing m a with
  | nil => exact hm
  | cons b v ih =>
    rw [List.length_cons] at ha
    exact ih (Memory.wf_store b hm (by omega)) (by omega)

/-- Reset memory is canonical. -/
theorem Memory.wf_reset : Memory.wf State.reset.dmem = true := rfl

theorem Memory.lookup_none_of_lt {m : Memory} {lo x : Nat} (hm : Memory.risesFrom lo m = true) (hx : x < lo) :
    Memory.lookup m x = none := by
  induction m generalizing lo with
  | nil => rfl
  | cons head m ih =>
    obtain ⟨k, c⟩ := head
    simp only [Memory.risesFrom, Bool.and_eq_true, decide_eq_true_eq] at hm
    rw [Memory.lookup, if_neg (by omega)]
    exact ih hm.2 (by omega)

theorem Memory.eq_of_risesFrom {m m' : Memory} {lo : Nat} (hm : Memory.risesFrom lo m = true)
    (hm' : Memory.risesFrom lo m' = true) (h : ∀ x, Memory.lookup m x = Memory.lookup m' x) : m = m' := by
  induction m generalizing m' lo with
  | nil =>
    cases m' with
    | nil => rfl
    | cons head m' => have := h head.1; simp [Memory.lookup] at this
  | cons head m ih =>
    obtain ⟨k, c⟩ := head
    cases m' with
    | nil => have := h k; simp [Memory.lookup] at this
    | cons head' m' =>
      obtain ⟨k', c'⟩ := head'
      simp only [Memory.risesFrom, Bool.and_eq_true, decide_eq_true_eq] at hm hm'
      have hk : k = k' := by
        rcases Nat.lt_trichotomy k k' with hlt | heq | hlt
        · have := h k
          rw [Memory.lookup, if_pos rfl, Memory.lookup, if_neg (by omega),
            Memory.lookup_none_of_lt hm'.2 (by omega)] at this
          cases this
        · exact heq
        · have := h k'
          rw [Memory.lookup, if_neg (by omega), Memory.lookup_none_of_lt hm.2 (by omega), Memory.lookup,
            if_pos rfl] at this
          cases this
      subst hk
      have hc : c = c' := by simpa [Memory.lookup] using h k
      subst hc
      rw [ih hm.2 hm'.2 fun x => ?_]
      by_cases hx : k = x
      · subst hx
        rw [Memory.lookup_none_of_lt hm.2 (by omega), Memory.lookup_none_of_lt hm'.2 (by omega)]
      · simpa [Memory.lookup, hx] using h x

/-- Equal memories are equal data: canonical memories that list the same bytes are the same list. -/
theorem Memory.eq_of_lookup {m m' : Memory} (hm : Memory.wf m = true) (hm' : Memory.wf m' = true)
    (h : ∀ x, Memory.lookup m x = Memory.lookup m' x) : m = m' :=
  Memory.eq_of_risesFrom hm hm' h

end Sys2Proof.Machine
end

