-- ==== Sys2Proof/Laws/Poly.lean ====
section
/-! SUPPORT. The lengths of the polynomial functions (41_polynomial.md R120, R122; 42_generator.md R140;
43_rs_encoder.md R150), which say how many bytes each command stores. -/

namespace Sys2Proof.Machine

@[simp] theorem zeros_length (n : Nat) : (zeros n).length = n := by simp [zeros]

@[simp] theorem xorInto_length (p q : List Byte) : (xorInto p q).length = p.length := by
  induction p generalizing q with
  | nil => rfl
  | cons x p ih => cases q with
    | nil => rfl
    | cons y q => simp [xorInto, ih]

/-- `poly_mul` of a nonempty polynomial has length len(a) + len(b) - 1 (R120). -/
theorem polyMul_length {a b : List Byte} (hb : b ≠ []) : (polyMul a b).length = a.length + b.length - 1 := by
  induction a with
  | nil => simp [polyMul]
  | cons x a ih =>
    have := List.length_pos_iff.mpr hb
    simp [polyMul, ih]
    omega

@[simp] theorem polyDivPosition_length (d r : List Byte) : (polyDivPosition d r).length = r.length := by
  unfold polyDivPosition
  split
  · rfl
  · split <;> simp

@[simp] theorem polyDivSweep_length (d : List Byte) (n : Nat) (r : List Byte) :
    (polyDivSweep d n r).length = r.length := by
  induction n generalizing r with
  | zero => rfl
  | succ n ih =>
    have h := polyDivPosition_length d r
    rw [polyDivSweep]
    split <;> rename_i heq <;> rw [heq] at h
    · simpa using h
    · simpa [ih] using h

/-- `poly_div` returns the whole working array (R122). -/
@[simp] theorem polyDiv_length (n d : List Byte) : (polyDiv n d).length = n.length := by simp [polyDiv]

/-- `gen_poly(k)` has k + 1 entries (R140). -/
@[simp] theorem genPoly_length (k : Nat) : (genPoly k).length = k + 1 := by
  induction k with
  | zero => rfl
  | succ k ih => rw [genPoly, polyMul_length (by simp), ih]; rfl

/-- `rs_encode(data, k)` has exactly k entries (R150). -/
@[simp] theorem rsEncode_length (data : List Byte) (k : Nat) : (rsEncode data k).length = k := by
  simp [rsEncode, lastEntries]

end Sys2Proof.Machine
end

