-- ==== Sys2Proof/Laws/Exec.lean ====
section
/-! SUPPORT. What a command can do, said once: every command answers a next state, in which it has completed without
effect, has written RESULT, has stored bytes to an in-bounds destination, or has recorded an error. -/

namespace Sys2Proof.Machine

theorem inBounds_iff {base len : Nat} : inBounds base len = true ↔ base + len ≤ Config.dmemSize := by
  simp [inBounds]

/-- GF_LOG: the two ways it ends (R108). -/
theorem execGfLog_cases (x : Byte) (s : State) :
    (x = 0 ∧ execGfLog x s = .next (s.raiseError .invalidArgument Opcode.gfLog.byte)) ∨
    (x ≠ 0 ∧ execGfLog x s = .next (s.finishScalar (gfLog x))) := by
  unfold execGfLog
  split <;> rename_i h
  · exact .inl ⟨h, rfl⟩
  · exact .inr ⟨h, rfl⟩

/-- POLY_MUL: the three ways it ends (R127). -/
theorem execPolyMul_cases (dst aAddr aLen bAddr bLen : Nat) (s : State) :
    ((aLen = 0 ∨ bLen = 0) ∧
      execPolyMul dst aAddr aLen bAddr bLen s = .next (s.raiseError .invalidArgument Opcode.polyMul.byte)) ∨
    (aLen ≠ 0 ∧ bLen ≠ 0 ∧ aAddr + aLen ≤ 1024 ∧ bAddr + bLen ≤ 1024 ∧ dst + (aLen + bLen - 1) ≤ 1024 ∧
      execPolyMul dst aAddr aLen bAddr bLen s =
        .next (s.finishWith dst (polyMul (s.memRead aAddr aLen) (s.memRead bAddr bLen)))) ∨
    (aLen ≠ 0 ∧ bLen ≠ 0 ∧ ¬ (aAddr + aLen ≤ 1024 ∧ bAddr + bLen ≤ 1024 ∧ dst + (aLen + bLen - 1) ≤ 1024) ∧
      execPolyMul dst aAddr aLen bAddr bLen s = .next (s.raiseError .addrRange Opcode.polyMul.byte)) := by
  unfold execPolyMul
  split <;> rename_i h
  · exact .inl ⟨h, rfl⟩
  · split <;> rename_i hb <;> simp only [Bool.and_eq_true, inBounds_iff, Config.dmemSize] at hb
    · exact .inr (.inl ⟨by tauto, by tauto, hb.1.1, hb.1.2, hb.2, rfl⟩)
    · exact .inr (.inr ⟨by tauto, by tauto, by tauto, rfl⟩)

/-- POLY_DIV: the three ways it ends (R128). -/
theorem execPolyDiv_cases (dst nAddr nLen dAddr dLen : Nat) (s : State) :
    ((dLen = 0 ∨ nLen < dLen) ∧
      execPolyDiv dst nAddr nLen dAddr dLen s = .next (s.raiseError .invalidArgument Opcode.polyDiv.byte)) ∨
    (dLen ≠ 0 ∧ dLen ≤ nLen ∧ nAddr + nLen ≤ 1024 ∧ dAddr + dLen ≤ 1024 ∧ dst + nLen ≤ 1024 ∧
      execPolyDiv dst nAddr nLen dAddr dLen s =
        .next (s.finishWith dst (polyDiv (s.memRead nAddr nLen) (s.memRead dAddr dLen)))) ∨
    (dLen ≠ 0 ∧ dLen ≤ nLen ∧ ¬ (nAddr + nLen ≤ 1024 ∧ dAddr + dLen ≤ 1024 ∧ dst + nLen ≤ 1024) ∧
      execPolyDiv dst nAddr nLen dAddr dLen s = .next (s.raiseError .addrRange Opcode.polyDiv.byte)) := by
  unfold execPolyDiv
  split <;> rename_i h
  · exact .inl ⟨h, rfl⟩
  · have hd : dLen ≠ 0 := by tauto
    have hn : dLen ≤ nLen := by omega
    split <;> rename_i hb <;> simp only [Bool.and_eq_true, inBounds_iff, Config.dmemSize] at hb
    · exact .inr (.inl ⟨hd, hn, hb.1.1, hb.1.2, hb.2, rfl⟩)
    · exact .inr (.inr ⟨hd, hn, by tauto, rfl⟩)

/-- GEN_POLY: the two ways it ends (R143). -/
theorem execGenPoly_cases (dst deg : Nat) (s : State) :
    (dst + (deg + 1) ≤ 1024 ∧ execGenPoly dst deg s = .next (s.finishWith dst (genPoly deg))) ∨
    (¬ dst + (deg + 1) ≤ 1024 ∧ execGenPoly dst deg s = .next (s.raiseError .addrRange Opcode.genPoly.byte)) := by
  unfold execGenPoly
  split <;> rename_i h <;> simp only [inBounds_iff, Config.dmemSize] at h
  · exact .inl ⟨h, rfl⟩
  · exact .inr ⟨h, rfl⟩

/-- RS_ENC: the three ways it ends (R153). -/
theorem execRsEnc_cases (dst dataAddr dataLen ec : Nat) (s : State) :
    ((ec = 0 ∨ dataLen = 0) ∧
      execRsEnc dst dataAddr dataLen ec s = .next (s.raiseError .invalidArgument Opcode.rsEnc.byte)) ∨
    (ec ≠ 0 ∧ dataLen ≠ 0 ∧ dataAddr + dataLen ≤ 1024 ∧ dst + ec ≤ 1024 ∧
      execRsEnc dst dataAddr dataLen ec s = .next (s.finishWith dst (rsEncode (s.memRead dataAddr dataLen) ec))) ∨
    (ec ≠ 0 ∧ dataLen ≠ 0 ∧ ¬ (dataAddr + dataLen ≤ 1024 ∧ dst + ec ≤ 1024) ∧
      execRsEnc dst dataAddr dataLen ec s = .next (s.raiseError .addrRange Opcode.rsEnc.byte)) := by
  unfold execRsEnc
  split <;> rename_i h
  · exact .inl ⟨h, rfl⟩
  · split <;> rename_i hb <;> simp only [Bool.and_eq_true, inBounds_iff, Config.dmemSize] at hb
    · exact .inr (.inl ⟨by tauto, by tauto, hb.1, hb.2, rfl⟩)
    · exact .inr (.inr ⟨by tauto, by tauto, by tauto, rfl⟩)

/-- The four shapes a command's next state can have. -/
inductive ExecShape (i : Instr) (s : State) : State → Prop where
  /-- No effect; the command completes. -/
  | plain : ExecShape i s s.complete
  /-- RESULT is written; the command completes. -/
  | scalar (v : Byte) : ExecShape i s (s.finishScalar v)
  /-- Bytes are stored to an in-bounds destination; the command completes. -/
  | stored (dst : Nat) (bytes : List Byte) (h : dst + bytes.length ≤ Config.dmemSize) :
      ExecShape i s (s.finishWith dst bytes)
  /-- An error is recorded; the command completes. -/
  | failed (code : ErrorCode) : ExecShape i s (s.raiseError code i.opcode.byte)

/-- Every command answers a next state of one of the four shapes. -/
theorem exec_shape (i : Instr) (s : State) : ∃ t, exec i s = .next t ∧ ExecShape i s t := by
  cases i with
  | nop => exact ⟨_, rfl, .plain⟩
  | gfMul a b => exact ⟨_, rfl, .scalar _⟩
  | gfExp index => exact ⟨_, rfl, .scalar _⟩
  | gfLog x =>
    obtain ⟨-, h⟩ | ⟨-, h⟩ := execGfLog_cases x s
    · exact ⟨_, h, .failed _⟩
    · exact ⟨_, h, .scalar _⟩
  | polyMul dst aAddr aLen bAddr bLen =>
    obtain ⟨-, h⟩ | ⟨-, hb, -, -, hd, h⟩ | ⟨-, -, -, h⟩ := execPolyMul_cases dst aAddr aLen bAddr bLen s
    · exact ⟨_, h, .failed _⟩
    · refine ⟨_, h, .stored _ _ ?_⟩
      have hne : s.memRead bAddr bLen ≠ [] := by
        intro hnil
        exact hb (by simpa using congrArg List.length hnil)
      simpa [polyMul_length hne, Config.dmemSize] using hd
    · exact ⟨_, h, .failed _⟩
  | polyDiv dst nAddr nLen dAddr dLen =>
    obtain ⟨-, h⟩ | ⟨-, -, -, -, hd, h⟩ | ⟨-, -, -, h⟩ := execPolyDiv_cases dst nAddr nLen dAddr dLen s
    · exact ⟨_, h, .failed _⟩
    · exact ⟨_, h, .stored _ _ (by simpa [Config.dmemSize] using hd)⟩
    · exact ⟨_, h, .failed _⟩
  | genPoly dst deg =>
    obtain ⟨hd, h⟩ | ⟨-, h⟩ := execGenPoly_cases dst deg s
    · exact ⟨_, h, .stored _ _ (by simpa [Config.dmemSize] using hd)⟩
    · exact ⟨_, h, .failed _⟩
  | rsEnc dst dataAddr dataLen ec =>
    obtain ⟨-, h⟩ | ⟨-, -, -, hd, h⟩ | ⟨-, -, -, h⟩ := execRsEnc_cases dst dataAddr dataLen ec s
    · exact ⟨_, h, .failed _⟩
    · exact ⟨_, h, .stored _ _ (by simpa [Config.dmemSize] using hd)⟩
    · exact ⟨_, h, .failed _⟩

end Sys2Proof.Machine
end

