-- ==== Sys2Proof/Laws/PerInstr.lean ====
section
/-! SUPPORT. A fact about every command, one lemma per constructor: the low byte of its word is its opcode
(30_encoding.md R71), whatever its operands. -/

namespace Sys2Proof.Laws.OpcodeByte

/-- The opcode field of the command's word is the opcode of 30_encoding.md R76. -/
def Statement (i : Instr) : Prop := fieldOp (encode i) = i.opcode.byte

theorem fieldOp_assembleS (op : Opcode) (a b : Byte) (idx : Nat) : fieldOp (assembleS op a b idx) = op.byte := by
  apply BitVec.eq_of_getLsbD_eq
  intro k hk
  have h1 : ¬ 8 ≤ k := by omega
  simp [fieldOp, assembleS, hk, show k < 16 by omega, show k < 32 by omega, show k < 64 by omega]

theorem fieldOp_assembleP (op : Opcode) (f1 f2 f3 f4 f5 : Nat) :
    fieldOp (assembleP op f1 f2 f3 f4 f5) = op.byte := by
  apply BitVec.eq_of_getLsbD_eq
  intro k hk
  simp [fieldOp, assembleP, hk, show k < 18 by omega, show k < 28 by omega, show k < 38 by omega,
    show k < 48 by omega, show k < 64 by omega]

theorem nop : Statement .nop := fieldOp_assembleS ..
theorem gfMul (a b : Byte) : Statement (.gfMul a b) := fieldOp_assembleS ..
theorem gfExp (index : Nat) : Statement (.gfExp index) := fieldOp_assembleS ..
theorem gfLog (x : Byte) : Statement (.gfLog x) := fieldOp_assembleS ..
theorem polyMul (dst aAddr aLen bAddr bLen : Nat) : Statement (.polyMul dst aAddr aLen bAddr bLen) :=
  fieldOp_assembleP ..
theorem polyDiv (dst nAddr nLen dAddr dLen : Nat) : Statement (.polyDiv dst nAddr nLen dAddr dLen) :=
  fieldOp_assembleP ..
theorem genPoly (dst deg : Nat) : Statement (.genPoly dst deg) := fieldOp_assembleP ..
theorem rsEnc (dst dataAddr dataLen ec : Nat) : Statement (.rsEnc dst dataAddr dataLen ec) := fieldOp_assembleP ..

end Sys2Proof.Laws.OpcodeByte
end

