-- ==== Sys2Proof/Laws/Step.lean ====
section
/-! SUPPORT. What a host access and a step can do, said once. -/

namespace Sys2Proof.Machine

/-! ## A host access -/

/-- A host access answers a next state exactly when it is admitted and no hazard, and that state is its effect. -/
theorem hostAccess_next_iff {a : HostAccess} {s t : State} :
    hostAccess a s = .next t ↔
      a.offset < Config.windowSize ∧ admitted a.width a.offset = true ∧
      (s.awaitingIdle = true → a.isStatusRead = true) ∧ t = a.perform s := by
  unfold hostAccess
  split <;> rename_i hw
  · simp; omega
  split <;> rename_i ha
  · simp at ha; simp [ha]
  simp only [Bool.not_eq_true', Bool.not_eq_false] at ha
  split <;> rename_i hb
  · simp only [Bool.and_eq_true, Bool.not_eq_true'] at hb
    simp [hb.1, hb.2]
  · simp only [Bool.and_eq_true, Bool.not_eq_true', not_and, Bool.not_eq_false] at hb
    simp only [Host.Outcome.next.injEq]
    constructor
    · intro h; exact ⟨by omega, ha, hb, h.symm⟩
    · intro h; exact h.2.2.2.symm

/-- What an admitted write to a register offset can do: CMD_LO, CMD_HI, CTRL, or nothing (10_state.md R29, R58). -/
theorem writeReg_cases (s : State) (offset : Nat) (v : Word32) :
    (offset = offCmdLo ∧ s.writeReg offset v = { s with cmdLo := v }) ∨
    (offset = offCmdHi ∧ s.writeReg offset v = { s with cmdHi := v }) ∨
    (offset = offCtrl ∧ s.writeReg offset v = s.writeCtrl v) ∨
    (offset ≠ offCmdLo ∧ offset ≠ offCmdHi ∧ offset ≠ offCtrl ∧ s.writeReg offset v = s) := by
  unfold State.writeReg
  split
  · exact .inl ⟨‹_›, rfl⟩
  split
  · exact .inr (.inl ⟨‹_›, rfl⟩)
  split
  · exact .inr (.inr (.inl ⟨‹_›, rfl⟩))
  · exact .inr (.inr (.inr ⟨‹_›, ‹_›, ‹_›, rfl⟩))

/-- What a write to CTRL does (10_state.md R32): the four values of its two bits. -/
theorem writeCtrl_cases (s : State) (v : Word32) :
    (v.getLsbD 1 = false ∧ v.getLsbD 0 = false ∧ s.writeCtrl v = s) ∨
    (v.getLsbD 1 = false ∧ v.getLsbD 0 = true ∧ s.err = true ∧ s.writeCtrl v = s) ∨
    (v.getLsbD 1 = false ∧ v.getLsbD 0 = true ∧ s.err = false ∧ s.writeCtrl v = s.startCommand) ∨
    (v.getLsbD 1 = true ∧ v.getLsbD 0 = false ∧ s.writeCtrl v = s.clearError) ∨
    (v.getLsbD 1 = true ∧ v.getLsbD 0 = true ∧ s.writeCtrl v = s.clearError.startCommand) := by
  unfold State.writeCtrl
  cases h1 : v.getLsbD 1 <;> cases h0 : v.getLsbD 0 <;> cases he : s.err <;> simp [he]

/-- Where an admitted write stores: a register, one DMEM byte, or the four bytes of an aligned word. -/
theorem portWrite_cases (s : State) (width offset : Nat) (v : Word32) :
    (offset < offDmem ∧ s.portWrite width offset v = s.writeReg offset v) ∨
    (offDmem ≤ offset ∧ width = 8 ∧
      s.portWrite width offset v = s.memWrite (offset - offDmem) [v.extractLsb' 0 8]) ∨
    (offDmem ≤ offset ∧ width ≠ 8 ∧ s.portWrite width offset v = s.memWrite (offset - offDmem) (busBytes v)) := by
  unfold State.portWrite
  split <;> rename_i ho
  · exact .inl ⟨ho, rfl⟩
  split <;> rename_i hw
  · exact .inr (.inl ⟨by omega, hw, rfl⟩)
  · exact .inr (.inr ⟨by omega, hw, rfl⟩)

/-- A read changes the host's own fields only (20_memory.md R59). -/
theorem perform_read (width offset : Nat) (dst : HostVar) (s : State) :
    (HostAccess.read width offset dst).perform s =
      { s.setVar dst (s.portRead width offset) with
        awaitingIdle := s.awaitingIdle && (s.busy || offset != offStatus) } := by
  simp only [HostAccess.perform, State.noteRead]
  by_cases h : offset = offStatus
  · simp [h, State.busy]
  · have hb : (offset != offStatus) = true := by simpa using h
    simp [h, hb, State.setVar]

/-- An accepted read: the value goes into its variable, and a STATUS read that shows BUSY = 0 ends the busy interval. -/
theorem hostRead_eq {width offset : Nat} {x : HostVar} {s t : State}
    (h : hostAccess (.read width offset x) s = .next t) :
    t = { s.setVar x (s.portRead width offset) with
          awaitingIdle := s.awaitingIdle && (s.busy || offset != offStatus) } := by
  obtain ⟨-, -, -, rfl⟩ := hostAccess_next_iff.mp h
  exact perform_read ..

/-- An accepted write: the host is outside the busy interval, and the write goes to CMD_LO, CMD_HI, CTRL, one byte or four
bytes of DMEM, or is ignored. -/
theorem hostWrite_cases {width offset : Nat} {v : Word32} {s t : State}
    (h : hostAccess (.write width offset v) s = .next t) :
    s.awaitingIdle = false ∧
    ((width = 32 ∧ offset = offCmdLo ∧ t = { s with cmdLo := v }) ∨
     (width = 32 ∧ offset = offCmdHi ∧ t = { s with cmdHi := v }) ∨
     (width = 32 ∧ offset = offCtrl ∧ t = s.writeCtrl v) ∨
     (width = 32 ∧ offset < offDmem ∧ offset ≠ offCmdLo ∧ offset ≠ offCmdHi ∧ offset ≠ offCtrl ∧ t = s) ∨
     (width = 8 ∧ offDmem ≤ offset ∧ offset < Config.windowSize ∧
       t = s.memWrite (offset - offDmem) [v.extractLsb' 0 8]) ∨
     (width = 32 ∧ offDmem ≤ offset ∧ offset % 4 = 0 ∧ offset < Config.windowSize ∧
       t = s.memWrite (offset - offDmem) (busBytes v))) := by
  obtain ⟨hw, ha, hz, rfl⟩ := hostAccess_next_iff.mp h
  change offset < Config.windowSize at hw
  change admitted width offset = true at ha
  simp only [admitted, Bool.and_eq_true, Bool.or_eq_true, decide_eq_true_eq] at ha
  constructor
  · cases hs : s.awaitingIdle
    · rfl
    · simpa [HostAccess.isStatusRead] using hz hs
  obtain ⟨ho, e⟩ | ⟨ho, hw8, e⟩ | ⟨ho, hw8, e⟩ := portWrite_cases s width offset v <;>
    rw [HostAccess.perform, e]
  · have h32 : width = 32 := by omega
    obtain ⟨h1, e⟩ | ⟨h1, e⟩ | ⟨h1, e⟩ | ⟨h1, h2, h3, e⟩ := writeReg_cases s offset v <;> rw [e]
    · exact .inl ⟨h32, h1, rfl⟩
    · exact .inr (.inl ⟨h32, h1, rfl⟩)
    · exact .inr (.inr (.inl ⟨h32, h1, rfl⟩))
    · exact .inr (.inr (.inr (.inl ⟨h32, ho, h1, h2, h3, rfl⟩)))
  · exact .inr (.inr (.inr (.inr (.inl ⟨hw8, ho, hw, rfl⟩))))
  · exact .inr (.inr (.inr (.inr (.inr ⟨by omega, ho, by omega, hw, rfl⟩))))

/-- The host step on each form of the remaining program (70_reset_and_hazards.md R190). -/
theorem hostStep_cases {s t : State} (h : hostStep s = .next t) :
    (s.program = [] ∧ t = s) ∨
    (∃ a rest, s.program = .access a :: rest ∧ hostAccess a (s.setProgram rest) = .next t) ∨
    (∃ rest, s.program = .wait :: rest ∧
      hostAccess statusPoll (s.setProgram (if statusBusy s.status then .wait :: rest else rest)) = .next t) := by
  unfold hostStep at h
  split at h
  · exact .inl ⟨‹_›, by simpa using h.symm⟩
  · exact .inr (.inl ⟨_, _, ‹_›, h⟩)
  · exact .inr (.inr ⟨_, ‹_›, h⟩)

/-! ## The core's step, and one step of the machine -/

/-- `Execute(w)` always answers a next state: the command's, or the record of ILLEGAL_COMMAND (30_encoding.md R77). -/
theorem execute_cases (w : Word64) (s : State) :
    (∃ i t, decode w = .ok i ∧ execute w s = .next t ∧ exec i s = .next t ∧ ExecShape i s t) ∨
    (∃ e, decode w = .error e ∧ execute w s = .next (s.raiseError .illegalCommand (fieldOp w))) := by
  unfold execute
  cases hd : decode w with
  | ok i =>
    obtain ⟨t, ht, hs⟩ := exec_shape i s
    exact .inl ⟨i, t, rfl, ht, ht, hs⟩
  | error e => exact .inr ⟨e, rfl, rfl⟩

/-- What no command changes: CMD, the host, the schedule and the reset count; and every command completes. -/
theorem execute_frame {w : Word64} {s t : State} (h : execute w s = .next t) :
    t.cmdLo = s.cmdLo ∧ t.cmdHi = s.cmdHi ∧ t.pending = none ∧ t.program = s.program ∧ t.hostVars = s.hostVars ∧
      t.awaitingIdle = s.awaitingIdle ∧ t.schedule = s.schedule ∧ t.resets = s.resets := by
  obtain ⟨i, t', -, h', -, hs⟩ | ⟨e, -, h'⟩ := execute_cases w s <;> rw [h'] at h <;> cases h
  · cases hs <;> simp
  · simp

/-- One step, by whose turn it is (70_reset_and_hazards.md R190). -/
theorem step_cases {s t : State} (h : step s = .next t) :
    (nextTurn s = .core ∧ s.pending = none ∧ t = popTurn s) ∨
    (∃ w, nextTurn s = .core ∧ s.pending = some w ∧ execute w (popTurn s) = .next t) ∨
    (nextTurn s = .host ∧ hostStep (popTurn s) = .next t) ∨
    (nextTurn s = .reset ∧ t = resetStep (popTurn s)) := by
  unfold step at h
  split at h
  · unfold coreStep at h
    split at h <;> rename_i hp
    · exact .inr (.inl ⟨_, ‹_›, hp, h⟩)
    · exact .inl ⟨‹_›, hp, by simpa using h.symm⟩
  · exact .inr (.inr (.inl ⟨‹_›, h⟩))
  · exact .inr (.inr (.inr ⟨‹_›, by simpa using h.symm⟩))

end Sys2Proof.Machine
end

