-- ==== Sys2Proof/Laws/Run.lean ====
section
/-! SUPPORT. Runs of several steps (Host.Core.run), one step or one stretch at a time. -/

namespace Sys2Proof.Machine

theorem run_succ_next (M : Host.Core) (k : Nat) {s t : M.State} (h : M.step s = .next t) :
    M.run (k + 1) s = M.run k t := by
  rw [Host.Core.run, h]

theorem run_succ_fault (M : Host.Core) (k : Nat) {s : M.State} {r : M.Fault} (h : M.step s = .fault r) :
    M.run (k + 1) s = .fault r := by
  rw [Host.Core.run, h]

theorem run_succ_refused (M : Host.Core) (k : Nat) {s : M.State} {r : M.Refusal} (h : M.step s = .refused r) :
    M.run (k + 1) s = .refused r := by
  rw [Host.Core.run, h]

theorem run_add_next (M : Host.Core) (j k : Nat) {s t : M.State} (h : M.run j s = .next t) :
    M.run (j + k) s = M.run k t := by
  induction j generalizing s with
  | zero =>
    rw [Host.Core.run, Host.Outcome.next.injEq] at h
    rw [Nat.zero_add, h]
  | succ j ih =>
    cases hs : M.step s with
    | next u =>
      rw [run_succ_next M j hs] at h
      rw [Nat.succ_add, run_succ_next M _ hs, ih h]
    | fault r => rw [run_succ_fault M j hs] at h; cases h
    | refused r => rw [run_succ_refused M j hs] at h; cases h

/-- A run that begins with a step to `t` goes on as a run from `t`. -/
theorem run_succ {s t : State} (k : Nat) (h : step s = .next t) :
    Sys2Proof.core.run (k + 1) s = Sys2Proof.core.run k t :=
  run_succ_next Sys2Proof.core k h

/-- A run of `j + k` steps is `j` steps and then `k` steps. -/
theorem run_add {s t : State} (j k : Nat) (h : Sys2Proof.core.run j s = .next t) :
    Sys2Proof.core.run (j + k) s = Sys2Proof.core.run k t :=
  run_add_next Sys2Proof.core j k h

/-- A host turn on a program whose next operation is an access. -/
theorem step_host_access {s : State} {a : HostAccess} {rest : List HostOp} (hT : nextTurn s = .host)
    (hp : s.program = .access a :: rest) : step s = hostAccess a ((popTurn s).setProgram rest) := by
  simp [step, hT, hostStep, hp]

/-- A host turn on a program whose next operation is `wait`. -/
theorem step_host_wait {s : State} {rest : List HostOp} (hT : nextTurn s = .host) (hp : s.program = .wait :: rest) :
    step s = hostAccess statusPoll
      ((popTurn s).setProgram (if statusBusy (popTurn s).status then .wait :: rest else rest)) := by
  simp [step, hT, hostStep, hp]

/-- A core turn with a command in flight. -/
theorem step_core {s : State} {w : Word64} (hT : nextTurn s = .core) (hp : s.pending = some w) :
    step s = execute w (popTurn s) := by
  simp [step, hT, coreStep, hp]

/-- STATUS.BUSY of the value read is the machine's BUSY. -/
@[simp] theorem statusBusy_status (s : State) : statusBusy s.status = s.busy := by
  simp only [statusBusy, State.status, BitVec.getLsbD_append]
  cases s.busy <;> rfl

end Sys2Proof.Machine
end

