-- ==== Sys2Proof/Tests/Slice0.lean ====
section
/-! SUPPORT. Tests of the model against the spec's own words, tables and vectors (30_encoding.md, 95_test_vectors.md), and
for every statement with hypotheses a witness that meets all of them together. -/

open Sys2Proof Sys2Proof.Machine Sys2Proof.Spec

namespace Sys2Proof.Tests

/-! ## Helpers -/

/-- A property of the next state, where there is one. -/
def nextHas (o : Host.Outcome State Fault Refusal) (p : State → Bool) : Bool :=
  match o with
  | .next t => p t
  | .fault _ => false
  | .refused _ => false

theorem exists_next {o : Host.Outcome State Fault Refusal} {P : State → Prop} [DecidablePred P]
    (h : nextHas o (fun t => decide (P t)) = true) : ∃ t, o = .next t ∧ P t := by
  cases o with
  | next t => exact ⟨t, rfl, of_decide_eq_true h⟩
  | fault r => cases h
  | refused r => cases h

/-- A machine after power-on whose DMEM holds these bytes from address 0 on. -/
def withBytes (bytes : List Byte) : State := State.reset.memWrite 0 bytes

/-- The same with a command word in CMD and in flight, the core's turn next. -/
def inFlight (w : Word64) (bytes : List Byte) : State := (withBytes bytes).loadCommand w

/-- A machine after power-on with a host program and a schedule. -/
def withHost (p : List HostOp) (turns : List Turn) : State := { State.reset with program := p, schedule := turns }

/-- An error of an earlier command stands recorded: ILLEGAL_COMMAND of opcode 0x04 (E1). -/
def afterError : State := withError State.reset 0x03 0x04

/-- STATUS and RESULT after the core's step on a word, DMEM as given (the columns of 95_test_vectors.md, section 2). -/
def statusAndResult (w : Word64) (bytes : List Byte) : Option (Word32 × Word32) :=
  match step (inFlight w bytes) with
  | .next t => some (t.status, t.resultWord)
  | .fault _ => none
  | .refused _ => none

/-- A range of DMEM after the core's step on a word. -/
def rangeAfter (w : Word64) (bytes : List Byte) (base len : Nat) : Option (List Byte) :=
  match step (inFlight w bytes) with
  | .next t => some (t.memRead base len)
  | .fault _ => none
  | .refused _ => none

/-! ## Well-formedness refuses an ill-formed term for each check (R72, R73, R80) -/

theorem test_wf_gfExp : (Instr.gfExp 4294967296).wellFormed = false := by decide
theorem test_wf_polyMul :
    (Instr.polyMul 1024 0 2 2 2).wellFormed = false ∧ (Instr.polyMul 0 1024 2 2 2).wellFormed = false ∧
    (Instr.polyMul 0 0 1024 2 2).wellFormed = false ∧ (Instr.polyMul 0 0 2 1024 2).wellFormed = false ∧
    (Instr.polyMul 0 0 2 2 1024).wellFormed = false := by decide
theorem test_wf_polyDiv :
    (Instr.polyDiv 1024 0 2 2 2).wellFormed = false ∧ (Instr.polyDiv 0 1024 2 2 2).wellFormed = false ∧
    (Instr.polyDiv 0 0 1024 2 2).wellFormed = false ∧ (Instr.polyDiv 0 0 2 1024 2).wellFormed = false ∧
    (Instr.polyDiv 0 0 2 2 1024).wellFormed = false := by decide
theorem test_wf_genPoly :
    (Instr.genPoly 1024 0).wellFormed = false ∧ (Instr.genPoly 0 1024).wellFormed = false := by decide
theorem test_wf_rsEnc :
    (Instr.rsEnc 1024 0 1 1).wellFormed = false ∧ (Instr.rsEnc 0 1024 1 1).wellFormed = false ∧
    (Instr.rsEnc 0 0 1024 1).wellFormed = false ∧ (Instr.rsEnc 0 0 1 1024).wellFormed = false := by decide

/-! ## Decoding: words written out from the tables of R72, R73 and R76 -/

-- format S: IDX (32 bits), RSV (8), B (8), A (8), OP (8)
theorem test_decode_nop : decode (0#32 ++ 0#8 ++ 0#8 ++ 0#8 ++ 0x00#8) = .ok .nop := by decide +kernel
theorem test_decode_gfMul : decode (0#32 ++ 0#8 ++ 0xCA#8 ++ 0x53#8 ++ 0x01#8) = .ok (.gfMul 0x53 0xCA) := by
  decide +kernel
theorem test_decode_gfExp : decode (0xFFFFFFFF#32 ++ 0#8 ++ 0#8 ++ 0#8 ++ 0x02#8) = .ok (.gfExp 4294967295) := by
  decide +kernel
theorem test_decode_gfLog : decode (0#32 ++ 0#8 ++ 0#8 ++ 0x8E#8 ++ 0x03#8) = .ok (.gfLog 0x8E) := by decide +kernel
-- format P: RSV (6), F5 (10), F4 (10), F3 (10), F2 (10), F1 (10), OP (8)
theorem test_decode_polyMul :
    decode (0#6 ++ 5#10 ++ 4#10 ++ 3#10 ++ 2#10 ++ 1#10 ++ 0x10#8) = .ok (.polyMul 5 1 2 3 4) := by decide +kernel
theorem test_decode_polyDiv :
    decode (0#6 ++ 1023#10 ++ 4#10 ++ 513#10 ++ 2#10 ++ 1#10 ++ 0x11#8) = .ok (.polyDiv 1023 1 2 513 4) := by
  decide +kernel
theorem test_decode_genPoly :
    decode (0#6 ++ 0x200#10 ++ 10#10 ++ 0#10 ++ 0#10 ++ 0#10 ++ 0x20#8) = .ok (.genPoly 0x200 10) := by decide +kernel
theorem test_decode_rsEnc :
    decode (0#6 ++ 16#10 ++ 10#10 ++ 0#10 ++ 17#10 ++ 1#10 ++ 0x30#8) = .ok (.rsEnc 16 1 17 10) := by decide +kernel

-- 95_test_vectors.md E1, E4, E6, PM19, GP8, RS25: what is refused, and why
theorem test_decode_refuses :
    decode 0x0000000000000004 = .error (.unlistedOpcode 0x04) ∧
    decode 0x0000000000000100 = .error (.reservedBits .nop) ∧
    decode 0x0000000100000001 = .error (.reservedBits .gfMul) ∧
    decode 0x0420008100080010 = .error (.reservedBits .polyMul) ∧
    decode 0x0000008000000120 = .error (.reservedBits .genPoly) ∧
    decode 0x0010000050040030 = .error (.reservedBits .rsEnc) := by decide +kernel

-- R80's two examples; 95_test_vectors.md PM11, PD13, GP4
theorem test_encode :
    encode (.gfMul 0x02 0x80) = 0x0000000000800201 ∧ encode (.rsEnc 16 0 16 10) = 0x0010028000400030 ∧
    encode (.polyMul 1 0 2 2 2) = 0x0001008020080010 ∧ encode (.polyDiv 0 0 3 3 2) = 0x00000080300C0011 ∧
    encode (.genPoly 1019 4) = 0x03FB010000000020 := by decide +kernel

theorem test_decodeTableWord :
    decodeTableWord 64 0x0010028000400030 = some (.rsEnc 16 0 16 10) ∧ decodeTableWord 64 0x04 = none ∧
    decodeTableWord 8 0x00 = some .nop ∧ decodeTableWord 8 0x101 = none := by decide +kernel

/-! ## The assembler (R80) -/

theorem test_assemble :
    assembleLine "gf.mul 0x02, 0x80".toList = some 0x0000000000800201 ∧
    assembleLine "rs.enc 16, 0, 16, 10".toList = some 0x0010028000400030 ∧
    assembleLine "nop".toList = some 0 := by decide +kernel

-- "An operand that does not fit its field is an assembly error" (R80)
theorem test_assemble_refuses :
    assembleLine "gf.mul 256, 0".toList = none ∧ assembleLine "gf.exp 4294967296".toList = none ∧
    assembleLine "gen.poly 1024, 0".toList = none ∧ assembleLine "gf.log".toList = none ∧
    assembleLine "gf.inv 3".toList = none := by decide +kernel

/-! ## The commands: rows of 95_test_vectors.md -/

-- S35
theorem test_nop : statusAndResult 0x0000000000000000 [] = some (0, 0) := by decide +kernel
-- S9, S14a
theorem test_gfMul_reduces : statusAndResult 0x0000000000CA5301 [] = some (0, 0x8F) := by decide +kernel
theorem test_gfMul_largest_sum : statusAndResult 0x00000000008E8E01 [] = some (0, 0x47) := by decide +kernel
-- R107: 0xFFFFFFFF gives 0x01, 300 gives 0xC1
theorem test_gfExp_largest : statusAndResult 0xFFFFFFFF00000002 [] = some (0, 0x01) := by decide +kernel
theorem test_gfExp_wraps : statusAndResult 0x0000012C00000002 [] = some (0, 0xC1) := by decide +kernel
-- S32, S34
theorem test_gfLog : statusAndResult 0x0000000000008E03 [] = some (0, 254) := by decide +kernel
theorem test_gfLog_of_zero : statusAndResult 0x0000000000000003 [] = some (0x00030102, 0) := by decide +kernel
-- PM11, PM14
theorem test_polyMul_overlap : rangeAfter 0x0001008020080010 [1, 1, 1, 2] 0 4 = some [1, 1, 3, 2] := by decide +kernel
theorem test_polyMul_priority : statusAndResult 0x03FF008100000010 [] = some (0x00100102, 0) := by decide +kernel
-- PD13
theorem test_polyDiv_in_place : rangeAfter 0x00000080300C0011 [1, 0, 0, 1, 1] 0 5 = some [0, 0, 1, 1, 1] := by
  decide +kernel
-- R125's non-monic examples
theorem test_polyDiv_not_monic : polyDiv [1, 0, 0] [2, 1] = [3, 3, 1] ∧ polyDiv [1, 0, 0] [0, 1] = [1, 1, 1] := by
  decide +kernel
-- GP4, GP5
theorem test_genPoly_at_end : rangeAfter 0x03FB010000000020 [] 1019 5 = some [1, 15, 54, 120, 64] := by decide +kernel
theorem test_genPoly_range : statusAndResult 0x03FC010000000020 [] = some (0x00200202, 0) := by decide +kernel
-- L1-1, RS24 (destination over the data)
theorem test_rsEnc_golden :
    rangeAfter 0x0010028000400030 [32, 91, 11, 120, 209, 114, 220, 77, 67, 64, 236, 17, 236, 17, 236, 17] 16 10 =
      some [196, 35, 39, 119, 235, 215, 231, 226, 93, 23] := by decide +kernel
theorem test_rsEnc_overlap :
    rangeAfter 0x0000028000400030 [32, 91, 11, 120, 209, 114, 220, 77, 67, 64, 236, 17, 236, 17, 236, 17] 0 16 =
      some [196, 35, 39, 119, 235, 215, 231, 226, 93, 23, 236, 17, 236, 17, 236, 17] := by decide +kernel
-- E2, E4: ERROP holds the opcode byte as written
theorem test_illegal :
    statusAndResult 0x00000000000000FF [] = some (0x00FF0302, 0) ∧
    statusAndResult 0x0000000000000100 [] = some (0x00000302, 0) := by decide +kernel

/-! ## The host port: rows H1 to H13 -/

-- H1, H2: little-endian
theorem test_host_bytes :
    nextHas (hostAccess (.write 32 0x400 0x780B5B20) State.reset) (fun t =>
      t.memRead 0 4 == [0x20, 0x5B, 0x0B, 0x78] &&
      nextHas (hostAccess (.write 8 0x402 0xAA) t) fun u => u.portRead 32 0x400 == 0x78AA5B20) = true := by
  decide +kernel
-- H3 to H6, H8
theorem test_host_registers :
    State.reset.portRead 32 0x008 = 0 ∧
    (State.reset.portWrite 32 0x014 0xFFFFFFFF).portRead 32 0x014 = 0 ∧ State.reset.portRead 32 0x3FC = 0 ∧
    (State.reset.portWrite 32 0x00C 0xFFFFFFFF).portRead 32 0x00C = 0 ∧
    (State.reset.portWrite 32 0x000 0xDEADBEEF).portRead 32 0x000 = 0xDEADBEEF := by decide +kernel
-- H9, H10, and an access in the busy interval (R185)
theorem test_host_refusals :
    hostAccess (.write 8 0x000 1) State.reset = .refused (.hostAccessNotAdmitted 8 0x000) ∧
    hostAccess (.read 32 0x402 pollVar) State.reset = .refused (.hostAccessNotAdmitted 32 0x402) ∧
    hostAccess (.read 32 0x010 pollVar) (inFlight 0 []) = .refused (.busyHazard 0x010) :=
  ⟨rfl, rfl, rfl⟩
-- H13: after reset, GO and wait run NOP
theorem test_host_go_after_reset :
    nextHas (Sys2Proof.core.run 5 (withHost [.access (.write 32 0x008 1), .wait] [.host, .host, .host, .core, .host]))
      (fun t => t.status == 0 && t.program == [] && !t.awaitingIdle) = true := by decide +kernel

/-- The word is fetched and run by the very next step, also from a state that has stopped on an error. -/
theorem test_withFetchWord :
    nextHas (step (State.reset.withFetchWord 64 0x0000000000070301)) (fun t => t.resultWord == 9) = true ∧
    nextHas (step (afterError.withFetchWord 64 0x0000000000070301)) (fun t => t.resultWord == 9 && !t.err) = true := by
  decide +kernel

/-! ## Witnesses: for each statement with hypotheses, states and operands that meet them together

In the order of the statements; one for each clause, at boundary values. -/

theorem witness_DecodeInvertsEncode :
    (Instr.gfExp 4294967295).wellFormed = true ∧ (Instr.polyMul 1023 1023 1023 1023 1023).wellFormed = true ∧
    (Instr.polyDiv 0 1023 0 1023 0).wellFormed = true ∧ (Instr.genPoly 1023 1023).wellFormed = true ∧
    (Instr.rsEnc 1023 1023 1023 1023).wellFormed = true ∧ (Instr.gfMul 255 255).wellFormed = true := by decide

theorem witness_EncodeInvertsDecode :
    decode 0xFFFFFFFF00000002 = .ok (.gfExp 4294967295) ∧
    decode 0x03FFFFFFFFFFFF10 = .ok (.polyMul 1023 1023 1023 1023 1023) := by decide +kernel

-- an illegal word of each disjunct: E1, E4, E5, E7, E8, PM19, GP8 and bit 58 of it, RS25 and bit 58 of it
theorem witness_illegal_words :
    IllegalWord 0x0000000000000004 ∧ IllegalWord 0x0000000000000100 ∧ IllegalWord 0x0000000001000001 ∧
    IllegalWord 0x0000000000000102 ∧ IllegalWord 0x0000000000010003 ∧ IllegalWord 0x0420008100080010 ∧
    IllegalWord 0x0400000000000011 ∧ IllegalWord 0x0000008000000120 ∧ IllegalWord 0x0400008000000020 ∧
    IllegalWord 0x0010000050040030 ∧ IllegalWord 0x8010000000040030 := by
  refine ⟨?_, ?_, ?_, ?_, ?_, ?_, ?_, ?_, ?_, ?_, ?_⟩ <;> unfold IllegalWord <;> dsimp only <;> decide +kernel

theorem witness_legal_words :
    ¬ IllegalWord 0 ∧ ¬ IllegalWord 0x0000000000FFFF01 ∧ ¬ IllegalWord 0xFFFFFFFF00000002 ∧
    ¬ IllegalWord 0x000000000000FF03 ∧ ¬ IllegalWord 0x03FFFFFFFFFFFF10 ∧ ¬ IllegalWord 0x03FFFFFFFFFFFF11 ∧
    ¬ IllegalWord 0x03FFFFC000000020 ∧ ¬ IllegalWord 0x03FFFFC00FFFFF30 := by
  refine ⟨?_, ?_, ?_, ?_, ?_, ?_, ?_, ?_⟩ <;> unfold IllegalWord <;> dsimp only <;> decide +kernel

theorem witness_IllegalWordRecordsIllegalCommand :
    (inFlight 0x0000000000000004 []).pending = some 0x0000000000000004 ∧ IllegalWord 0x0000000000000004 ∧
    (inFlight 0 []).pending = some 0 ∧ ¬ IllegalWord 0 :=
  ⟨by decide +kernel, witness_illegal_words.1, by decide +kernel, witness_legal_words.1⟩

/-- Numerals of both bases, operands at their bounds, one too large, one too few, and a line with its operand written. -/
theorem witness_AssembledLineIsALegalWord :
    (([1, 0, 9] : List Nat) ≠ [] ∧ ∀ d ∈ [1, 0, 9], d < 10) ∧ (([0, 15] : List Nat) ≠ [] ∧ ∀ d ∈ [0, 15], d < 16) ∧
    List.Forall₂ (· < ·) [255, 0] (operandBounds .gfMul) ∧ List.Forall₂ (· < ·) [2 ^ 32 - 1] (operandBounds .gfExp) ∧
    List.Forall₂ (· < ·) [1023, 1023] (operandBounds .genPoly) ∧
    ¬ List.Forall₂ (· < ·) [256, 0] (operandBounds .gfMul) ∧ ¬ List.Forall₂ (· < ·) [1] (operandBounds .gfMul) ∧
    assembleLine "gen.poly 1023, 1023".toList = some 0x03FFFFC000000020 ∧
    parseLine " gf.log 0x8E ".toList = some (.gfLog 0x8E) ∧ (Instr.gfLog 0x8E).wellFormed = true ∧
    LineOf " gf.log 0x8E ".toList .gfLog (operandValues (.gfLog 0x8E)) := by
  refine ⟨by decide, by decide, by simp [operandBounds], by simp [operandBounds], by simp [operandBounds],
    by simp [operandBounds], by simp [operandBounds], by decide +kernel, by decide +kernel, rfl,
    [' '], [' '], [⟨[], "0x8E".toList, [' '], 0x8E⟩], by decide +kernel, by decide +kernel, by simp [isBlank],
    by simp [isBlank], by simp, ?_⟩
  intro o ho
  rw [List.mem_singleton.mp ho]
  exact ⟨by simp, by decide +kernel, by simp [isBlank]⟩

theorem witness_StepRunsDecodedCommand :
    (nextTurn (inFlight 0x0000000000800201 []) = .core ∧
      (inFlight 0x0000000000800201 []).pending = some 0x0000000000800201 ∧
      decode 0x0000000000800201 = .ok (.gfMul 0x02 0x80)) ∧
    (nextTurn (withHost [.access (.write 8 0x000 1)] []) = .host ∧
      hostAccess (.write 8 0x000 1) (withHost [.access (.write 8 0x000 1)] []) =
        .refused (.hostAccessNotAdmitted 8 0x000)) ∧
    (nextTurn (withHost [.access (.write 8 0x800 1)] []) = .host ∧
      hostAccess (.write 8 0x800 1) (withHost [.access (.write 8 0x800 1)] []) =
        .fault (.hostOffsetOutsideWindow 0x800)) ∧
    (nextTurn (withHost [.wait] []) = .host ∧ (withHost [.wait] []).pending = none) ∧
    (nextTurn { withHost [.wait] [.host] with pending := some 0, awaitingIdle := true } = .host ∧
      (some 0 : Option Word64) ≠ none) :=
  ⟨by decide +kernel, ⟨by decide, rfl⟩, ⟨by decide, rfl⟩, by decide, by decide⟩

/-- A machine whose program is one `exec`, with two polls before the core's turn. -/
def execRun : State :=
  withHost (HostStmt.expand (.exec 0x0000000000800201) ++ [HostOp.access (.read 32 0x010 ⟨1, 0⟩)])
    [.host, .host, .host, .host, .host, .core, .host, .host]

theorem witness_ExecStatementRunsCommandAfterAnyPolls :
    execRun.pending = none ∧ execRun.awaitingIdle = false ∧ execRun.err = false ∧
    execRun.program = HostStmt.expand (.exec 0x0000000000800201) ++ [HostOp.access (.read 32 0x010 ⟨1, 0⟩)] ∧
    execRun.schedule = List.replicate (3 + 2) Turn.host ++ Turn.core :: Turn.host :: [Turn.host] := by decide +kernel

/-- The invariant of a machine with no command in flight and no error. -/
theorem inv_of_idle {s : State} (hm : Memory.wf s.dmem = true) (hp : s.pending = none) (he : s.err = false)
    (hc : s.errCode = 0) (ho : s.errOp = 0) : Inv s where
  dmemCanonical := hm
  pendingIsCmd := by simp [hp]
  busyNoError := by simp [State.busy, hp]
  busyAwaited := by simp [State.busy, hp]
  noErrorNoCode := fun _ => ⟨hc, ho⟩
  errorHasCode := by simp [he]

/-- The invariant of a machine with the command of CMD in flight and no error. -/
theorem inv_of_busy {s : State} (hm : Memory.wf s.dmem = true) (hp : s.pending = some s.cmd) (he : s.err = false)
    (ha : s.awaitingIdle = true) (hc : s.errCode = 0) (ho : s.errOp = 0) : Inv s where
  dmemCanonical := hm
  pendingIsCmd := by simp [hp]
  busyNoError := fun _ => he
  busyAwaited := fun _ => ha
  noErrorNoCode := fun _ => ⟨hc, ho⟩
  errorHasCode := by simp [he]

/-- The invariant of the machine that has stopped on an error. -/
theorem inv_afterError : Inv afterError where
  dmemCanonical := by decide
  pendingIsCmd := fun w h => by cases h
  busyNoError := fun h => by cases h
  busyAwaited := fun h => by cases h
  noErrorNoCode := fun h => by cases h
  errorHasCode := fun _ => ⟨.illegalCommand, rfl⟩

/-- The program of `execRun` under the schedule that a machine follows by itself. -/
def execRunUnscheduled : State := { execRun with schedule := [] }

theorem witness_ResultsAgreeUnderEverySchedule :
    Inv execRun ∧ execRunUnscheduled = { execRun with schedule := execRunUnscheduled.schedule } ∧
    (∃ t, Sys2Proof.core.run 8 execRun = .next t ∧
      (t.resets = execRun.resets ∧ t.program = [] ∧ t.pending = none)) ∧
    (∃ t, Sys2Proof.core.run 6 execRunUnscheduled = .next t ∧
      (t.resets = execRun.resets ∧ t.program = [] ∧ t.pending = none)) ∧
    (⟨1, 0⟩ : HostVar) ≠ pollVar ∧
    ∀ width, HostOp.access (.read width 0x00C ⟨1, 0⟩) ∉ execRun.program := by
  refine ⟨inv_of_idle (by decide) rfl rfl rfl rfl, rfl, exists_next (by decide +kernel), exists_next (by decide +kernel),
    by decide, fun width h => ?_⟩
  simp [execRun, withHost, HostStmt.expand] at h

theorem witness_EndedMachineStandsStill : State.reset.ended ∧ nextTurn State.reset ≠ .reset :=
  ⟨⟨rfl, rfl⟩, by decide⟩

theorem witness_GfLogAndGfExpInvertEachOther : (255 : Byte) ≠ 0 ∧ (1 : Byte) ≠ 0 ∧ 254 ≤ 254 ∧ 255 < 256 := by decide

theorem witness_GfMulIsFieldMultiplication : (1 : Byte) ≠ 0 ∧ (255 : Byte) ≠ 0 ∧ 254 ≤ 254 := by decide

theorem witness_RomsHoldTheDoublingTable : 0 ≤ 254 ∧ 254 ≤ 254 := by decide

-- PM16's shape, with the second source at the end of DMEM too
theorem witness_PolyMulStoresAccumulationLoop :
    ([1] : List Byte) ≠ [] ∧ (2 : Nat) ≠ 0 ∧ 0 + 2 ≤ 1024 ∧ 1022 + 2 ≤ 1024 ∧ 1021 + (2 + 2 - 1) ≤ 1024 := by decide

theorem witness_PolyMulIsTheTrueProduct :
    ([1, 2] : List Byte) ≠ [] ∧ ([1, 3] : List Byte) ≠ [] ∧ 2 < 2 + 2 - 1 ∧ ([1, 2] : List Byte).getD 0 0 = 1 ∧
    ([1, 3] : List Byte).getD 0 0 = 1 := by decide

theorem witness_PolyDivStoresSweep :
    1 ≤ ([0] : List Byte).length ∧ ([0] : List Byte).length ≤ ([5] : List Byte).length ∧ 1 ≤ 1 ∧ 1 ≤ 1 ∧
    1023 + 1 ≤ 1024 ∧ 0 + 1023 ≤ 1024 ∧ 1 + 1023 ≤ 1024 := by decide

theorem witness_PolyDivByMonicLeavesRemainder :
    ([1, 5] : List Byte).getD 0 0 = 1 ∧ ([1, 5] : List Byte).length ≤ ([7, 8] : List Byte).length := by decide

theorem witness_PolyDivCornerCases :
    ([5, 6, 7] : List Byte) ≠ [] ∧ ([0, 1] : List Byte) ≠ [] ∧ ([5, 6] : List Byte).length = ([0, 1] : List Byte).length ∧
    ([0, 1] : List Byte).length ≤ 2 ∧ (divRounds [0, 5, 6] [1, 3] 0).getD 0 0 = 0 := by decide

/-- Words that fail on a precondition (RS18), on a precondition and a range (PD16), on a range (GP7, PM17), and on nothing
(S4). -/
theorem witness_ExactlyOneErrorInPriorityOrder :
    (inFlight 0x0010000000040030 []).pending = some 0x0010000000040030 ∧
    decode 0x0010000000040030 = .ok (.rsEnc 16 0 1 0) ∧ InvalidArgument (.rsEnc 16 0 1 0) ∧
    decode 0x002000BFF0040011 = .ok (.polyDiv 32 0 1 1023 2) ∧ InvalidArgument (.polyDiv 32 0 1 1023 2) ∧
    RangeOutOfBounds (.polyDiv 32 0 1 1023 2) ∧
    decode 0x0001FFC000000020 = .ok (.genPoly 1 1023) ∧ ¬ InvalidArgument (.genPoly 1 1023) ∧
    RangeOutOfBounds (.genPoly 1 1023) ∧
    decode 0x00000081000BFF10 = .ok (.polyMul 0 1023 2 16 2) ∧ ¬ InvalidArgument (.polyMul 0 1023 2 16 2) ∧
    RangeOutOfBounds (.polyMul 0 1023 2 16 2) ∧
    decode 0x0000000000AB0101 = .ok (.gfMul 0x01 0xAB) ∧ ¬ InvalidArgument (.gfMul 0x01 0xAB) ∧
    ¬ RangeOutOfBounds (.gfMul 0x01 0xAB) := by
  unfold InvalidArgument RangeOutOfBounds; decide +kernel

theorem witness_GenPolyStoresGenerator : 1019 + 4 + 1 ≤ 1024 ∧ 0 + 1023 + 1 ≤ 1024 := by decide

theorem witness_GenPolyIsMonicWithAlphaPowersAsRoots : 0 ≤ 255 ∧ 255 ≤ 255 := by decide

theorem witness_GenPolyDegreesOf255AndAbove : (1 : Byte) ≠ 0 ∧ 255 ≤ 255 ∧ 768 + 255 + 1 ≤ 1024 ∧ 255 ≤ 1023 ∧
    0 + 1023 + 1 ≤ 1024 := by decide

theorem witness_RsEncStoresRemainder :
    ([0] : List Byte) ≠ [] ∧ 1 ≤ 1 ∧ (3 : Nat) ≠ 0 ∧ (1 : Nat) ≠ 0 ∧ 1023 + 1 ≤ 1024 ∧ 1021 + 3 ≤ 1024 := by decide

/-- Two machines with the same data byte at different addresses, and RS_ENC on both. -/
theorem witness_RsEncodeIsLinearAndDivisible :
    ([1, 2] : List Byte) ≠ [] ∧ 1 ≤ 1 ∧ ([3, 4] : List Byte).length = ([1, 2] : List Byte).length ∧
    1023 + 1 ≤ 1024 ∧ 1021 + 3 ≤ 1024 ∧
    (withBytes [7, 5]).memRead 1 1 = (State.reset.memWrite 1023 [5]).memRead 1023 1 ∧
    (∃ t, exec (.rsEnc 1021 1 1 3) (withBytes [7, 5]) = .next t ∧ t.pending = none) ∧
    (∃ t, exec (.rsEnc 0 1023 1 3) (State.reset.memWrite 1023 [5]) = .next t ∧ t.pending = none) :=
  ⟨by decide, by decide, by decide, by decide, by decide, by decide, exists_next (by decide +kernel),
    exists_next (by decide +kernel)⟩

/-- One data byte whose codeword ends at the last byte of DMEM (RS2). -/
theorem witness_RsEncLeavesCodewordWithGeneratorRoots :
    1 ≤ 1 ∧ 1 ≤ 1 ∧ 1022 + 1 + 1 ≤ 1024 ∧
    (∃ t, exec (.rsEnc (1022 + 1) 1022 1 1) (State.reset.memWrite 1022 [1]) = .next t ∧ t.memRead 1022 2 = [1, 1]) :=
  ⟨by decide, by decide, by decide, exists_next (by decide +kernel)⟩

theorem witness_GoldenVectorEncodes :
    (withBytes [32, 91, 11, 120, 209, 114, 220, 77, 67, 64, 236, 17, 236, 17, 236, 17]).memRead 0 16 =
      [32, 91, 11, 120, 209, 114, 220, 77, 67, 64, 236, 17, 236, 17, 236, 17] := by decide +kernel

/-- Two machines that agree on the sources of a product and differ elsewhere. -/
theorem witness_CommandResultDependsOnlyOnItsSources :
    (∀ r ∈ sources (.polyMul 32 0 2 0 2), (withBytes [1, 2]).memRead r.1 r.2 = (withBytes [1, 2, 9]).memRead r.1 r.2) ∧
    (∃ t, exec (.polyMul 32 0 2 0 2) (withBytes [1, 2]) = .next t ∧ t.err = false) ∧
    (∃ t, exec (.polyMul 32 0 2 0 2) (withBytes [1, 2, 9]) = .next t ∧ t.err = false) :=
  ⟨by decide +kernel, exists_next (by decide +kernel), exists_next (by decide +kernel)⟩

theorem witness_DmemReadsBackLastWrite :
    State.reset.awaitingIdle = false ∧ 0x400 ≤ 0x400 ∧ 0x400 < 0x800 ∧ 0x400 ≤ 0x7FF ∧ 0x7FF < 0x800 := by decide

theorem witness_HostBusIsLittleEndian :
    State.reset.awaitingIdle = false ∧ 0x400 ≤ 0x400 ∧ 0x400 % 4 = 0 ∧ 0x400 ≤ 0x7FC ∧ 0x7FC < 0x800 ∧ 0x7FC % 4 = 0 ∧
    (HostAccess.read 16 0x400 pollVar).width ≠ 8 ∧ (HostAccess.read 16 0x400 pollVar).width ≠ 32 := by decide

/-- Admitted accesses at the ends of the two parts of the window, refused ones beside them, one outside. -/
theorem witness_HostAccessAdmittedOrRefused :
    State.reset.awaitingIdle = false ∧
    ((HostAccess.read 32 0x3FC pollVar).width = 32 ∧ (HostAccess.read 32 0x3FC pollVar).offset % 4 = 0) ∧
    ((HostAccess.write 8 0x400 1).width = 8 ∧ 0x400 ≤ (HostAccess.write 8 0x400 1).offset) ∧
    (HostAccess.write 8 0x7FF 1).offset < 0x800 ∧
    ¬ (((HostAccess.write 8 0x3FF 1).width = 32 ∧ (HostAccess.write 8 0x3FF 1).offset % 4 = 0) ∨
      ((HostAccess.write 8 0x3FF 1).width = 8 ∧ 0x400 ≤ (HostAccess.write 8 0x3FF 1).offset)) ∧
    ¬ (((HostAccess.write 16 0x400 1).width = 32 ∧ (HostAccess.write 16 0x400 1).offset % 4 = 0) ∨
      ((HostAccess.write 16 0x400 1).width = 8 ∧ 0x400 ≤ (HostAccess.write 16 0x400 1).offset)) ∧
    0x800 ≤ (HostAccess.read 32 0x800 pollVar).offset := by decide

theorem witness_OffsetOutsideWindowFaults : 0x800 ≤ (HostAccess.write 8 0x800 1).offset := by decide

/-- A machine in the busy interval whose command has completed, about to poll. -/
def waiting : State := { withHost [.wait] [.host] with awaitingIdle := true }

theorem witness_BusyIntervalAllowsOnlyStatusReads :
    State.reset.awaitingIdle = false ∧
    (∃ t, hostAccess (.write 32 0x008 1) State.reset = .next t ∧ t.awaitingIdle = true) ∧
    (∃ t, hostAccess (.write 32 0x008 1) afterError = .next t ∧ t.awaitingIdle = false) ∧
    (inFlight 0 []).awaitingIdle = true ∧
    (inFlight 0 []).busy = true ∧
    (∃ t, hostAccess (.read 32 0x00C pollVar) (inFlight 0 []) = .next t ∧ t.awaitingIdle = true) ∧
    waiting.busy = false ∧ (∃ t, hostAccess (.read 32 0x00C pollVar) waiting = .next t ∧ t.awaitingIdle = false) ∧
    waiting.awaitingIdle = true ∧ (∃ t, step waiting = .next t ∧ t.awaitingIdle = false) :=
  ⟨by decide, exists_next (by decide +kernel), exists_next (by decide +kernel), by decide +kernel, by decide +kernel,
    exists_next (by decide +kernel), by decide, exists_next (by decide +kernel), by decide,
    exists_next (by decide +kernel)⟩

theorem witness_ReservedAndReadOnlyOffsets :
    State.reset.awaitingIdle = false ∧ 0x014 ≤ 0x014 ∧ 0x014 % 4 = 0 ∧ 0x014 ≤ 0x3FC ∧ 0x3FC < 0x400 ∧ 0x3FC % 4 = 0 := by
  decide

theorem witness_ReadsHaveNoSideEffect :
    (∃ t, hostAccess (.read 32 0x00C pollVar) afterError = .next t ∧ t.err = true) ∧
    (∃ t, hostAccess (.read 32 0x7FC pollVar) (State.reset.memWrite 1020 [1, 2, 3, 4]) = .next t ∧
      t.var? pollVar = some 0x04030201) ∧
    State.reset.awaitingIdle = false ∧
    (∃ t, hostAccess (.write 8 0x7FF 1) State.reset = .next t ∧ t.readByte 1023 = 1) :=
  ⟨exists_next (by decide +kernel), exists_next (by decide +kernel), by decide, exists_next (by decide +kernel)⟩

theorem witness_CtrlWriteClearsThenStarts :
    (inFlight 0 []).awaitingIdle = true ∧ State.reset.awaitingIdle = false ∧ State.reset.err = false ∧
    afterError.awaitingIdle = false ∧ afterError.err = true ∧
    ((0xFFFFFFFC : Word32).getLsbD 1 = false ∧ (0xFFFFFFFC : Word32).getLsbD 0 = false) ∧
    ((2 : Word32).getLsbD 1 = true ∧ (2 : Word32).getLsbD 0 = false) ∧
    ((1 : Word32).getLsbD 1 = false ∧ (1 : Word32).getLsbD 0 = true) ∧
    ((3 : Word32).getLsbD 1 = true ∧ (3 : Word32).getLsbD 0 = true) := by decide +kernel

theorem witness_StatusWordFields : Inv (withBytes [1]) ∧ (withBytes [1]).err = false :=
  ⟨inv_of_idle (by decide) rfl rfl rfl rfl, rfl⟩

/-- A host about to write CLR_ERR to a machine that has stopped on an error. -/
def clearing : State := { afterError with program := [.access (.write 32 0x008 2)], schedule := [.host] }

theorem witness_ErrSetOnlyByFailureClearedOnlyByHostOrReset :
    (inFlight 0x0000000000000003 []).err = false ∧
    (∃ t, step (inFlight 0x0000000000000003 []) = .next t ∧ t.err = true) ∧
    afterError.err = true ∧
    (∃ t, step { afterError with schedule := [.reset] } = .next t ∧ t.err = false) ∧
    nextTurn clearing = .host ∧ clearing.program = [.access (.write 32 0x008 2)] ∧ (2 : Word32).getLsbD 1 = true ∧
    (∃ t, step clearing = .next t ∧ t.err = false) ∧
    nextTurn (inFlight 0x0000000000000004 []) = .core ∧ IllegalWord 0x0000000000000004 ∧
    (decode 0x0000000000000003 = .ok (.gfLog 0) ∧ InvalidArgument (.gfLog 0)) ∧
    (decode 0x03FC010000000020 = .ok (.genPoly 1020 4) ∧ RangeOutOfBounds (.genPoly 1020 4)) := by
  refine ⟨by decide +kernel, exists_next (by decide +kernel), by decide, exists_next (by decide +kernel), by decide,
    by decide, by decide, exists_next (by decide +kernel), by decide +kernel, witness_illegal_words.1,
    ⟨by decide +kernel, rfl⟩, ⟨by decide +kernel, ?_⟩⟩
  unfold RangeOutOfBounds
  decide

theorem witness_ResultChangesOnlyByScalarCommandOrReset :
    (∃ t, step (inFlight 0x0000000000800201 []) = .next t ∧ t.result ≠ (inFlight 0x0000000000800201 []).result) ∧
    nextTurn (inFlight 0x0000000000800201 []) = .core ∧ decode 0x0000000000800201 = .ok (.gfMul 0x02 0x80) ∧
    (∃ t, step (inFlight 0xFFFFFFFF00000002 []) = .next t ∧ t.result ≠ (inFlight 0xFFFFFFFF00000002 []).result) ∧
    (∃ t, step (inFlight 0x0000000000008E03 []) = .next t ∧ t.result ≠ (inFlight 0x0000000000008E03 []).result) ∧
    (∃ t, step { State.reset with result := 6, schedule := [.reset] } = .next t ∧ t.result ≠ 6) :=
  ⟨exists_next (by decide +kernel), by decide +kernel, by decide +kernel, exists_next (by decide +kernel),
    exists_next (by decide +kernel), exists_next (by decide +kernel)⟩

theorem witness_CmdChangesOnlyByHostWriteOrReset :
    (∃ t, step (withHost [.access (.write 32 0x000 7)] []) = .next t ∧ t.cmdLo ≠ State.reset.cmdLo) ∧
    (∃ t, step (withHost [.access (.write 32 0x004 7)] []) = .next t ∧ t.cmdHi ≠ State.reset.cmdHi) ∧
    (∃ t, step { State.reset with cmdLo := 7, cmdHi := 7, schedule := [.reset] } = .next t ∧
      (t.cmdLo ≠ 7 ∧ t.cmdHi ≠ 7)) :=
  ⟨exists_next (by decide +kernel), exists_next (by decide +kernel), exists_next (by decide +kernel)⟩

/-- A host write at each end of DMEM, and a command's store. -/
theorem witness_DmemByteChangesOnlyInsideADestination :
    (∃ t, step { withBytes [5] with program := [.access (.write 8 0x400 6)] } = .next t ∧
      t.readByte 0 ≠ (withBytes [5]).readByte 0) ∧
    (∃ t, step { State.reset.memWrite 1023 [5] with program := [.access (.write 32 0x7FC 0)] } = .next t ∧
      t.readByte 1023 ≠ (State.reset.memWrite 1023 [5]).readByte 1023) ∧
    (∃ t, step (inFlight 0x0001008020080010 [1, 1, 1, 2]) = .next t ∧
      t.readByte 2 ≠ (inFlight 0x0001008020080010 [1, 1, 1, 2]).readByte 2) :=
  ⟨exists_next (by decide +kernel), exists_next (by decide +kernel), exists_next (by decide +kernel)⟩

theorem witness_BusyFromGoUntilCompletion :
    (∃ t, step (withHost [.access (.write 32 0x008 1)] []) = .next t ∧ t.busy = true) ∧
    (inFlight 0 []).busy = true ∧ nextTurn (inFlight 0 []) = .core ∧
    (∃ t, step (inFlight 0 []) = .next t ∧ t.busy = false) ∧
    (∃ t, step { inFlight 0 [] with schedule := [.reset] } = .next t ∧ t.busy = false) :=
  ⟨exists_next (by decide +kernel), by decide +kernel, by decide +kernel, exists_next (by decide +kernel),
    exists_next (by decide +kernel)⟩

/-- Machines that have stopped on an error: the host about to write GO without CLR_ERR, and a core's turn in front of a
CLR_ERR write. -/
def goOnError : State := { afterError with program := [.access (.write 32 0x008 1)], schedule := [.host] }
def clearLater : State := { clearing with schedule := [.core, .host] }

theorem witness_StickyErrorKeepsFirstError :
    (afterError.err = true ∧ afterError.awaitingIdle = false ∧
      (1 : Word32).getLsbD 0 = true ∧ (1 : Word32).getLsbD 1 = false) ∧
    (Inv goOnError ∧ (∃ t, step goOnError = .next t ∧ t.pending = none) ∧ goOnError.err = true ∧
      nextTurn goOnError ≠ .reset ∧
      (nextTurn goOnError = .host → ∀ (v : Word32) (rest : List HostOp),
        goOnError.program = .access (.write 32 0x008 v) :: rest → v.getLsbD 1 = false)) ∧
    (Inv clearLater ∧ (∃ t, step clearLater = .next t ∧ t.pending = none) ∧ clearLater.err = true ∧
      nextTurn clearLater ≠ .reset ∧ nextTurn clearLater ≠ .host) := by
  have h := inv_afterError
  refine ⟨by decide, ⟨⟨h.1, h.2, h.3, h.4, h.5, h.6⟩, exists_next (by decide +kernel), by decide, by decide, ?_⟩,
    ⟨h.1, h.2, h.3, h.4, h.5, h.6⟩, exists_next (by decide +kernel), by decide, by decide, by decide⟩
  intro _ v rest hp
  cases hp
  decide

/-- A command in flight, a machine stopped on an error, and an idle one. -/
theorem witness_StepKeepsInv :
    Inv (inFlight 0x0001008020080010 [1, 1, 1, 2]) ∧
    (∃ t, step (inFlight 0x0001008020080010 [1, 1, 1, 2]) = .next t ∧ t.pending = none) ∧
    Inv afterError ∧ (∃ t, step afterError = .next t ∧ t.err = true) ∧
    Inv (withHost [.access (.write 32 0x008 1)] []) ∧
    (∃ t, step (withHost [.access (.write 32 0x008 1)] []) = .next t ∧ t.busy = true) :=
  ⟨inv_of_busy (by decide +kernel) (by decide +kernel) (by decide +kernel) (by decide +kernel) (by decide +kernel)
      (by decide +kernel),
    exists_next (by decide +kernel), inv_afterError, exists_next (by decide +kernel),
    inv_of_idle (by decide) rfl rfl rfl rfl, exists_next (by decide +kernel)⟩

theorem witness_ResetSetsEveryRegister : nextTurn { inFlight 0 [1] with schedule := [.reset] } = .reset := by decide

theorem witness_ResetDrawsEveryDmemByte : nextTurn { withBytes [1] with schedule := [.reset] } = .reset := by decide

theorem witness_GoAfterResetRunsNop :
    nextTurn { afterError with schedule := [.reset] } = .reset ∧
    (∃ t, step { afterError with schedule := [.reset] } = .next t ∧ t.awaitingIdle = false) :=
  ⟨by decide, exists_next (by decide +kernel)⟩

/-- A machine whose program stores to, and one whose program reads, the last bytes of DMEM. -/
def bytesRun : State := withHost (HostStmt.expand (.dmemBytes 1022 [8, 9]) ++ [HostOp.wait]) [.host, .host, .host]
def readRun : State := withHost (HostStmt.expand (.dmemRead 1022 2 1) ++ [HostOp.wait]) [.host, .host, .host]

theorem witness_DmemBytesStatementStoresItsBytes :
    bytesRun.awaitingIdle = false ∧ 1022 + ([8, 9] : List Byte).length ≤ 1024 ∧
    bytesRun.program = HostStmt.expand (.dmemBytes 1022 [8, 9]) ++ [HostOp.wait] ∧
    bytesRun.schedule = List.replicate 2 Turn.host ++ [Turn.host] := by decide

theorem witness_DmemReadStatementReadsItsBytes :
    readRun.awaitingIdle = false ∧ 1022 + 2 ≤ 1024 ∧
    readRun.program = HostStmt.expand (.dmemRead 1022 2 1) ++ [HostOp.wait] ∧
    readRun.schedule = List.replicate 2 Turn.host ++ [Turn.host] ∧
    1 < 2 ∧ (⟨2, 0⟩ : HostVar).name ≠ 1 ∧ 2 ≤ (⟨1, 2⟩ : HostVar).index := by decide

end Sys2Proof.Tests
end

section
/-! SUPPORT. What the decoder accepts (30_encoding.md R75 to R78), and which commands fail (60_exceptions.md R160). -/

open Sys2Proof.Spec

namespace Sys2Proof.Machine

/-! ## The decoder -/

theorem Opcode.operands_opcode (op : Opcode) (w : Word64) : (op.operands w).opcode = op := by
  cases op <;> rfl

/-- A word decodes to a command exactly by the row of the opcode map that its opcode byte selects (R76, R77). -/
theorem decode_eq_ok_iff {w : Word64} {i : Instr} :
    decode w = .ok i ↔
      ∃ op, Opcode.ofByte? (fieldOp w) = some op ∧ w &&& op.mask = op.matchWord ∧ i = op.operands w := by
  unfold decode
  split <;> rename_i h
  · simp [h]
  · split <;> rename_i hm <;> simp [h, hm, eq_comm]

/-- The opcode byte selects only the command whose byte it is (R76). -/
theorem Opcode.byte_of_ofByte? {b : Byte} {op : Opcode} (h : Opcode.ofByte? b = some op) : op.byte = b := by
  simpa using List.find?_some h

/-- The opcode byte of a legal word is that of its command (R71). -/
theorem opcode_byte_of_decode {w : Word64} {i : Instr} (h : decode w = .ok i) : i.opcode.byte = fieldOp w := by
  obtain ⟨op, hop, -, rfl⟩ := decode_eq_ok_iff.mp h
  rw [Opcode.operands_opcode, Opcode.byte_of_ofByte? hop]

/-- A field of the word that the mask selects whole is 0 where the match is 0. -/
theorem extractLsb'_eq_zero_of_mask {w mask m : Word64} (h : w &&& mask = m) (a n : Nat)
    (hmask : mask.extractLsb' a n = BitVec.allOnes n) (hm : m.extractLsb' a n = 0) : w.extractLsb' a n = 0 := by
  rw [← h, BitVec.extractLsb'_and, hmask, BitVec.and_allOnes] at hm
  exact hm

/-- A word that decodes is not illegal: its opcode is in the map, and its unused and reserved fields are 0 (R75). -/
theorem not_illegalWord_of_decode {w : Word64} {i : Instr} (h : decode w = .ok i) : ¬ IllegalWord w := by
  obtain ⟨op, hop, hm, -⟩ := decode_eq_ok_iff.mp h
  have hb : w.extractLsb' 0 8 = op.byte := (Opcode.byte_of_ofByte? hop).symm
  have hz := extractLsb'_eq_zero_of_mask hm
  unfold IllegalWord
  rw [hb]
  cases op with
  | nop => simp [Opcode.byte, hz 8 56 (by decide) (by decide)]
  | gfMul => simp [Opcode.byte, hz 24 40 (by decide) (by decide)]
  | gfExp => simp [Opcode.byte, hz 8 24 (by decide) (by decide)]
  | gfLog => simp [Opcode.byte, hz 16 48 (by decide) (by decide)]
  | polyMul => simp [Opcode.byte, hz 58 6 (by decide) (by decide)]
  | polyDiv => simp [Opcode.byte, hz 58 6 (by decide) (by decide)]
  | genPoly => simp [Opcode.byte, hz 8 30 (by decide) (by decide), hz 58 6 (by decide) (by decide)]
  | rsEnc => simp [Opcode.byte, hz 28 10 (by decide) (by decide), hz 58 6 (by decide) (by decide)]

/-! ## The commands that fail -/

/-- A failed precondition is recorded as INVALID_ARGUMENT, whatever the ranges (R160, R162). -/
theorem exec_of_invalidArgument {i : Instr} (h : InvalidArgument i) (s : State) :
    exec i s = .next (s.raiseError .invalidArgument i.opcode.byte) := by
  cases i with
  | nop | gfMul | gfExp | genPoly => exact h.elim
  | gfLog x => exact if_pos h
  | polyMul dst aAddr aLen bAddr bLen => exact if_pos h
  | polyDiv dst nAddr nLen dAddr dLen => exact if_pos h
  | rsEnc dst dataAddr dataLen ec => exact if_pos h

/-- A range out of bounds is recorded as ADDR_RANGE, once the preconditions hold (R160, R162). -/
theorem exec_of_rangeOutOfBounds {i : Instr} (hi : ¬ InvalidArgument i) (h : RangeOutOfBounds i) (s : State) :
    exec i s = .next (s.raiseError .addrRange i.opcode.byte) := by
  cases i with
  | nop | gfMul | gfExp | gfLog => exact h.elim
  | polyMul dst aAddr aLen bAddr bLen =>
    obtain ⟨ha, -⟩ | ⟨-, -, ha, hb, hd, -⟩ | ⟨-, -, -, e⟩ := execPolyMul_cases dst aAddr aLen bAddr bLen s
    · exact absurd ha hi
    · unfold RangeOutOfBounds at h; omega
    · exact e
  | polyDiv dst nAddr nLen dAddr dLen =>
    obtain ⟨ha, -⟩ | ⟨-, -, hn, hd, hdst, -⟩ | ⟨-, -, -, e⟩ := execPolyDiv_cases dst nAddr nLen dAddr dLen s
    · exact absurd ha hi
    · unfold RangeOutOfBounds at h; omega
    · exact e
  | genPoly dst deg =>
    obtain ⟨hd, -⟩ | ⟨-, e⟩ := execGenPoly_cases dst deg s
    · unfold RangeOutOfBounds at h; omega
    · exact e
  | rsEnc dst dataAddr dataLen ec =>
    obtain ⟨ha, -⟩ | ⟨-, -, hn, hd, -⟩ | ⟨-, -, -, e⟩ := execRsEnc_cases dst dataAddr dataLen ec s
    · exact absurd ha hi
    · unfold RangeOutOfBounds at h; omega
    · exact e

/-- A word in flight that is illegal, or whose command has a cause of failure, ends in an error record (R160, R163). -/
theorem execute_fails {w : Word64}
    (h : IllegalWord w ∨ ∃ i, decode w = .ok i ∧ (InvalidArgument i ∨ RangeOutOfBounds i)) (s : State) :
    ∃ code op, execute w s = .next (s.raiseError code op) := by
  unfold execute
  obtain hw | ⟨i, hd, hi⟩ := h
  · cases hd : decode w with
    | ok i => exact absurd hw (not_illegalWord_of_decode hd)
    | error e => exact ⟨_, _, rfl⟩
  · rw [hd]
    by_cases ha : InvalidArgument i
    · exact ⟨_, _, exec_of_invalidArgument ha s⟩
    · exact ⟨_, _, exec_of_rangeOutOfBounds ha (hi.resolve_left ha) s⟩

end Sys2Proof.Machine
end

section
/-! SUPPORT. One step of the machine, down to the command or the host access that makes it
(70_reset_and_hazards.md R190). -/

namespace Sys2Proof.Machine

/-- What one step can do, by the agent and by what it does. -/
inductive StepShape (s : State) : State → Prop where
  /-- The core's turn with no command in flight. -/
  | idleCore (hT : nextTurn s = .core) (hp : s.pending = none) : StepShape s (popTurn s)
  /-- The core runs a command of the map. -/
  | command {w : Word64} {i : Instr} {t : State} (hT : nextTurn s = .core) (hp : s.pending = some w)
      (hd : decode w = .ok i) (he : exec i (popTurn s) = .next t) (hs : ExecShape i (popTurn s) t) : StepShape s t
  /-- The core ends an illegal word. -/
  | illegal {w : Word64} (hT : nextTurn s = .core) (hp : s.pending = some w) :
      StepShape s ((popTurn s).raiseError .illegalCommand (fieldOp w))
  /-- The host has finished, reads, polls, or makes a write that is ignored: only its own fields change, and its busy
  interval does not end while a command is in flight. -/
  | hostOnly (hT : nextTurn s = .host) (rest : List HostOp) (vars : List (HostVar × Word32)) (b : Bool) :
      StepShape s { popTurn s with
        program := rest, hostVars := vars, awaitingIdle := s.awaitingIdle && (s.busy || b) }
  /-- The host writes CMD_LO. -/
  | writeCmdLo {v : Word32} {rest : List HostOp} (hT : nextTurn s = .host) (hz : s.awaitingIdle = false)
      (hp : s.program = .access (.write 32 offCmdLo v) :: rest) :
      StepShape s { (popTurn s).setProgram rest with cmdLo := v }
  /-- The host writes CMD_HI. -/
  | writeCmdHi {v : Word32} {rest : List HostOp} (hT : nextTurn s = .host) (hz : s.awaitingIdle = false)
      (hp : s.program = .access (.write 32 offCmdHi v) :: rest) :
      StepShape s { (popTurn s).setProgram rest with cmdHi := v }
  /-- The host writes CTRL. -/
  | writeCtrl {v : Word32} {rest : List HostOp} (hT : nextTurn s = .host) (hz : s.awaitingIdle = false)
      (hp : s.program = .access (.write 32 offCtrl v) :: rest) :
      StepShape s (((popTurn s).setProgram rest).writeCtrl v)
  /-- The host writes bytes of DMEM. -/
  | writeDmem {width offset : Nat} {v : Word32} {rest : List HostOp} {bytes : List Byte} (hT : nextTurn s = .host)
      (hp : s.program = .access (.write width offset v) :: rest) (ho : offDmem ≤ offset)
      (hl : bytes.length = width / 8) (hb : offset - offDmem + bytes.length ≤ Config.dmemSize) :
      StepShape s (((popTurn s).setProgram rest).memWrite (offset - offDmem) bytes)
  /-- A reset. -/
  | reset (hT : nextTurn s = .reset) : StepShape s (resetStep (popTurn s))

/-- A read of the host changes only its own fields. -/
theorem StepShape.of_read {s t : State} {width offset : Nat} {x : HostVar} {rest : List HostOp}
    (hT : nextTurn s = .host) (h : hostAccess (.read width offset x) ((popTurn s).setProgram rest) = .next t) :
    StepShape s t := by
  rw [hostRead_eq h]
  exact .hostOnly hT ..

/-- A write of the host goes to CMD, CTRL or DMEM, or is ignored. -/
theorem StepShape.of_write {s t : State} {width offset : Nat} {v : Word32} {rest : List HostOp}
    (hT : nextTurn s = .host) (hp : s.program = .access (.write width offset v) :: rest)
    (h : hostAccess (.write width offset v) ((popTurn s).setProgram rest) = .next t) : StepShape s t := by
  obtain ⟨hz, ⟨rfl, rfl, rfl⟩ | ⟨rfl, rfl, rfl⟩ | ⟨rfl, rfl, rfl⟩ | ⟨-, -, -, -, -, rfl⟩ | ⟨rfl, ho, hw, rfl⟩ |
    ⟨rfl, ho, ha, hw, rfl⟩⟩ := hostWrite_cases h
  · exact .writeCmdLo hT hz hp
  · exact .writeCmdHi hT hz hp
  · exact .writeCtrl hT hz hp
  · simpa [popTurn, State.setProgram] using StepShape.hostOnly hT rest s.hostVars true
  · refine .writeDmem hT hp ho rfl ?_
    simp only [offDmem, Config.windowSize, Config.dmemSize, List.length_singleton] at *
    omega
  · refine .writeDmem hT hp ho rfl ?_
    simp only [offDmem, Config.windowSize, Config.dmemSize, busBytes, List.length_cons, List.length_nil] at *
    omega

/-- Every step has one of the shapes. -/
theorem step_shape {s t : State} (h : step s = .next t) : StepShape s t := by
  obtain ⟨hT, hp, rfl⟩ | ⟨w, hT, hp, h⟩ | ⟨hT, h⟩ | ⟨hT, rfl⟩ := step_cases h
  · exact .idleCore hT hp
  · obtain ⟨i, u, hd, hu, he, hs⟩ | ⟨e, -, hu⟩ := execute_cases w (popTurn s) <;> rw [hu] at h <;> cases h
    · exact .command hT hp hd he hs
    · exact .illegal hT hp
  · obtain ⟨-, rfl⟩ | ⟨a, rest, hp, h⟩ | ⟨rest, -, h⟩ := hostStep_cases h
    · simpa [popTurn] using StepShape.hostOnly hT s.program s.hostVars true
    · cases a with
      | read width offset x => exact .of_read hT h
      | write width offset v => exact .of_write hT hp h
    · exact .of_read hT h
  · exact .reset hT

end Sys2Proof.Machine
end

section
/-! PROOF. STATUS.ERR over one step (10_state.md R36). -/

open Sys2Proof.Spec

namespace Sys2Proof.Machine

/-- A CTRL write never sets ERR, and clears it only by CLR_ERR (R32). -/
theorem writeCtrl_err (s : State) (v : Word32) : (s.writeCtrl v).err = (!v.getLsbD 1 && s.err) := by
  obtain ⟨h1, -, e⟩ | ⟨h1, -, -, e⟩ | ⟨h1, -, -, e⟩ | ⟨h1, -, e⟩ | ⟨h1, -, e⟩ := writeCtrl_cases s v <;>
    rw [e, h1] <;> simp

/-- ERR goes to 1 only by the record of an error of the command in flight. -/
theorem StepShape.err_set {s t : State} (h : StepShape s t) (hs : s.err = false) (ht : t.err = true) :
    nextTurn s = .core ∧ ∃ (w : Word64) (code : ErrorCode), s.pending = some w ∧
      t = (popTurn s).raiseError code (fieldOp w) := by
  cases h with
  | command hT hp hd _ hshape =>
    cases hshape with
    | failed code => exact ⟨hT, _, code, hp, by rw [opcode_byte_of_decode hd]⟩
    | plain | scalar | stored => simp [hs] at ht
  | illegal hT hp => exact ⟨hT, _, _, hp, rfl⟩
  | idleCore | hostOnly | writeCmdLo | writeCmdHi | writeCtrl | writeDmem | reset => simp [writeCtrl_err, hs] at ht

/-- ERR goes to 0 only by a reset or by CLR_ERR. -/
theorem StepShape.err_cleared {s t : State} (h : StepShape s t) (hs : s.err = true) (ht : t.err = false) :
    nextTurn s = .reset ∨ (nextTurn s = .host ∧ ∃ (v : Word32) (rest : List HostOp),
      s.program = .access (.write 32 offCtrl v) :: rest ∧ v.getLsbD 1 = true) := by
  cases h with
  | reset hT => exact .inl hT
  | writeCtrl hT _ hp => exact .inr ⟨hT, _, _, hp, by simpa [writeCtrl_err, hs] using ht⟩
  | command _ _ _ _ hshape => cases hshape <;> simp [hs] at ht
  | idleCore | illegal | hostOnly | writeCmdLo | writeCmdHi | writeDmem => simp [hs] at ht

/-- A turn of the reset. -/
theorem step_reset {s : State} (hT : nextTurn s = .reset) : step s = .next (resetStep (popTurn s)) := by
  simp [step, hT]

/-- A host's turn on a CTRL write makes that write. -/
theorem step_writeCtrl {s t : State} {v : Word32} {rest : List HostOp} (hT : nextTurn s = .host)
    (hp : s.program = .access (.write 32 offCtrl v) :: rest) (h : step s = .next t) :
    t = ((popTurn s).setProgram rest).writeCtrl v := by
  rw [step_host_access hT hp] at h
  obtain ⟨-, -, -, rfl⟩ := hostAccess_next_iff.mp h
  rfl

/-- Settles O41: by the shapes of a step, ERR rises in the record of an error only and falls at reset and CLR_ERR
only. -/
theorem errSetOnlyByFailureClearedOnlyByHostOrReset : Obligations.ErrSetOnlyByFailureClearedOnlyByHostOrReset := by
  intro s t h
  have hshape := step_shape h
  refine ⟨hshape.err_set, hshape.err_cleared, fun hT => ?_, fun v rest hT hp hv => ?_, fun w hT hp hw => ?_⟩
  · rw [step_reset hT] at h
    cases h
    rfl
  · rw [step_writeCtrl hT hp h, writeCtrl_err, hv]
    rfl
  · obtain ⟨code, op, he⟩ := execute_fails hw (popTurn s)
    rw [step_core hT hp, he] at h
    cases h
    rfl

end Sys2Proof.Machine
end

section
/-! PROOF. The invariant of the machine (Inv): it holds at reset and every operation of a step keeps it. -/

namespace Sys2Proof.Machine

/-- Settles O47: nothing is in flight, no error is recorded and no byte is listed. -/
theorem invHoldsAtReset : Obligations.InvHoldsAtReset where
  dmemCanonical := Memory.wf_reset
  pendingIsCmd _ h := nomatch h
  busyNoError _ := rfl
  busyAwaited h := nomatch h
  noErrorNoCode _ := ⟨rfl, rfl⟩
  errorHasCode h := nomatch h

/-- The invariant does not speak of the host's program and variables, the schedule and RESULT; DMEM may be written as
long as it stays canonical. -/
theorem Inv.of_same_core {s t : State} (h : Inv s) (hm : Memory.wf t.dmem = true) (hc : t.cmd = s.cmd)
    (hp : t.pending = s.pending) (he : t.err = s.err) (hcode : t.errCode = s.errCode) (hop : t.errOp = s.errOp)
    (hz : s.busy = true → s.awaitingIdle = true → t.awaitingIdle = true) : Inv t := by
  have hb : t.busy = s.busy := by rw [State.busy, State.busy, hp]
  constructor
  · exact hm
  · rw [hp, hc]; exact h.pendingIsCmd
  · rw [hb, he]; exact h.busyNoError
  · rw [hb]; exact fun hs => hz hs (h.busyAwaited hs)
  · rw [he, hcode, hop]; exact h.noErrorNoCode
  · rw [he, hcode]; exact h.errorHasCode

theorem Inv.popTurn {s : State} (h : Inv s) : Inv (popTurn s) :=
  h.of_same_core h.dmemCanonical rfl rfl rfl rfl rfl fun _ hz => hz

theorem Inv.setProgram {s : State} (h : Inv s) (p : List HostOp) : Inv (s.setProgram p) :=
  h.of_same_core h.dmemCanonical rfl rfl rfl rfl rfl fun _ hz => hz

theorem Inv.memWrite {s : State} (h : Inv s) {a : Nat} {v : List Byte} (hb : a + v.length ≤ Config.dmemSize) :
    Inv (s.memWrite a v) :=
  h.of_same_core (Memory.wf_storeAll h.dmemCanonical hb) rfl rfl rfl rfl rfl fun _ hz => hz

theorem Inv.writeResult {s : State} (h : Inv s) (v : Byte) : Inv (s.writeResult v) :=
  h.of_same_core h.dmemCanonical rfl rfl rfl rfl rfl fun _ hz => hz

theorem Inv.complete {s : State} (h : Inv s) : Inv s.complete where
  dmemCanonical := h.dmemCanonical
  pendingIsCmd _ hw := nomatch hw
  busyNoError hb := nomatch hb
  busyAwaited hb := nomatch hb
  noErrorNoCode := h.noErrorNoCode
  errorHasCode := h.errorHasCode

theorem Inv.raiseError {s : State} (h : Inv s) (code : ErrorCode) (op : Byte) : Inv (s.raiseError code op) where
  dmemCanonical := h.dmemCanonical
  pendingIsCmd _ hw := nomatch hw
  busyNoError hb := nomatch hb
  busyAwaited hb := nomatch hb
  noErrorNoCode he := nomatch he
  errorHasCode _ := ⟨code, rfl⟩

theorem Inv.clearError {s : State} (h : Inv s) : Inv s.clearError where
  dmemCanonical := h.dmemCanonical
  pendingIsCmd := h.pendingIsCmd
  busyNoError _ := rfl
  busyAwaited := h.busyAwaited
  noErrorNoCode _ := ⟨rfl, rfl⟩
  errorHasCode he := nomatch he

/-- GO keeps the invariant where it starts a command: while ERR = 0. -/
theorem Inv.startCommand {s : State} (h : Inv s) (he : s.err = false) : Inv s.startCommand where
  dmemCanonical := h.dmemCanonical
  pendingIsCmd _ hw := (Option.some.inj hw).symm
  busyNoError _ := he
  busyAwaited _ := rfl
  noErrorNoCode := h.noErrorNoCode
  errorHasCode := h.errorHasCode

theorem Inv.writeCtrl {s : State} (h : Inv s) (v : Word32) : Inv (s.writeCtrl v) := by
  obtain ⟨-, -, e⟩ | ⟨-, -, -, e⟩ | ⟨-, -, he, e⟩ | ⟨-, -, e⟩ | ⟨-, -, e⟩ := writeCtrl_cases s v <;> rw [e]
  · exact h
  · exact h
  · exact h.startCommand he
  · exact h.clearError
  · exact h.clearError.startCommand rfl

theorem Inv.resetStep {s : State} : Inv (resetStep s) where
  dmemCanonical := Memory.wf_reset
  pendingIsCmd _ h := nomatch h
  busyNoError _ := rfl
  busyAwaited h := nomatch h
  noErrorNoCode _ := ⟨rfl, rfl⟩
  errorHasCode h := nomatch h

/-- Outside the busy interval no command is in flight (70_reset_and_hazards.md R185). -/
theorem Inv.not_busy {s : State} (h : Inv s) (hz : s.awaitingIdle = false) : s.busy = false := by
  cases hb : s.busy with
  | false => rfl
  | true => exact absurd (h.busyAwaited hb) (by simp [hz])

/-- With no command in flight CMD may change. -/
theorem Inv.of_cmd_changed {s t : State} (h : Inv s) (hb : s.busy = false)
    (ht : t = { s with cmdLo := t.cmdLo, cmdHi := t.cmdHi }) : Inv t := by
  have hp : s.pending = none := by simpa [State.busy] using hb
  rw [ht]
  exact {
    dmemCanonical := h.dmemCanonical
    pendingIsCmd := fun w hw => by simp [hp] at hw
    busyNoError := h.busyNoError
    busyAwaited := h.busyAwaited
    noErrorNoCode := h.noErrorNoCode
    errorHasCode := h.errorHasCode }

/-- Every shape of a command's next state keeps the invariant. -/
theorem Inv.execShape {i : Instr} {s t : State} (h : Inv s) (hs : ExecShape i s t) : Inv t := by
  cases hs with
  | plain => exact h.complete
  | scalar v => exact (h.writeResult v).complete
  | stored dst bytes hb => exact (h.memWrite hb).complete
  | failed code => exact h.raiseError code _

/-- Settles O48: each shape of a step is made of operations that keep the invariant; CMD is written only outside the
busy interval, where no command is in flight. -/
theorem stepKeepsInv : Obligations.StepKeepsInv := by
  intro s t h hstep
  have hpop := h.popTurn
  cases step_shape hstep with
  | idleCore => exact hpop
  | command _ _ _ _ hs => exact hpop.execShape hs
  | illegal => exact hpop.raiseError _ _
  | hostOnly _ rest vars b =>
    exact hpop.of_same_core h.dmemCanonical rfl rfl rfl rfl rfl fun hb hz => by
      change s.busy = true at hb
      change s.awaitingIdle = true at hz
      simp [hb, hz]
  | writeCmdLo _ hz => exact (hpop.setProgram _).of_cmd_changed (h.not_busy hz) rfl
  | writeCmdHi _ hz => exact (hpop.setProgram _).of_cmd_changed (h.not_busy hz) rfl
  | writeCtrl => exact (hpop.setProgram _).writeCtrl _
  | writeDmem _ _ _ _ hb => exact (hpop.setProgram _).memWrite hb
  | reset => exact Inv.resetStep

end Sys2Proof.Machine
end

section
/-! PROOF. RESULT, CMD and BUSY over one step (10_state.md R30, R34, R35, R39). -/

namespace Sys2Proof.Machine

/-- What a CTRL write leaves unchanged: everything but the error fields, the command in flight and the busy interval. -/
@[simp] theorem writeCtrl_frame (s : State) (v : Word32) :
    (s.writeCtrl v).dmem = s.dmem ∧ (s.writeCtrl v).cmdLo = s.cmdLo ∧ (s.writeCtrl v).cmdHi = s.cmdHi ∧
      (s.writeCtrl v).result = s.result ∧ (s.writeCtrl v).program = s.program ∧
      (s.writeCtrl v).hostVars = s.hostVars ∧ (s.writeCtrl v).schedule = s.schedule ∧
      (s.writeCtrl v).resets = s.resets := by
  obtain ⟨-, -, e⟩ | ⟨-, -, -, e⟩ | ⟨-, -, -, e⟩ | ⟨-, -, e⟩ | ⟨-, -, e⟩ := writeCtrl_cases s v <;> simp [e]

/-! ## RESULT -/

/-- The result of a successful scalar command (R34); no other command has one. -/
def scalarResult? : Instr → Option Byte
  | .gfMul a b => some (gfMul a b)
  | .gfExp i => some (gfExp i)
  | .gfLog x => if x = 0 then none else some (gfLog x)
  | .nop | .polyMul .. | .polyDiv .. | .genPoly .. | .rsEnc .. => none

/-- A command writes its scalar result to RESULT, and keeps RESULT where it has none. -/
theorem exec_result {i : Instr} {s t : State} (h : exec i s = .next t) :
    t.result = (scalarResult? i).getD s.result := by
  cases i with
  | nop | gfMul | gfExp => cases h; rfl
  | gfLog x =>
    obtain ⟨hx, e⟩ | ⟨hx, e⟩ := execGfLog_cases x s <;> cases e.symm.trans h
    · rw [scalarResult?, if_pos hx]; rfl
    · rw [scalarResult?, if_neg hx]; rfl
  | polyMul dst aAddr aLen bAddr bLen =>
    obtain ⟨-, e⟩ | ⟨-, -, -, -, -, e⟩ | ⟨-, -, -, e⟩ := execPolyMul_cases dst aAddr aLen bAddr bLen s <;>
      cases e.symm.trans h <;> rfl
  | polyDiv dst nAddr nLen dAddr dLen =>
    obtain ⟨-, e⟩ | ⟨-, -, -, -, -, e⟩ | ⟨-, -, -, e⟩ := execPolyDiv_cases dst nAddr nLen dAddr dLen s <;>
      cases e.symm.trans h <;> rfl
  | genPoly dst deg =>
    obtain ⟨-, e⟩ | ⟨-, e⟩ := execGenPoly_cases dst deg s <;> cases e.symm.trans h <;> rfl
  | rsEnc dst dataAddr dataLen ec =>
    obtain ⟨-, e⟩ | ⟨-, -, -, -, e⟩ | ⟨-, -, -, e⟩ := execRsEnc_cases dst dataAddr dataLen ec s <;>
      cases e.symm.trans h <;> rfl

/-- The commands that have a scalar result, each with its result. -/
theorem scalarResult?_eq_some {i : Instr} {v : Byte} (h : scalarResult? i = some v) :
    (∃ a b, i = .gfMul a b ∧ v = gfMul a b) ∨ (∃ n, i = .gfExp n ∧ v = gfExp n) ∨
      (∃ x, x ≠ 0 ∧ i = .gfLog x ∧ v = gfLog x) := by
  cases i with
  | gfMul a b => cases h; exact .inl ⟨a, b, rfl, rfl⟩
  | gfExp n => cases h; exact .inr (.inl ⟨n, rfl, rfl⟩)
  | gfLog x =>
    obtain ⟨hx, rfl⟩ : x ≠ 0 ∧ gfLog x = v := by simpa [scalarResult?] using h
    exact .inr (.inr ⟨x, hx, rfl, rfl⟩)
  | nop | polyMul | polyDiv | genPoly | rsEnc => cases h

/-- RESULT changes only by a reset or by a command that has a scalar result. -/
theorem StepShape.result_changed {s t : State} (h : StepShape s t) (hne : t.result ≠ s.result) :
    (nextTurn s = .reset ∧ t.result = 0) ∨
    (nextTurn s = .core ∧ ∃ (w : Word64) (i : Instr), s.pending = some w ∧ decode w = .ok i ∧
      scalarResult? i = some t.result) := by
  cases h with
  | reset hT => exact .inl ⟨hT, rfl⟩
  | command hT hp hd he =>
    have hr := exec_result he
    refine .inr ⟨hT, _, _, hp, hd, ?_⟩
    cases hv : scalarResult? _ with
    | none => exact absurd (by simpa [hv] using hr) hne
    | some v => simp [hr, hv]
  | idleCore | illegal | hostOnly | writeCmdLo | writeCmdHi | writeCtrl | writeDmem => simp at hne

/-- The core's step on a command of the map is that command's. -/
theorem step_command {s : State} {w : Word64} {i : Instr} (hT : nextTurn s = .core) (hp : s.pending = some w)
    (hd : decode w = .ok i) : step s = exec i (popTurn s) := by
  rw [step_core hT hp, execute, hd]

/-- A completed command with a scalar result leaves it in RESULT. -/
theorem step_result_of_scalar {s t : State} {w : Word64} {i : Instr} {v : Byte} (h : step s = .next t)
    (hT : nextTurn s = .core) (hp : s.pending = some w) (hd : decode w = .ok i) (hv : scalarResult? i = some v) :
    t.result = v := by
  rw [step_command hT hp hd] at h
  rw [exec_result h, hv]
  rfl

/-- A read of RESULT shows it in bits [7:0], and 0 above (R34). -/
theorem resultWord_fields (s : State) :
    s.resultWord.extractLsb' 0 8 = s.result ∧ s.resultWord.extractLsb' 8 24 = 0 := by
  unfold State.resultWord
  constructor <;> ext k hk
  · simp [show k < 32 by omega, hk]
  · simp

/-- Settles O42: RESULT follows the scalar result of the command that completes, and nothing but a reset besides. -/
theorem resultChangesOnlyByScalarCommandOrReset : Obligations.ResultChangesOnlyByScalarCommandOrReset := by
  refine ⟨fun s t h hne => ?_, fun s t w h hT hp => ⟨fun a b hd => ?_, fun i hd => ?_, fun x hx hd => ?_⟩,
    resultWord_fields, fun s v => rfl, rfl⟩
  · obtain hreset | ⟨hT, w, i, hp, hd, hv⟩ := (step_shape h).result_changed hne
    · exact .inl hreset
    · refine .inr ⟨hT, w, hp, ?_⟩
      obtain ⟨a, b, rfl, e⟩ | ⟨n, rfl, e⟩ | ⟨x, hx, rfl, e⟩ := scalarResult?_eq_some hv
      · exact .inl ⟨a, b, hd, e⟩
      · exact .inr (.inl ⟨n, hd, e⟩)
      · exact .inr (.inr ⟨x, hx, hd, e⟩)
  · exact step_result_of_scalar h hT hp hd rfl
  · exact step_result_of_scalar h hT hp hd rfl
  · exact step_result_of_scalar h hT hp hd (if_neg hx)

/-! ## CMD -/

/-- Settles O43: of the shapes of a step, only a reset and the write of that half touch CMD_LO or CMD_HI. -/
theorem cmdChangesOnlyByHostWriteOrReset : Obligations.CmdChangesOnlyByHostWriteOrReset := by
  intro s t h
  cases step_shape h with
  | reset hT => exact ⟨fun _ => .inl ⟨hT, rfl⟩, fun _ => .inl ⟨hT, rfl⟩⟩
  | writeCmdLo hT _ hp => exact ⟨fun _ => .inr ⟨hT, _, hp⟩, fun hne => absurd rfl hne⟩
  | writeCmdHi hT _ hp => exact ⟨fun hne => absurd rfl hne, fun _ => .inr ⟨hT, _, hp⟩⟩
  | command _ _ _ _ hs => cases hs <;> simp
  | idleCore | illegal | hostOnly | writeCtrl | writeDmem => simp

/-! ## BUSY -/

theorem State.busy_eq_false_iff {s : State} : s.busy = false ↔ s.pending = none := by simp [State.busy]

/-- The core's turn leaves no command in flight (R35, R39). -/
theorem step_core_completes {s t : State} (h : step s = .next t) (hT : nextTurn s = .core) : t.pending = none := by
  cases hp : s.pending with
  | none =>
    rw [step, hT] at h
    simp only [coreStep, popTurn_pending, hp] at h
    cases h
    exact hp
  | some w =>
    rw [step_core hT hp] at h
    obtain ⟨-, -, hnone, -⟩ := execute_frame h
    exact hnone

/-- A CTRL write either leaves the command in flight as it is, or is a GO that puts CMD in flight. -/
theorem writeCtrl_pending_cases (s : State) (v : Word32) :
    (s.writeCtrl v).pending = s.pending ∨ (v.getLsbD 0 = true ∧ (s.writeCtrl v).pending = some s.cmd) := by
  obtain ⟨-, -, e⟩ | ⟨-, -, -, e⟩ | ⟨-, h0, -, e⟩ | ⟨-, -, e⟩ | ⟨-, h0, e⟩ := writeCtrl_cases s v <;> rw [e]
  · exact .inl rfl
  · exact .inl rfl
  · exact .inr ⟨h0, rfl⟩
  · exact .inl rfl
  · exact .inr ⟨h0, rfl⟩

/-- A step leaves the command in flight as it is, or is a GO that puts CMD in flight, or a turn of the core or of
reset. -/
theorem StepShape.pending_cases {s t : State} (h : StepShape s t) :
    t.pending = s.pending ∨
    (t.pending = some s.cmd ∧ nextTurn s = .host ∧ ∃ (v : Word32) (rest : List HostOp),
      s.program = .access (.write 32 offCtrl v) :: rest ∧ v.getLsbD 0 = true) ∨
    (t.pending = none ∧ (nextTurn s = .core ∨ nextTurn s = .reset)) := by
  cases h with
  | idleCore | hostOnly | writeCmdLo | writeCmdHi | writeDmem => exact .inl rfl
  | command hT _ _ _ hs => exact .inr (.inr ⟨by cases hs <;> rfl, .inl hT⟩)
  | illegal hT => exact .inr (.inr ⟨rfl, .inl hT⟩)
  | reset hT => exact .inr (.inr ⟨rfl, .inr hT⟩)
  | @writeCtrl v rest hT _ hp =>
    obtain e | ⟨h0, e⟩ := writeCtrl_pending_cases ((popTurn s).setProgram rest) v
    · exact .inl e
    · exact .inr (.inl ⟨e, hT, v, rest, hp, h0⟩)

/-- Settles O45: by what a step does to the command in flight, of which BUSY is the sign. -/
theorem busyFromGoUntilCompletion : Obligations.BusyFromGoUntilCompletion := by
  intro s t h
  have hcases := (step_shape h).pending_cases
  refine ⟨fun hs ht => ?_, fun hs ht => ?_, fun hT => State.busy_eq_false_iff.mpr (step_core_completes h hT)⟩
  · obtain e | hgo | ⟨e, -⟩ := hcases
    · simp [State.busy, e, State.busy_eq_false_iff.mp hs] at ht
    · exact hgo
    · simp [State.busy, e] at ht
  · obtain e | ⟨e, -⟩ | ⟨-, hT⟩ := hcases
    · simp [State.busy, ← e, State.busy_eq_false_iff.mp ht] at hs
    · simp [State.busy, e] at ht
    · exact hT

end Sys2Proof.Machine
end

section
/-! PROOF. The ROMs against the algorithm that defines them, and GF_EXP and GF_LOG through them (10_state.md R21 to
R25, 40_gf_scalar.md R101, R102, R107, R108). -/

open Sys2Proof.Spec

namespace Sys2Proof.Machine

/-! ## The ROM contents -/

/-- Each EXP entry is R21's advance of the entry before it. -/
theorem expRom_succ : ∀ i < 255, (expRom (i + 1)).toNat = romAdvance (expRom i).toNat := by decide +kernel

/-- LOG of an EXP entry is its index, for the indexes below the period. -/
theorem logRom_expRom : ∀ i < 255, (logRom (expRom i)).toNat = i := by decide +kernel

/-- EXP at the LOG of a nonzero byte is that byte, and the LOG is in 0..254. -/
theorem expRom_logRom : ∀ x : Byte, x ≠ 0 → (logRom x).toNat < 255 ∧ expRom (logRom x).toNat = x := by decide +kernel

/-- No EXP entry is 0 (R25). -/
theorem expRom_ne_zero : ∀ i < 256, expRom i ≠ 0 := by decide +kernel

/-- EXP holds the values of the doubling algorithm, by induction along its rounds. -/
theorem expRom_eq_romValue {i : Nat} (h : i ≤ 255) : (expRom i).toNat = romValue i := by
  induction i with
  | zero => rfl
  | succ i ih => rw [expRom_succ i (by omega), ih (by omega), romValue]

/-! ## The doubling algorithm -/

/-- The doubling algorithm comes back to 1 after 255 rounds, so its values repeat with that period (R23). -/
theorem romValue_periodic : Function.Periodic romValue 255 := by
  intro i
  induction i with
  | zero => exact (expRom_eq_romValue le_rfl).symm
  | succ i ih => rw [Nat.succ_add, romValue, ih, romValue]

/-- `gf_exp` takes as many doublings as its index says, for every index (R101). -/
theorem gfExp_eq_alphaPower (i : Nat) : gfExp i = alphaPower i := by
  have hi : i % 255 ≤ 255 := (Nat.mod_lt i (by decide)).le
  rw [alphaPower, ← romValue_periodic.map_mod_nat i, ← expRom_eq_romValue hi, BitVec.ofNat_toNat, BitVec.setWidth_eq,
    gfExp]

/-- Below the period `gf_exp` is the ROM entry. -/
theorem gfExp_of_lt {i : Nat} (h : i < 255) : gfExp i = expRom i := by
  rw [gfExp, Nat.mod_eq_of_lt h]

/-! ## The commands -/

theorem exec_gfExp (s : State) (i : Nat) :
    exec (.gfExp i) s = .next { s with result := gfExp i, pending := none } := rfl

theorem exec_gfLog {x : Byte} (hx : x ≠ 0) (s : State) :
    exec (.gfLog x) s = .next { s with result := gfLog x, pending := none } :=
  if_neg hx

/-- Settles O17: EXP by the rounds of the algorithm, LOG because it inverts EXP. -/
theorem romsHoldTheDoublingTable : Obligations.RomsHoldTheDoublingTable := by
  refine ⟨fun i hi => ?_, rfl⟩
  have he : (expRom i).toNat = romValue i := expRom_eq_romValue (by omega)
  have hb : BitVec.ofNat 8 (romValue i) = expRom i := by rw [← he, BitVec.ofNat_toNat, BitVec.setWidth_eq]
  exact ⟨he ▸ (expRom i).isLt, he, hb ▸ logRom_expRom i (by omega)⟩

/-- Settles O13: the table entry at the reduced index is the value of the doublings, because their period is 255. -/
theorem gfExpIsRepeatedDoubling : Obligations.GfExpIsRepeatedDoubling := by
  intro s i
  rw [exec_gfExp, gfExp_eq_alphaPower]

/-- Settles O14: the two ROMs invert each other on 0..254 and on the nonzero bytes. -/
theorem gfLogAndGfExpInvertEachOther : Obligations.GfLogAndGfExpInvertEachOther := by
  refine ⟨fun s x hx => ?_, fun s i hi => ?_, expRom_ne_zero⟩
  · obtain ⟨hlt, he⟩ := expRom_logRom x hx
    refine ⟨gfLog x, Nat.le_of_lt_succ hlt, exec_gfLog hx s, ?_⟩
    rw [exec_gfExp, gfLog, gfExp_of_lt hlt, he]
  · have hx : expRom i ≠ 0 := expRom_ne_zero i (by omega)
    refine ⟨expRom i, hx, ?_, ?_⟩
    · rw [exec_gfExp, gfExp_of_lt (by omega)]
    · have hl : BitVec.ofNat 8 i = logRom (expRom i) := by
        rw [← BitVec.toNat_inj, logRom_expRom i (by omega), BitVec.toNat_ofNat]
        omega
      rw [exec_gfLog hx, gfLog, hl]

end Sys2Proof.Machine
end

section
/-! PROOF. CTRL and STATUS as the host sees them (10_state.md R32, R33). -/

namespace Sys2Proof.Machine

/-- A 32-bit access at an aligned register offset is admitted (20_memory.md R55). -/
theorem admitted_register {o : Nat} (ho : o < offDmem) (ha : o % 4 = 0) :
    o < Config.windowSize ∧ admitted 32 o = true := by
  have hw : o < Config.windowSize := ho.trans (by decide)
  simp [admitted, hw, ha]

/-- A host write outside the busy interval to an aligned register offset is the write of that register. -/
theorem hostAccess_writeReg {s : State} {o : Nat} (hz : s.awaitingIdle = false) (ho : o < offDmem) (ha : o % 4 = 0)
    (v : Word32) : hostAccess (.write 32 o v) s = .next (s.writeReg o v) := by
  obtain ⟨hw, had⟩ := admitted_register ho ha
  exact hostAccess_next_iff.mpr ⟨hw, had, fun h => by simp [hz] at h, (if_pos ho).symm⟩

/-- In the busy interval a host write to an aligned register offset is a hazard (70_reset_and_hazards.md R185). -/
theorem hostAccess_writeReg_busy {s : State} {o : Nat} (hz : s.awaitingIdle = true) (ho : o < offDmem)
    (ha : o % 4 = 0) (v : Word32) : hostAccess (.write 32 o v) s = .refused (.busyHazard o) := by
  obtain ⟨hw, had⟩ := admitted_register ho ha
  simp [hostAccess, HostAccess.width, HostAccess.offset, HostAccess.isStatusRead, hw, had, hz]

/-- A host read outside the busy interval of an aligned register offset assigns that register's value, and nothing else
changes. -/
theorem hostAccess_readReg {s : State} {o : Nat} (hz : s.awaitingIdle = false) (ho : o < offDmem) (ha : o % 4 = 0)
    (x : HostVar) : hostAccess (.read 32 o x) s = .next (s.setVar x (s.readReg o)) := by
  obtain ⟨hw, had⟩ := admitted_register ho ha
  refine hostAccess_next_iff.mpr ⟨hw, had, fun h => by simp [hz] at h, ?_⟩
  rw [perform_read, State.portRead, if_pos ho, hz]
  simp [State.setVar, hz]

@[simp] theorem State.var?_setVar_same (s : State) (x : HostVar) (v : Word32) : (s.setVar x v).var? x = some v := by
  simp [State.var?, State.setVar]

/-- Settles O39: a CTRL write outside the busy interval is `writeCtrl`, whose cases are the four values of its bits. -/
theorem ctrlWriteClearsThenStarts : Obligations.CtrlWriteClearsThenStarts := by
  refine ⟨fun s v hz => hostAccess_writeReg_busy hz (by decide) rfl v, fun s v x hz => ?_⟩
  have hwrite : hostAccess (.write 32 0x008 v) s = .next (s.writeCtrl v) := hostAccess_writeReg hz (by decide) rfl v
  rw [hwrite]
  unfold State.writeCtrl
  refine ⟨fun h1 h0 => ?_, fun h1 h0 => ?_, fun h1 h0 he => ?_, fun h1 h0 he => ?_, fun h1 h0 => ?_,
    _, hostAccess_readReg hz (by decide) rfl x, State.var?_setVar_same ..⟩
  · rw [h1, h0]; rfl
  · rw [h1, h0]; rfl
  · rw [h1, h0]; simp [he]
  · rw [h1, h0]; simp [he, State.startCommand, State.cmd]
  · rw [h1, h0]; rfl

/-- The six fields of the STATUS word, by bit range (R33). -/
theorem status_fields (s : State) :
    s.status.extractLsb' 0 1 = BitVec.ofBool s.busy ∧ s.status.extractLsb' 1 1 = BitVec.ofBool s.err ∧
    s.status.extractLsb' 2 6 = 0 ∧ s.status.extractLsb' 8 8 = s.errCode ∧ s.status.extractLsb' 16 8 = s.errOp ∧
    s.status.extractLsb' 24 8 = 0 := by
  unfold State.status
  refine ⟨BitVec.extractLsb'_append_eq_right, ?_, ?_, ?_, ?_, ?_⟩
  · rw [BitVec.extractLsb'_append_eq_of_le (by decide)]
    exact BitVec.extractLsb'_append_eq_right
  · iterate 2 rw [BitVec.extractLsb'_append_eq_of_le (by decide)]
    exact BitVec.extractLsb'_append_eq_right
  · iterate 3 rw [BitVec.extractLsb'_append_eq_of_le (by decide)]
    exact BitVec.extractLsb'_append_eq_right
  · iterate 4 rw [BitVec.extractLsb'_append_eq_of_le (by decide)]
    exact BitVec.extractLsb'_append_eq_right
  · iterate 4 rw [BitVec.extractLsb'_append_eq_of_le (by decide)]
    exact BitVec.extractLsb'_append_eq_left

/-- Settles O40: by the fields of the STATUS word; the invariant's own clause gives the last but one. -/
theorem statusWordFields : Obligations.StatusWordFields := by
  refine ⟨rfl, fun s v => ?_⟩
  obtain ⟨hbusy, herr, hlow, hcode, hop, hhigh⟩ := status_fields s
  refine ⟨hbusy.trans ?_, herr.trans ?_, hlow, hcode, hop, hhigh, fun h => h.noErrorNoCode, rfl⟩
  · cases hp : s.pending <;> simp [State.busy, hp]
  · cases s.err <;> rfl

end Sys2Proof.Machine
end

section
/-! SUPPORT. What a host access outside the busy interval does, by width and by part of the window
(20_memory.md R54 to R58). -/

namespace Sys2Proof.Machine

/-- The accesses of R55: 32 bits at a multiple of 4 of the window, 8 bits at an offset of its DMEM part. -/
theorem admitted_iff {width offset : Nat} :
    admitted width offset = true ↔
      offset < 0x800 ∧ ((width = 32 ∧ offset % 4 = 0) ∨ (width = 8 ∧ 0x400 ≤ offset)) := by
  simp only [admitted, Bool.and_eq_true, Bool.or_eq_true, decide_eq_true_eq]
  exact Iff.rfl

/-- Outside the busy interval an admitted access has its effect. -/
theorem hostAccess_of_admitted {a : HostAccess} {s : State} (hz : s.awaitingIdle = false)
    (ha : admitted a.width a.offset = true) : hostAccess a s = .next (a.perform s) :=
  hostAccess_next_iff.mpr ⟨(admitted_iff.mp ha).1, ha, fun h => by simp [hz] at h, rfl⟩

/-- An access of the window that is not admitted is refused, in the busy interval too (R57). -/
theorem hostAccess_of_not_admitted {a : HostAccess} (ho : a.offset < 0x800)
    (ha : ¬ admitted a.width a.offset = true) (s : State) :
    hostAccess a s = .refused (.hostAccessNotAdmitted a.width a.offset) := by
  have hw : ¬ Config.windowSize ≤ a.offset := Nat.not_le.mpr ho
  simp [hostAccess, hw, ha]

/-- Outside the busy interval an admitted read assigns the value at its offset, and nothing else changes. -/
theorem hostAccess_read {s : State} {width o : Nat} (hz : s.awaitingIdle = false) (ha : admitted width o = true)
    (x : HostVar) : hostAccess (.read width o x) s = .next (s.setVar x (s.portRead width o)) := by
  rw [hostAccess_of_admitted (a := .read width o x) hz ha, perform_read, hz]
  simp [State.setVar, hz]

/-- Outside the busy interval an admitted write has its effect. -/
theorem hostAccess_write {s : State} {width o : Nat} (hz : s.awaitingIdle = false) (ha : admitted width o = true)
    (v : Word32) : hostAccess (.write width o v) s = .next (s.portWrite width o v) :=
  hostAccess_of_admitted (a := .write width o v) hz ha

/-- An 8-bit read of a DMEM offset (R56). -/
theorem hostAccess_readByte {s : State} {o : Nat} (hz : s.awaitingIdle = false) (hlo : 0x400 ≤ o) (hhi : o < 0x800)
    (x : HostVar) : hostAccess (.read 8 o x) s = .next (s.setVar x ((s.readByte (o - 0x400)).setWidth 32)) := by
  have hv : s.portRead 8 o = (s.readByte (o - 0x400)).setWidth 32 := if_neg (Nat.not_lt.mpr hlo)
  rw [hostAccess_read hz (admitted_iff.mpr ⟨hhi, .inr ⟨rfl, hlo⟩⟩), hv]

/-- A 32-bit read of an aligned DMEM offset (R56). -/
theorem hostAccess_readWord {s : State} {o : Nat} (hz : s.awaitingIdle = false) (hlo : 0x400 ≤ o) (hhi : o < 0x800)
    (ha : o % 4 = 0) (x : HostVar) :
    hostAccess (.read 32 o x) s = .next (s.setVar x (s.readWord (o - 0x400))) := by
  have hv : s.portRead 32 o = s.readWord (o - 0x400) := if_neg (Nat.not_lt.mpr hlo)
  rw [hostAccess_read hz (admitted_iff.mpr ⟨hhi, .inl ⟨rfl, ha⟩⟩), hv]

/-- An 8-bit write to a DMEM offset (R56). -/
theorem hostAccess_writeByte {s : State} {o : Nat} (hz : s.awaitingIdle = false) (hlo : 0x400 ≤ o) (hhi : o < 0x800)
    (v : Word32) : hostAccess (.write 8 o v) s = .next (s.memWrite (o - 0x400) [v.extractLsb' 0 8]) := by
  have hv : s.portWrite 8 o v = s.memWrite (o - 0x400) [v.extractLsb' 0 8] := if_neg (Nat.not_lt.mpr hlo)
  rw [hostAccess_write hz (admitted_iff.mpr ⟨hhi, .inr ⟨rfl, hlo⟩⟩), hv]

/-- A 32-bit write to an aligned DMEM offset (R56). -/
theorem hostAccess_writeWord {s : State} {o : Nat} (hz : s.awaitingIdle = false) (hlo : 0x400 ≤ o) (hhi : o < 0x800)
    (ha : o % 4 = 0) (v : Word32) :
    hostAccess (.write 32 o v) s = .next (s.memWrite (o - 0x400) (busBytes v)) := by
  have hv : s.portWrite 32 o v = s.memWrite (o - 0x400) (busBytes v) := if_neg (Nat.not_lt.mpr hlo)
  rw [hostAccess_write hz (admitted_iff.mpr ⟨hhi, .inl ⟨rfl, ha⟩⟩), hv]

/-- The four bytes of a word read from DMEM (R56). -/
theorem readWord_bytes (s : State) (d : Nat) :
    (s.readWord d).extractLsb' 0 8 = s.readByte d ∧ (s.readWord d).extractLsb' 8 8 = s.readByte (d + 1) ∧
    (s.readWord d).extractLsb' 16 8 = s.readByte (d + 2) ∧ (s.readWord d).extractLsb' 24 8 = s.readByte (d + 3) := by
  unfold State.readWord
  refine ⟨BitVec.extractLsb'_append_eq_right, ?_, ?_, ?_⟩
  · rw [BitVec.extractLsb'_append_eq_of_le (by decide)]
    exact BitVec.extractLsb'_append_eq_right
  · iterate 2 rw [BitVec.extractLsb'_append_eq_of_le (by decide)]
    exact BitVec.extractLsb'_append_eq_right
  · iterate 2 rw [BitVec.extractLsb'_append_eq_of_le (by decide)]
    exact BitVec.extractLsb'_append_eq_left

/-- A byte zero-extended to the bus is that byte in bits [7:0], and 0 above (R56). -/
theorem zeroExtended_byte_fields (b : Byte) :
    (b.setWidth 32).extractLsb' 0 8 = b ∧ (b.setWidth 32).extractLsb' 8 24 = 0 :=
  resultWord_fields (State.reset.writeResult b)

/-- The reserved offsets read 0 (R58). -/
theorem readReg_reserved {o : Nat} (ho : 0x014 ≤ o) (s : State) : s.readReg o = 0 := by
  unfold State.readReg offCmdLo offCmdHi offStatus offResult
  iterate 4 rw [if_neg (by omega)]

/-- A write to an offset behind CTRL is ignored: STATUS, RESULT and the reserved offsets (R58). -/
theorem writeReg_ignored {o : Nat} (ho : 0x00C ≤ o) (s : State) (v : Word32) : s.writeReg o v = s := by
  unfold State.writeReg offCmdLo offCmdHi offCtrl
  iterate 3 rw [if_neg (by omega)]

end Sys2Proof.Machine
end

section
/-! SUPPORT. What a command does, as a function of the state that its operands and source bytes fix (20_memory.md R61,
10_state.md R39). -/

open Sys2Proof.Spec

namespace Sys2Proof.Machine

/-! ## The commands without a cause of failure (60_exceptions.md R160) -/

theorem exec_polyMul_of_legal {dst aAddr aLen bAddr bLen : Nat}
    (hi : ¬ InvalidArgument (.polyMul dst aAddr aLen bAddr bLen))
    (hr : ¬ RangeOutOfBounds (.polyMul dst aAddr aLen bAddr bLen)) (s : State) :
    exec (.polyMul dst aAddr aLen bAddr bLen) s =
      .next (s.finishWith dst (polyMul (s.memRead aAddr aLen) (s.memRead bAddr bLen))) := by
  obtain ⟨h, -⟩ | ⟨-, -, -, -, -, e⟩ | ⟨-, -, h, -⟩ := execPolyMul_cases dst aAddr aLen bAddr bLen s
  · exact absurd h hi
  · exact e
  · unfold RangeOutOfBounds at hr; omega

theorem exec_polyDiv_of_legal {dst nAddr nLen dAddr dLen : Nat}
    (hi : ¬ InvalidArgument (.polyDiv dst nAddr nLen dAddr dLen))
    (hr : ¬ RangeOutOfBounds (.polyDiv dst nAddr nLen dAddr dLen)) (s : State) :
    exec (.polyDiv dst nAddr nLen dAddr dLen) s =
      .next (s.finishWith dst (polyDiv (s.memRead nAddr nLen) (s.memRead dAddr dLen))) := by
  obtain ⟨h, -⟩ | ⟨-, -, -, -, -, e⟩ | ⟨-, -, h, -⟩ := execPolyDiv_cases dst nAddr nLen dAddr dLen s
  · exact absurd h hi
  · exact e
  · unfold RangeOutOfBounds at hr; omega

theorem exec_genPoly_of_legal {dst deg : Nat} (hr : ¬ RangeOutOfBounds (.genPoly dst deg)) (s : State) :
    exec (.genPoly dst deg) s = .next (s.finishWith dst (genPoly deg)) := by
  obtain ⟨-, e⟩ | ⟨h, -⟩ := execGenPoly_cases dst deg s
  · exact e
  · unfold RangeOutOfBounds at hr; omega

theorem exec_rsEnc_of_legal {dst dataAddr dataLen ec : Nat}
    (hi : ¬ InvalidArgument (.rsEnc dst dataAddr dataLen ec))
    (hr : ¬ RangeOutOfBounds (.rsEnc dst dataAddr dataLen ec)) (s : State) :
    exec (.rsEnc dst dataAddr dataLen ec) s =
      .next (s.finishWith dst (rsEncode (s.memRead dataAddr dataLen) ec)) := by
  obtain ⟨h, -⟩ | ⟨-, -, -, -, e⟩ | ⟨-, -, h, -⟩ := execRsEnc_cases dst dataAddr dataLen ec s
  · exact absurd h hi
  · exact e
  · unfold RangeOutOfBounds at hr; omega

/-- With a nonempty second source the product is as long as the destination range (R120, R127). -/
theorem polyMul_memRead_length {bLen : Nat} (hb : bLen ≠ 0) (s : State) (aAddr aLen bAddr : Nat) :
    (polyMul (s.memRead aAddr aLen) (s.memRead bAddr bLen)).length = aLen + bLen - 1 := by
  have hne : s.memRead bAddr bLen ≠ [] := by
    rw [← List.length_pos_iff, State.memRead_length]
    omega
  rw [polyMul_length hne, State.memRead_length, State.memRead_length]

/-! ## The effect of a command -/

/-- The four forms of what a command does to the state it completes in; bytes go to its destination range, which is then
in bounds. -/
inductive CommandEffect (i : Instr) : (State → State) → Prop where
  /-- The command completes without effect. -/
  | plain : CommandEffect i State.complete
  /-- RESULT is written. -/
  | scalar (v : Byte) : CommandEffect i (·.finishScalar v)
  /-- The destination range is written. -/
  | stored {base : Nat} {bytes : List Byte} (hd : destination i = some (base, bytes.length))
      (hb : base + bytes.length ≤ 1024) : CommandEffect i (·.finishWith base bytes)
  /-- An error is recorded. -/
  | failed (code : ErrorCode) : CommandEffect i (·.raiseError code i.opcode.byte)

/-- The two states agree on the source ranges of the command. -/
def SameSources (i : Instr) (s s' : State) : Prop := ∀ r ∈ sources i, s.memRead r.1 r.2 = s'.memRead r.1 r.2

theorem SameSources.refl (i : Instr) (s : State) : SameSources i s s := fun _ _ => rfl

/-- A command without a cause of failure has one effect on all states that agree on its sources. -/
theorem exec_effect_of_legal {i : Instr} (hi : ¬ InvalidArgument i) (hr : ¬ RangeOutOfBounds i) (s : State) :
    ∃ f, CommandEffect i f ∧ ∀ s', SameSources i s s' → exec i s' = .next (f s') := by
  cases i with
  | nop => exact ⟨_, .plain, fun _ _ => rfl⟩
  | gfMul a b => exact ⟨_, .scalar (gfMul a b), fun _ _ => rfl⟩
  | gfExp n => exact ⟨_, .scalar (gfExp n), fun _ _ => rfl⟩
  | gfLog x => exact ⟨_, .scalar (gfLog x), fun _ _ => if_neg hi⟩
  | polyMul dst aAddr aLen bAddr bLen =>
    have hlen := polyMul_memRead_length (fun h => hi (.inr h)) s aAddr aLen bAddr
    refine ⟨_, .stored (by rw [hlen]; rfl) (by rw [hlen]; unfold RangeOutOfBounds at hr; omega), fun s' h => ?_⟩
    rw [exec_polyMul_of_legal hi hr, ← h (aAddr, aLen) (by simp [sources]), ← h (bAddr, bLen) (by simp [sources])]
  | polyDiv dst nAddr nLen dAddr dLen =>
    have hlen : (polyDiv (s.memRead nAddr nLen) (s.memRead dAddr dLen)).length = nLen := by simp
    refine ⟨_, .stored (by rw [hlen]; rfl) (by rw [hlen]; unfold RangeOutOfBounds at hr; omega), fun s' h => ?_⟩
    rw [exec_polyDiv_of_legal hi hr, ← h (nAddr, nLen) (by simp [sources]), ← h (dAddr, dLen) (by simp [sources])]
  | genPoly dst deg =>
    have hlen := genPoly_length deg
    refine ⟨_, .stored (by rw [hlen]; rfl) (by rw [hlen]; unfold RangeOutOfBounds at hr; omega), fun s' _ => ?_⟩
    rw [exec_genPoly_of_legal hr]
  | rsEnc dst dataAddr dataLen ec =>
    have hlen := rsEncode_length (s.memRead dataAddr dataLen) ec
    refine ⟨_, .stored (by rw [hlen]; rfl) (by rw [hlen]; unfold RangeOutOfBounds at hr; omega), fun s' h => ?_⟩
    rw [exec_rsEnc_of_legal hi hr, ← h (dataAddr, dataLen) (by simp [sources])]

/-- Every command has one effect on all states that agree on its sources: a cause of failure lies in the operands alone
(60_exceptions.md R160). -/
theorem exec_effect (i : Instr) (s : State) :
    ∃ f, CommandEffect i f ∧ ∀ s', SameSources i s s' → exec i s' = .next (f s') := by
  by_cases hi : InvalidArgument i
  · exact ⟨_, .failed .invalidArgument, fun s' _ => exec_of_invalidArgument hi s'⟩
  by_cases hr : RangeOutOfBounds i
  · exact ⟨_, .failed .addrRange, fun s' _ => exec_of_rangeOutOfBounds hi hr s'⟩
  · exact exec_effect_of_legal hi hr s

end Sys2Proof.Machine
end

section
/-! PROOF. DMEM over one step, and what a command computes from it (20_memory.md R61, R62). -/

open Sys2Proof.Spec

namespace Sys2Proof.Machine

/-- A byte that reads differently after MemWrite lies in the range written. -/
theorem inside_of_readByte_memWrite_ne {s : State} {base x : Nat} {bytes : List Byte}
    (h : (s.memWrite base bytes).readByte x ≠ s.readByte x) : base ≤ x ∧ x < base + bytes.length := by
  by_contra hout
  exact h (by rw [State.readByte_memWrite, if_neg hout])

/-- A command changes a byte of DMEM only in its destination range, which is then in bounds. -/
theorem exec_byte_changed {i : Instr} {s t : State} {a : Nat} (h : exec i s = .next t)
    (hne : t.readByte a ≠ s.readByte a) :
    ∃ base len, destination i = some (base, len) ∧ base + len ≤ 1024 ∧ base ≤ a ∧ a < base + len := by
  obtain ⟨f, hf, he⟩ := exec_effect i s
  cases (he s (.refl i s)).symm.trans h
  cases hf with
  | stored hd hb => exact ⟨_, _, hd, hb, inside_of_readByte_memWrite_ne hne⟩
  | plain | scalar | failed => exact absurd rfl hne

/-- Settles O44: by the shapes of a step, of which only the reset, the host's write to DMEM and the core's command touch
DMEM or the draw of its reset content. -/
theorem dmemByteChangesOnlyInsideADestination : Obligations.DmemByteChangesOnlyInsideADestination := by
  intro s t a h hne
  cases step_shape h with
  | reset hT => exact .inl hT
  | writeDmem hT hp ho hl =>
    obtain ⟨hlo, hhi⟩ := inside_of_readByte_memWrite_ne hne
    exact .inr (.inl ⟨hT, _, _, _, _, hp, ho, hlo, hl ▸ hhi⟩)
  | command hT hp hd he =>
    obtain ⟨base, len, hrange⟩ := exec_byte_changed he hne
    exact .inr (.inr ⟨hT, _, _, base, len, hp, hd, hrange⟩)
  | writeCtrl => exact absurd (State.readByte_congr (by simp) (by simp) a) hne
  | idleCore | illegal | hostOnly | writeCmdLo | writeCmdHi => exact absurd rfl hne

/-- MemWrite stores exactly its bytes (R62). -/
theorem storesExactly_memWrite (s : State) (base : Nat) (bytes : List Byte) :
    StoresExactly s (s.memWrite base bytes).dmem base bytes :=
  State.readByte_memWrite s base bytes

/-- Where DMEM is the same, nothing is stored. -/
theorem storesExactly_nothing (s : State) : StoresExactly s s.dmem 0 [] :=
  storesExactly_memWrite s 0 []

/-- Settles O31: the two runs have one effect, each form of which gives both states the same record, RESULT and
bytes. -/
theorem commandResultDependsOnlyOnItsSources : Obligations.CommandResultDependsOnlyOnItsSources := by
  intro i s s' t t' hsrc h h'
  obtain ⟨f, hf, he⟩ := exec_effect i s
  cases (he s (.refl i s)).symm.trans h
  cases (he s' hsrc).symm.trans h'
  have hs := storesExactly_nothing s
  have hs' := storesExactly_nothing s'
  cases hf with
  | plain => exact ⟨.inl ⟨rfl, rfl, rfl, rfl, rfl, rfl⟩, .inl ⟨rfl, rfl⟩, 0, [], .inl rfl, hs, hs'⟩
  | scalar v => exact ⟨.inl ⟨rfl, rfl, rfl, rfl, rfl, rfl⟩, .inr rfl, 0, [], .inl rfl, hs, hs'⟩
  | failed code => exact ⟨.inr ⟨rfl, rfl, rfl⟩, .inl ⟨rfl, rfl⟩, 0, [], .inl rfl, hs, hs'⟩
  | stored hd _ =>
    exact ⟨.inl ⟨rfl, rfl, rfl, rfl, rfl, rfl⟩, .inl ⟨rfl, rfl⟩, _, _, .inr hd,
      storesExactly_memWrite s _ _, storesExactly_memWrite s' _ _⟩

end Sys2Proof.Machine
end

section
/-! PROOF. The host's accesses to the window (20_memory.md R51, R55 to R59, R62). -/

open Sys2Proof.Spec

namespace Sys2Proof.Machine

/-- Settles O32: the write is one byte of MemWrite, after which each byte reads as it or as before. -/
theorem dmemReadsBackLastWrite : Obligations.DmemReadsBackLastWrite := by
  intro s o o' v x hz hlo hhi hlo' hhi'
  refine ⟨_, _, hostAccess_writeByte hz hlo hhi v, hostAccess_readByte (by exact hz) hlo' hhi' x, ?_⟩
  have hbyte : (s.memWrite (o - 0x400) [v.extractLsb' 0 8]).readByte (o' - 0x400) =
      if o' = o then v.extractLsb' 0 8 else s.readByte (o' - 0x400) := by
    change (s.writeByte (o - 0x400) (v.extractLsb' 0 8)).readByte _ = _
    rw [State.readByte_writeByte]
    exact if_congr (by omega) rfl rfl
  rw [State.var?_setVar_same, hbyte]

/-- Settles O33: each access is its MemWrite or its read of bytes, by width. -/
theorem hostBusIsLittleEndian : Obligations.HostBusIsLittleEndian := by
  intro s o v x hz hlo hhi
  obtain ⟨hbyte, hzero⟩ := zeroExtended_byte_fields (s.readByte (o - 0x400))
  refine ⟨fun ha => ⟨⟨_, hostAccess_writeWord hz hlo hhi ha v, storesExactly_memWrite s _ (busBytes v)⟩,
      _, _, hostAccess_readWord hz hlo hhi ha x, State.var?_setVar_same .., readWord_bytes ..⟩,
    ⟨_, hostAccess_writeByte hz hlo hhi v, storesExactly_memWrite s _ [_]⟩,
    ⟨_, _, hostAccess_readByte hz hlo hhi x, State.var?_setVar_same .., hbyte, hzero⟩,
    BitVec.extractLsb'_append_eq_right, BitVec.extractLsb'_append_eq_left, fun a t h8 h32 h => ?_⟩
  obtain ⟨-, hadm, -⟩ := hostAccess_next_iff.mp h
  obtain ⟨-, ⟨hw, -⟩ | ⟨hw, -⟩⟩ := admitted_iff.mp hadm
  · exact h32 hw
  · exact h8 hw

/-- An accepted read can be made again, into any variable, and gives the same value (R59). -/
theorem hostAccess_read_again {s t : State} {width o : Nat} {x : HostVar}
    (h : hostAccess (.read width o x) s = .next t) (y : HostVar) :
    ∃ u, hostAccess (.read width o y) t = .next u ∧ u.var? y = t.var? x := by
  obtain ⟨hw, ha, hbusy, -⟩ := hostAccess_next_iff.mp h
  cases hostRead_eq h
  refine ⟨_, hostAccess_next_iff.mpr ⟨hw, ha, fun hz => hbusy (Bool.and_eq_true_iff.mp hz).1, rfl⟩, ?_⟩
  rw [perform_read]
  exact (State.var?_setVar_same ..).trans (State.var?_setVar_same ..).symm

/-- Settles O38: by what an accepted read and an accepted write can do. -/
theorem readsHaveNoSideEffect : Obligations.ReadsHaveNoSideEffect := by
  refine ⟨fun s t width o x h => ⟨?_, hostAccess_read_again h⟩, fun s v hz => ⟨?_, ?_⟩,
    fun s t width o v ho h => ?_⟩
  · cases hostRead_eq h
    rfl
  · exact hostAccess_writeReg hz (by decide) rfl v
  · exact hostAccess_writeReg hz (by decide) rfl v
  · obtain ⟨-, ⟨-, rfl, -⟩ | ⟨-, rfl, -⟩ | ⟨-, rfl, -⟩ | ⟨-, hlt, -⟩ | ⟨-, -, -, rfl⟩ | ⟨-, -, -, -, rfl⟩⟩ :=
      hostWrite_cases h
    · exact absurd ho (by decide)
    · exact absurd ho (by decide)
    · exact absurd ho (by decide)
    · exact absurd hlt (Nat.not_lt.mpr ho)
    · rfl
    · rfl

/-- Settles O35: the window's end is the first thing an access is held to. -/
theorem offsetOutsideWindowFaults : Obligations.OffsetOutsideWindowFaults :=
  fun _ _ ho => if_pos ho

/-- Settles O34: by whether the access is admitted, and the fault outside the window. -/
theorem hostAccessAdmittedOrRefused : Obligations.HostAccessAdmittedOrRefused := by
  refine fun s a => ⟨fun hz ho ha => ⟨_, hostAccess_of_admitted hz (admitted_iff.mpr ⟨ho, ha⟩)⟩,
    fun ho ha => hostAccess_of_not_admitted ho (fun h => ha (admitted_iff.mp h).2) s, fun ho t h => ?_⟩
  cases (offsetOutsideWindowFaults s a ho).symm.trans h

/-- A host write behind CTRL to an aligned offset below DMEM changes nothing (R58). -/
theorem hostAccess_write_ignored {s : State} {o : Nat} (hz : s.awaitingIdle = false) (hlo : 0x00C ≤ o)
    (hhi : o < offDmem) (ha : o % 4 = 0) (v : Word32) : hostAccess (.write 32 o v) s = .next s := by
  rw [hostAccess_writeReg hz hhi ha, writeReg_ignored hlo]

/-- Settles O37: a register access outside the busy interval is a read or write of that register. -/
theorem reservedAndReadOnlyOffsets : Obligations.ReservedAndReadOnlyOffsets := by
  intro s o v x hz hlo hhi ha
  refine ⟨⟨_, hostAccess_readReg hz hhi ha x, ?_⟩, hostAccess_write_ignored hz (by omega) hhi ha v,
    hostAccess_write_ignored hz (by decide) (by decide) rfl v,
    hostAccess_write_ignored hz (by decide) (by decide) rfl v, _, hostAccess_readReg hz (by decide) rfl x, State.var?_setVar_same ..⟩
  rw [State.var?_setVar_same, readReg_reserved hlo]

end Sys2Proof.Machine
end

section
/-! SUPPORT. A command word as fields in their places: what the map's masks select, which words decode, and what the
encoder writes (30_encoding.md R71 to R80). -/

namespace Sys2Proof

open Machine Spec

/-! ## Fields in their places -/

/-- The word with `x` at bits `a` and up, and 0 elsewhere. -/
def place {n : Nat} (a : Nat) (x : BitVec n) : Word64 := x.setWidth 64 <<< a

/-- The mask of the field of `n` bits at bit `a`. -/
def fieldMask (a n : Nat) : Word64 := place a (BitVec.allOnes n)

/-- A field whose value is 0 leaves the word as it is. -/
@[simp] theorem place_zero (a n : Nat) : place a (0#n) = 0#64 := by
  simp [place]

/-- The field read at the bits where it was placed. -/
theorem extractLsb'_place_same {n a : Nat} (h : a + n ≤ 64) (x : BitVec n) : (place a x).extractLsb' a n = x := by
  apply BitVec.eq_of_getLsbD_eq
  intro k hk
  simp [place, hk, show a + k < 64 by omega]

/-- The field reads 0 at bits where it was not placed. -/
theorem extractLsb'_place_disjoint {n a b m : Nat} (h : b + m ≤ a ∨ a + n ≤ b) (x : BitVec n) :
    (place a x).extractLsb' b m = 0 := by
  apply BitVec.eq_of_getLsbD_eq
  intro k hk
  have hout : b + k < a ∨ n ≤ b + k - a := by omega
  obtain hlt | hge := hout
  · simp [place, hlt]
  · simp [place, BitVec.getLsbD_of_ge x _ hge]

/-- A mask selects the field it is the mask of. -/
theorem and_fieldMask (w : Word64) (a n : Nat) : w &&& fieldMask a n = place a (w.extractLsb' a n) := by
  apply BitVec.eq_of_getLsbD_eq
  intro k hk
  by_cases hlt : k < a
  · simp [fieldMask, place, hlt]
  · simp [fieldMask, place, hk, hlt, show a + (k - a) = k by omega, Bool.and_comm]

/-! ## The fields a command does not use -/

/-- The bit ranges, (low bit, width), that a command does not use or that are reserved (R75, R76). -/
def Opcode.zeroFields : Opcode → List (Nat × Nat)
  | .nop => [(8, 56)]
  | .gfMul => [(24, 40)]
  | .gfExp => [(8, 24)]
  | .gfLog => [(16, 48)]
  | .polyMul => [(58, 6)]
  | .polyDiv => [(58, 6)]
  | .genPoly => [(8, 30), (58, 6)]
  | .rsEnc => [(28, 10), (58, 6)]

/-- Those ranges of the word are 0. -/
def Opcode.ZeroFieldsOf (op : Opcode) (w : Word64) : Prop := ∀ f ∈ op.zeroFields, w.extractLsb' f.1 f.2 = 0

/-- The mask of the map is the opcode and the ranges that must be 0. -/
theorem Opcode.mask_eq (op : Opcode) :
    op.mask = op.zeroFields.foldr (fun f m => fieldMask f.1 f.2 ||| m) (fieldMask 0 8) := by
  cases op <;> decide

/-- The match of the map is the opcode and 0 elsewhere. -/
theorem Opcode.matchWord_eq (op : Opcode) : op.matchWord = place 0 op.byte := by
  cases op <;> decide

/-- What a mask made of ranges that are 0 selects is the opcode. -/
theorem and_foldr_fieldMask {w : Word64} {fields : List (Nat × Nat)}
    (h : ∀ f ∈ fields, w.extractLsb' f.1 f.2 = 0) :
    w &&& fields.foldr (fun f m => fieldMask f.1 f.2 ||| m) (fieldMask 0 8) = place 0 (fieldOp w) := by
  induction fields with
  | nil => exact and_fieldMask w 0 8
  | cons f fields ih =>
    rw [List.foldr_cons, BitVec.and_or_distrib_left, ih fun g hg => h g (.tail _ hg), and_fieldMask, h f (.head _)]
    simp

@[simp] theorem Opcode.ofByte?_byte (op : Opcode) : Opcode.ofByte? op.byte = some op := by
  cases op <;> decide

/-- A word with a listed opcode whose unused and reserved ranges are 0 decodes, with its operands in its fields. -/
theorem decode_of_zeroFields {w : Word64} {op : Opcode} (hop : fieldOp w = op.byte) (hz : op.ZeroFieldsOf w) :
    decode w = .ok (op.operands w) := by
  refine decode_eq_ok_iff.mpr ⟨op, by rw [hop, Opcode.ofByte?_byte], ?_, rfl⟩
  rw [op.mask_eq, and_foldr_fieldMask hz, hop, op.matchWord_eq]

/-- A word that is not illegal has a listed opcode, and its unused and reserved ranges are 0. -/
theorem zeroFields_of_not_illegalWord {w : Word64} (h : ¬ IllegalWord w) :
    ∃ op : Opcode, fieldOp w = op.byte ∧ op.ZeroFieldsOf w := by
  simp only [IllegalWord, not_or, not_and, ne_eq, not_not] at h
  obtain ⟨hlisted, hnop, hmul, hexp, hlog, hpoly, hgen, henc⟩ := h
  simp only [List.mem_cons, List.not_mem_nil, or_false] at hlisted
  obtain h | h | h | h | h | h | h | h := hlisted
  · exact ⟨.nop, h, by simpa [Opcode.ZeroFieldsOf, Opcode.zeroFields] using hnop h⟩
  · exact ⟨.gfMul, h, by simpa [Opcode.ZeroFieldsOf, Opcode.zeroFields] using hmul h⟩
  · exact ⟨.gfExp, h, by simpa [Opcode.ZeroFieldsOf, Opcode.zeroFields] using hexp h⟩
  · exact ⟨.gfLog, h, by simpa [Opcode.ZeroFieldsOf, Opcode.zeroFields] using hlog h⟩
  · exact ⟨.polyMul, h, by simpa [Opcode.ZeroFieldsOf, Opcode.zeroFields] using hpoly (.inl h)⟩
  · exact ⟨.polyDiv, h, by simpa [Opcode.ZeroFieldsOf, Opcode.zeroFields] using hpoly (.inr h)⟩
  · exact ⟨.genPoly, h, by simpa [Opcode.ZeroFieldsOf, Opcode.zeroFields] using hgen h⟩
  · exact ⟨.rsEnc, h, by simpa [Opcode.ZeroFieldsOf, Opcode.zeroFields] using henc h⟩

/-- The decoder refuses exactly the words that are illegal by their fields (R78). -/
theorem decode_eq_error_iff {w : Word64} : (∃ e, decode w = .error e) ↔ IllegalWord w := by
  constructor
  · rintro ⟨e, he⟩
    by_contra hw
    obtain ⟨op, hop, hz⟩ := zeroFields_of_not_illegalWord hw
    cases (decode_of_zeroFields hop hz).symm.trans he
  · intro hw
    cases hd : decode w with
    | ok i => exact absurd hw (not_illegalWord_of_decode hd)
    | error e => exact ⟨e, rfl⟩

/-! ## The encoder -/

/-- A number that fits its field, written at bit `a`, is that field there. -/
theorem ofNat_shiftLeft {n x : Nat} (hn : n ≤ 64) (hx : x < 2 ^ n) (a : Nat) :
    BitVec.ofNat 64 x <<< a = place a (BitVec.ofNat n x) := by
  rw [place, BitVec.setWidth_ofNat_of_le_of_lt hn hx]

theorem setWidth_eq_place {n : Nat} (x : BitVec n) : x.setWidth 64 = place 0 x := by
  simp [place]

/-- Format S as its fields, an index that fits (R72, R80). -/
theorem assembleS_eq (op : Opcode) (a b : Byte) {idx : Nat} (h : idx < 4294967296) :
    assembleS op a b idx = place 0 op.byte ||| place 8 a ||| place 16 b ||| place 32 (BitVec.ofNat 32 idx) := by
  rw [assembleS, ofNat_shiftLeft (n := 32) (by decide) h, setWidth_eq_place op.byte]
  rfl

/-- Format P as its fields, operands that fit (R73, R80). -/
theorem assembleP_eq (op : Opcode) {f1 f2 f3 f4 f5 : Nat} (h1 : f1 < 1024) (h2 : f2 < 1024) (h3 : f3 < 1024)
    (h4 : f4 < 1024) (h5 : f5 < 1024) :
    assembleP op f1 f2 f3 f4 f5 =
      place 0 op.byte ||| place 8 (BitVec.ofNat 10 f1) ||| place 18 (BitVec.ofNat 10 f2) |||
        place 28 (BitVec.ofNat 10 f3) ||| place 38 (BitVec.ofNat 10 f4) ||| place 48 (BitVec.ofNat 10 f5) := by
  have hn : 10 ≤ 64 := by decide
  rw [assembleP, ofNat_shiftLeft hn h1, ofNat_shiftLeft hn h2, ofNat_shiftLeft hn h3, ofNat_shiftLeft hn h4,
    ofNat_shiftLeft hn h5, setWidth_eq_place]

/-- The fields of a word of format S (R72). -/
theorem fields_assembleS (op : Opcode) (a b : Byte) {idx : Nat} (h : idx < 4294967296) :
    fieldA (assembleS op a b idx) = a ∧ fieldB (assembleS op a b idx) = b ∧ fieldIdx (assembleS op a b idx) = idx := by
  simp [assembleS_eq op a b h, fieldA, fieldB, fieldIdx, BitVec.extractLsb'_or,
    extractLsb'_place_same, extractLsb'_place_disjoint, Nat.mod_eq_of_lt h]

/-- The fields of a word of format P (R73). -/
theorem fields_assembleP (op : Opcode) {f1 f2 f3 f4 f5 : Nat} (h1 : f1 < 1024) (h2 : f2 < 1024) (h3 : f3 < 1024)
    (h4 : f4 < 1024) (h5 : f5 < 1024) :
    fieldF1 (assembleP op f1 f2 f3 f4 f5) = f1 ∧ fieldF2 (assembleP op f1 f2 f3 f4 f5) = f2 ∧
    fieldF3 (assembleP op f1 f2 f3 f4 f5) = f3 ∧ fieldF4 (assembleP op f1 f2 f3 f4 f5) = f4 ∧
    fieldF5 (assembleP op f1 f2 f3 f4 f5) = f5 := by
  simp [assembleP_eq op h1 h2 h3 h4 h5, fieldF1, fieldF2, fieldF3, fieldF4, fieldF5,
    BitVec.extractLsb'_or, extractLsb'_place_same, extractLsb'_place_disjoint, Nat.mod_eq_of_lt h1,
    Nat.mod_eq_of_lt h2, Nat.mod_eq_of_lt h3, Nat.mod_eq_of_lt h4, Nat.mod_eq_of_lt h5]

theorem fits32_iff {n : Nat} : fits32 n = true ↔ n < 4294967296 := decide_eq_true_iff

theorem fits10_iff {n : Nat} : fits10 n = true ↔ n < 1024 := decide_eq_true_iff

/-- The opcode byte of a command's word (R71). -/
theorem fieldOp_encode (i : Instr) : fieldOp (encode i) = i.opcode.byte := by
  cases i with
  | nop | gfMul | gfExp | gfLog => exact Laws.OpcodeByte.fieldOp_assembleS ..
  | polyMul | polyDiv | genPoly | rsEnc => exact Laws.OpcodeByte.fieldOp_assembleP ..

/-- The ranges a command does not use are 0 in its word. -/
theorem zeroFields_encode {i : Instr} (h : i.wellFormed = true) : i.opcode.ZeroFieldsOf (encode i) := by
  cases i with
  | nop | gfMul | gfLog =>
    simp [Opcode.ZeroFieldsOf, Instr.opcode, Opcode.zeroFields, encode, assembleS_eq, BitVec.extractLsb'_or,
      extractLsb'_place_disjoint]
  | gfExp index =>
    simp [Opcode.ZeroFieldsOf, Instr.opcode, Opcode.zeroFields, encode, assembleS_eq, fits32_iff.mp h,
      BitVec.extractLsb'_or, extractLsb'_place_disjoint]
  | polyMul | polyDiv | genPoly | rsEnc =>
    simp only [Instr.wellFormed, Bool.and_eq_true, fits10_iff] at h
    simp [Opcode.ZeroFieldsOf, Instr.opcode, Opcode.zeroFields, encode, assembleP_eq, h, BitVec.extractLsb'_or,
      extractLsb'_place_disjoint]

/-- The operands of a command are in the fields of its word. -/
theorem operands_encode {i : Instr} (h : i.wellFormed = true) : i.opcode.operands (encode i) = i := by
  cases i with
  | nop => rfl
  | gfMul | gfLog => simp [Instr.opcode, Opcode.operands, encode, fields_assembleS]
  | gfExp index => simp [Instr.opcode, Opcode.operands, encode, fields_assembleS, fits32_iff.mp h]
  | polyMul | polyDiv | genPoly | rsEnc =>
    simp only [Instr.wellFormed, Bool.and_eq_true, fits10_iff] at h
    simp [Instr.opcode, Opcode.operands, encode, fields_assembleP, h]

/-! ## A legal word is the fields of its command and nothing else -/

/-- The bit ranges, (low bit, width), that hold the operands of a command (R72, R73, R76). -/
def Opcode.operandFields : Opcode → List (Nat × Nat)
  | .nop => []
  | .gfMul => [(8, 8), (16, 8)]
  | .gfExp => [(32, 32)]
  | .gfLog => [(8, 8)]
  | .polyMul => [(8, 10), (18, 10), (28, 10), (38, 10), (48, 10)]
  | .polyDiv => [(8, 10), (18, 10), (28, 10), (38, 10), (48, 10)]
  | .genPoly => [(38, 10), (48, 10)]
  | .rsEnc => [(8, 10), (18, 10), (38, 10), (48, 10)]

/-- Every bit of a word is a bit of the mask or of an operand (R75). -/
theorem Opcode.mask_or_operandFields (op : Opcode) :
    op.operandFields.foldl (fun m f => m ||| fieldMask f.1 f.2) op.mask = BitVec.allOnes 64 := by
  cases op <;> decide

/-- What a mask joined with some fields selects. -/
theorem and_foldl_fieldMask (w m : Word64) (fields : List (Nat × Nat)) :
    w &&& fields.foldl (fun m f => m ||| fieldMask f.1 f.2) m =
      fields.foldl (fun v f => v ||| place f.1 (w.extractLsb' f.1 f.2)) (w &&& m) := by
  induction fields generalizing m with
  | nil => rfl
  | cons f fields ih => rw [List.foldl_cons, ih, List.foldl_cons, BitVec.and_or_distrib_left, and_fieldMask]

/-- A legal word is its opcode and its operand fields. -/
theorem eq_operandFields_of_match {w : Word64} {op : Opcode} (h : w &&& op.mask = op.matchWord) :
    w = op.operandFields.foldl (fun v f => v ||| place f.1 (w.extractLsb' f.1 f.2)) (place 0 op.byte) := by
  rw [← op.matchWord_eq, ← h, ← and_foldl_fieldMask, op.mask_or_operandFields, BitVec.and_allOnes]

/-- What the numeric fields hold fits them. -/
theorem fields_lt (w : Word64) :
    fieldIdx w < 4294967296 ∧ fieldF1 w < 1024 ∧ fieldF2 w < 1024 ∧ fieldF3 w < 1024 ∧ fieldF4 w < 1024 ∧
      fieldF5 w < 1024 :=
  ⟨BitVec.isLt _, BitVec.isLt _, BitVec.isLt _, BitVec.isLt _, BitVec.isLt _, BitVec.isLt _⟩

/-- The number in a numeric field is the bits of the field. -/
theorem ofNat_fields (w : Word64) :
    BitVec.ofNat 32 (fieldIdx w) = w.extractLsb' 32 32 ∧ BitVec.ofNat 10 (fieldF1 w) = w.extractLsb' 8 10 ∧
      BitVec.ofNat 10 (fieldF2 w) = w.extractLsb' 18 10 ∧ BitVec.ofNat 10 (fieldF3 w) = w.extractLsb' 28 10 ∧
      BitVec.ofNat 10 (fieldF4 w) = w.extractLsb' 38 10 ∧ BitVec.ofNat 10 (fieldF5 w) = w.extractLsb' 48 10 := by
  simp only [fieldIdx, fieldF1, fieldF2, fieldF3, fieldF4, fieldF5, BitVec.ofNat_toNat, BitVec.setWidth_eq, and_self]

/-- The fields of a word fit where they came from. -/
theorem wellFormed_operands (op : Opcode) (w : Word64) : (op.operands w).wellFormed = true := by
  cases op with
  | nop | gfMul | gfLog => rfl
  | gfExp => exact fits32_iff.mpr (fields_lt w).1
  | polyMul | polyDiv | genPoly | rsEnc =>
    simp [Opcode.operands, Instr.wellFormed, fits10_iff, fields_lt w]

/-- The word of a command whose operands are fields of `w` has these fields. -/
theorem encode_operands (op : Opcode) (w : Word64) :
    encode (op.operands w) =
      op.operandFields.foldl (fun v f => v ||| place f.1 (w.extractLsb' f.1 f.2)) (place 0 op.byte) := by
  cases op with
  | nop | gfMul | gfLog => simp [Opcode.operands, encode, assembleS_eq, Opcode.operandFields, fieldA, fieldB]
  | gfExp => simp [Opcode.operands, encode, assembleS_eq, fields_lt w, ofNat_fields w, Opcode.operandFields]
  | polyMul | polyDiv | genPoly | rsEnc =>
    simp [Opcode.operands, encode, assembleP_eq, fields_lt w, ofNat_fields w, Opcode.operandFields]

end Sys2Proof
end

section
/-! PROOF. Which words decode, and that the decoder and the encoder invert each other (30_encoding.md R75 to R80). -/

namespace Sys2Proof

open Machine Spec

/-- Settles O2: the word of a command has its opcode, 0 where the command uses nothing, and its operands in its
fields. -/
theorem decodeInvertsEncode : Obligations.DecodeInvertsEncode := by
  intro i h
  rw [decode_of_zeroFields (fieldOp_encode i) (zeroFields_encode h), operands_encode h]

/-- Settles O3: a word that passes the decoder's check is its opcode and its operand fields, and so is the word of the
command with these operands. -/
theorem encodeInvertsDecode : Obligations.EncodeInvertsDecode := by
  intro w i h
  obtain ⟨op, -, hm, rfl⟩ := decode_eq_ok_iff.mp h
  exact ⟨wellFormed_operands op w, (encode_operands op w).trans (eq_operandFields_of_match hm).symm⟩

/-- Settles O4: an illegal word does not decode, and a word that is not illegal passes the decoder's check. -/
theorem decodeRefusesExactlyIllegalWords : Obligations.DecodeRefusesExactlyIllegalWords :=
  fun _ => decode_eq_error_iff

/-- Settles O5: the core's step is `Execute` of the word in flight, by whether that word decodes. -/
theorem illegalWordRecordsIllegalCommand : Obligations.IllegalWordRecordsIllegalCommand := by
  intro s w hp
  have hstep : coreStep s = execute w s := by rw [coreStep, hp]
  rw [hstep, execute]
  constructor
  · intro hw
    obtain ⟨e, he⟩ := decode_eq_error_iff.mpr hw
    rw [he]
    rfl
  · intro hw
    obtain ⟨op, hop, hz⟩ := zeroFields_of_not_illegalWord hw
    refine ⟨op.operands w, decode_of_zeroFields hop hz, ?_⟩
    rw [decode_of_zeroFields hop hz]

end Sys2Proof
end

section
/-! SUPPORT. How the assembler reads text (30_encoding.md R80): blanks, numerals, and the operands between commas. -/

open Sys2Proof.Spec

namespace Sys2Proof.Machine

/-! ## Blanks -/

theorem trimBlanks_eq_rdropWhile (l : List Char) : trimBlanks l = (l.dropWhile isBlank).rdropWhile isBlank := rfl

/-- Blanks in front are trimmed. -/
theorem trimBlanks_append_left {pre : List Char} (h : ∀ c ∈ pre, isBlank c = true) (t : List Char) :
    trimBlanks (pre ++ t) = trimBlanks t := by
  rw [trimBlanks, List.dropWhile_append_of_pos h, trimBlanks]

/-- Blanks at the end are trimmed. -/
theorem trimBlanks_append_right {post : List Char} (h : ∀ c ∈ post, isBlank c = true) (t : List Char) :
    trimBlanks (t ++ post) = trimBlanks t := by
  rw [trimBlanks, trimBlanks, List.dropWhile_append]
  split
  · rename_i ht
    rw [List.dropWhile_eq_nil_iff.mpr h, List.isEmpty_iff.mp ht]
  · rw [List.reverse_append, List.dropWhile_append_of_pos (by simpa using h)]

/-- A text without blanks stays as it is. -/
theorem trimBlanks_of_no_blank {t : List Char} (h : ∀ c ∈ t, isBlank c = false) : trimBlanks t = t := by
  have hdrop : t.dropWhile isBlank = t :=
    List.dropWhile_eq_self_iff.mpr fun hl => ne_true_of_eq_false (h _ (List.getElem_mem hl))
  rw [trimBlanks_eq_rdropWhile, hdrop]
  exact (List.rdropWhile_eq_self_iff ..).mpr fun hl => ne_true_of_eq_false (h _ (List.getLast_mem hl))

/-- A text is its trimmed text between blanks. -/
theorem exists_trimBlanks (l : List Char) :
    ∃ pre post, (∀ c ∈ pre, isBlank c = true) ∧ (∀ c ∈ post, isBlank c = true) ∧ l = pre ++ trimBlanks l ++ post := by
  refine ⟨l.takeWhile isBlank, (l.dropWhile isBlank).rtakeWhile isBlank, fun c => List.mem_takeWhile_imp,
    fun c => List.mem_rtakeWhile_imp, ?_⟩
  rw [List.append_assoc, trimBlanks_eq_rdropWhile, List.rdropWhile_append_rtakeWhile, List.takeWhile_append_dropWhile]

/-- A trimmed text does not begin with a blank. -/
theorem isBlank_head?_trimBlanks {l : List Char} {c : Char} (h : (trimBlanks l).head? = some c) :
    isBlank c = false := by
  rw [trimBlanks_eq_rdropWhile] at h
  obtain ⟨post, hpost⟩ := List.rdropWhile_prefix isBlank (l.dropWhile isBlank)
  have hhead := List.head?_dropWhile_not isBlank l
  rw [← hpost, List.head?_append, h] at hhead
  exact hhead

/-! ## Numerals -/

/-- A digit stands behind the blanks and the comma in the order of characters. -/
theorem digitValue?_ge {base d : Nat} {c : Char} (h : digitValue? base c = some d) : 48 ≤ c.toNat := by
  simp only [digitValue?] at h
  split_ifs at h <;> omega

theorem digitsValue?_ge {base acc v : Nat} {t : List Char} (h : digitsValue? base acc t = some v) :
    ∀ c ∈ t, 48 ≤ c.toNat := by
  induction t generalizing acc with
  | nil => simp
  | cons c t ih =>
    unfold digitsValue? at h
    split at h
    · rename_i d hd
      simpa using ⟨digitValue?_ge hd, ih h⟩
    · cases h

/-- The characters of a numeral stand behind the blanks and the comma. -/
theorem number?_ge {t : List Char} {v : Nat} (h : number? t = some v) : ∀ c ∈ t, 48 ≤ c.toNat := by
  unfold number? at h
  split at h
  · cases h
  · split at h
    · cases h
    · simpa using digitsValue?_ge h
  · exact digitsValue?_ge h

theorem isBlank_eq_false_of_ge {c : Char} (h : 48 ≤ c.toNat) : isBlank c = false := by
  have hspace : c ≠ ' ' := by rintro rfl; exact absurd h (by decide)
  have htab : c ≠ '\t' := by rintro rfl; exact absurd h (by decide)
  simp [isBlank, hspace, htab]

/-- The digit of a number below the base is read as that number. -/
theorem digitValue?_digitChar : (∀ d < 10, digitValue? 10 (Nat.digitChar d) = some d) ∧
    ∀ d < 16, digitValue? 16 (Nat.digitChar d) = some d := by decide

/-- The digits of a numeral are read by Horner's rule. -/
theorem digitsValue?_map {base : Nat} (hdigit : ∀ d < base, digitValue? base (Nat.digitChar d) = some d)
    {ds : List Nat} (h : ∀ d ∈ ds, d < base) (acc : Nat) :
    digitsValue? base acc (ds.map Nat.digitChar) = some (ds.foldl (fun v d => base * v + d) acc) := by
  induction ds generalizing acc with
  | nil => rfl
  | cons d ds ih =>
    rw [List.map_cons, digitsValue?, hdigit d (h d (.head _)), List.foldl_cons, Nat.mul_comm base]
    exact ih (fun e he => h e (.tail _ he)) _

/-- A decimal numeral is its number. -/
theorem number?_decimal {ds : List Nat} (hne : ds ≠ []) (h : ∀ d ∈ ds, d < 10) :
    number? (ds.map Nat.digitChar) = some (ds.foldl (fun v d => 10 * v + d) 0) := by
  have hx : ∀ d < 10, Nat.digitChar d ≠ 'x' := by decide
  rw [← digitsValue?_map digitValue?_digitChar.1 h]
  unfold number?
  split
  · rename_i hnil
    exact absurd (List.map_eq_nil_iff.mp hnil) hne
  · rename_i rest heq
    obtain ⟨d, hd, hdx⟩ := List.mem_map.mp (heq ▸ by simp : 'x' ∈ ds.map Nat.digitChar)
    exact absurd hdx (hx d (h d hd))
  · rfl

/-- A hexadecimal numeral is its number. -/
theorem number?_hex {ds : List Nat} (hne : ds ≠ []) (h : ∀ d ∈ ds, d < 16) :
    number? ('0' :: 'x' :: ds.map Nat.digitChar) = some (ds.foldl (fun v d => 16 * v + d) 0) := by
  rw [number?, if_neg (by simpa using hne), digitsValue?_map digitValue?_digitChar.2 h]

/-! ## The parts between commas -/

theorem splitCommas_eq_splitOn (t : List Char) : splitCommas t = t.splitOn ',' := by
  induction t with
  | nil => rfl
  | cons c t ih =>
    rw [splitCommas, List.splitOn_cons_eq_if_modifyHead, ih]
    by_cases hc : c = ','
    · simp [hc]
    · obtain ⟨part, parts, hsplit⟩ := List.exists_cons_of_ne_nil (List.splitOn_ne_nil ',' t)
      simp [hc, hsplit]

theorem splitCommas_ne_nil (t : List Char) : splitCommas t ≠ [] := by
  rw [splitCommas_eq_splitOn]
  exact List.splitOn_ne_nil ',' t

/-- The operand texts are read as these numbers, one each. -/
theorem numbers?_eq_some_iff {ts : List (List Char)} {vs : List Nat} :
    numbers? ts = some vs ↔ List.Forall₂ (fun t v => number? (trimBlanks t) = some v) ts vs := by
  induction ts generalizing vs with
  | nil => simp [numbers?, eq_comm]
  | cons t ts ih =>
    rw [List.forall₂_cons_left_iff, numbers?]
    simp only [← ih]
    cases number? (trimBlanks t) <;> cases numbers? ts <;> simp [eq_comm]

/-- Texts that are read alike one by one are read alike. -/
theorem numbers?_cons_congr {t t' : List Char} {ts ts' : List (List Char)}
    (h : number? (trimBlanks t) = number? (trimBlanks t')) (hs : numbers? ts = numbers? ts') :
    numbers? (t :: ts) = numbers? (t' :: ts') := by
  rw [numbers?, numbers?, h, hs]

/-- Blanks in front of the first operand do not matter. -/
theorem numbers?_splitCommas_append_left {pre : List Char} (h : ∀ c ∈ pre, isBlank c = true) (t : List Char) :
    numbers? (splitCommas (pre ++ t)) = numbers? (splitCommas t) := by
  induction pre with
  | nil => rfl
  | cons c pre ih =>
    obtain ⟨hc, hpre⟩ := List.forall_mem_cons.mp h
    have hcomma : c ≠ ',' := by rintro rfl; exact absurd hc (by decide)
    obtain ⟨part, parts, hsplit⟩ := List.exists_cons_of_ne_nil (splitCommas_ne_nil (pre ++ t))
    have hcons : splitCommas (c :: (pre ++ t)) = (c :: part) :: parts := by rw [splitCommas, if_neg hcomma, hsplit]
    rw [← ih hpre, List.cons_append, hcons, hsplit]
    have htrim : trimBlanks (c :: part) = trimBlanks part :=
      trimBlanks_append_left (pre := [c]) (by simpa using hc) part
    exact numbers?_cons_congr (congrArg number? htrim) rfl

/-- What is appended without a comma goes to the last part. -/
theorem splitCommas_append_right {post : List Char} (h : ',' ∉ post) (t : List Char) :
    ∃ init last, splitCommas t = init ++ [last] ∧ splitCommas (t ++ post) = init ++ [last ++ post] := by
  induction t with
  | nil => exact ⟨[], [], rfl, by rw [splitCommas_eq_splitOn]; exact List.splitOn_eq_singleton h⟩
  | cons c t ih =>
    obtain ⟨init, last, ht, htp⟩ := ih
    rw [List.cons_append, splitCommas, splitCommas, ht, htp]
    by_cases hc : c = ','
    · exact ⟨[] :: init, last, by simp [hc], by simp [hc]⟩
    · cases init with
      | nil => exact ⟨[], c :: last, by simp [hc], by simp [hc]⟩
      | cons part init => exact ⟨(c :: part) :: init, last, by simp [hc], by simp [hc]⟩

/-- Blanks behind the last operand do not matter. -/
theorem numbers?_splitCommas_append_right {post : List Char} (h : ∀ c ∈ post, isBlank c = true) (t : List Char) :
    numbers? (splitCommas (t ++ post)) = numbers? (splitCommas t) := by
  have hcomma : ',' ∉ post := fun hm => absurd (h _ hm) (by decide)
  obtain ⟨init, last, ht, htp⟩ := splitCommas_append_right hcomma t
  rw [ht, htp]
  clear ht htp
  induction init with
  | nil => exact numbers?_cons_congr (by rw [trimBlanks_append_right h]) rfl
  | cons part init ih => exact numbers?_cons_congr rfl ih

/-- The blanks around the operands do not matter. -/
theorem numbers?_splitCommas_trimBlanks (t : List Char) :
    numbers? (splitCommas (trimBlanks t)) = numbers? (splitCommas t) := by
  obtain ⟨pre, post, hpre, hpost, ht⟩ := exists_trimBlanks t
  conv_rhs => rw [ht, numbers?_splitCommas_append_right hpost, numbers?_splitCommas_append_left hpre]

/-! ## Operands as they stand in a line -/

/-- The characters of an operand, with its blanks. -/
def operandChars (o : OperandText) : List Char := o.before ++ o.text ++ o.after

theorem number?_operandChars {o : OperandText} (h : o.Written) :
    number? (trimBlanks (operandChars o)) = some o.value := by
  obtain ⟨hbefore, hnumber, hafter⟩ := h
  have htext : ∀ c ∈ o.text, isBlank c = false := fun c hc => isBlank_eq_false_of_ge (number?_ge hnumber c hc)
  rw [operandChars, trimBlanks_append_right hafter, trimBlanks_append_left hbefore, trimBlanks_of_no_blank htext,
    hnumber]

theorem comma_not_mem_operandChars {o : OperandText} (h : o.Written) : ',' ∉ operandChars o := by
  obtain ⟨hbefore, hnumber, hafter⟩ := h
  have hblank : isBlank ',' ≠ true := by decide
  have hdigit : ¬ 48 ≤ ','.toNat := by decide
  simp only [operandChars, List.mem_append, not_or]
  exact ⟨⟨fun hm => hblank (hbefore _ hm), fun hm => hdigit (number?_ge hnumber _ hm)⟩,
    fun hm => hblank (hafter _ hm)⟩

/-- A text that is read as a number is an operand of that number between blanks. -/
theorem exists_operandText {t : List Char} {v : Nat} (h : number? (trimBlanks t) = some v) :
    ∃ o : OperandText, operandChars o = t ∧ o.value = v ∧ o.Written := by
  obtain ⟨pre, post, hpre, hpost, ht⟩ := exists_trimBlanks t
  exact ⟨⟨pre, trimBlanks t, post, v⟩, ht.symm, rfl, hpre, h, hpost⟩

theorem exists_operandTexts {ts : List (List Char)} {vs : List Nat}
    (h : List.Forall₂ (fun t v => number? (trimBlanks t) = some v) ts vs) :
    ∃ os : List OperandText, os.map operandChars = ts ∧ os.map OperandText.value = vs ∧ ∀ o ∈ os, o.Written := by
  induction h with
  | nil => exact ⟨[], rfl, rfl, by simp⟩
  | cons hhead _ ih =>
    obtain ⟨o, hchars, hvalue, ho⟩ := exists_operandText hhead
    obtain ⟨os, hcs, hvs, hos⟩ := ih
    exact ⟨o :: os, by simp [hchars, hcs], by simp [hvalue, hvs], by simpa using ⟨ho, hos⟩⟩

/-- The numbers between the commas of a text are those of the operands that it writes. -/
theorem numbers?_splitCommas_eq_some_iff {t : List Char} {vs : List Nat} :
    numbers? (splitCommas t) = some vs ↔
      ∃ os : List OperandText, os ≠ [] ∧ t = [','].intercalate (os.map operandChars) ∧
        os.map OperandText.value = vs ∧ ∀ o ∈ os, o.Written := by
  rw [numbers?_eq_some_iff, splitCommas_eq_splitOn]
  constructor
  · intro h
    obtain ⟨os, hcs, hvs, hos⟩ := exists_operandTexts h
    refine ⟨os, ?_, ?_, hvs, hos⟩
    · rintro rfl
      exact List.splitOn_ne_nil ',' t hcs.symm
    · rw [hcs, List.intercalate_splitOn]
  · rintro ⟨os, hne, rfl, rfl, hos⟩
    have hcomma : ∀ t ∈ os.map operandChars, ',' ∉ t := by
      simpa using fun o ho => comma_not_mem_operandChars (hos o ho)
    rw [List.splitOn_intercalate ',' hcomma (by simpa using hne), List.forall₂_map_left_iff,
      List.forall₂_map_right_iff, List.forall₂_same]
    exact fun o ho => number?_operandChars (hos o ho)

end Sys2Proof.Machine
end

section
/-! PROOF. A line of assembly (30_encoding.md R80): the command of a mnemonic with its numbers, and the parts of a
line. -/

namespace Sys2Proof.Machine

open Sys2Proof.Spec

/-! ## The command of a mnemonic with its numbers -/

theorem fits8_iff {n : Nat} : fits8 n = true ↔ n < 256 := decide_eq_true_iff

theorem ifFits_eq_some_iff {i j : Instr} : ifFits i = some j ↔ i.wellFormed = true ∧ i = j := by
  simp [ifFits]

/-- The command that a mnemonic gives has that mnemonic's opcode and these numbers, which fit. -/
theorem of_commandOf?_eq_some {op : Opcode} {values : List Nat} {i : Instr} (h : commandOf? op values = some i) :
    i.wellFormed = true ∧ i.opcode = op ∧ operandValues i = values := by
  cases op with
  | nop =>
    match values, h with
    | [], h => cases h; exact ⟨rfl, rfl, rfl⟩
  | gfMul =>
    match values, h with
    | [a, b], h =>
      simp only [commandOf?, Bool.and_eq_true, fits8_iff, Option.ite_none_right_eq_some, Option.some.injEq] at h
      obtain ⟨⟨ha, hb⟩, rfl⟩ := h
      exact ⟨rfl, rfl, by simp [operandValues, Nat.mod_eq_of_lt ha, Nat.mod_eq_of_lt hb]⟩
  | gfLog =>
    match values, h with
    | [x], h =>
      simp only [commandOf?, fits8_iff, Option.ite_none_right_eq_some, Option.some.injEq] at h
      obtain ⟨hx, rfl⟩ := h
      exact ⟨rfl, rfl, by simp [operandValues, Nat.mod_eq_of_lt hx]⟩
  | gfExp =>
    match values, h with
    | [n], h =>
      obtain ⟨hwf, rfl⟩ := ifFits_eq_some_iff.mp h
      exact ⟨hwf, rfl, rfl⟩
  | polyMul | polyDiv =>
    match values, h with
    | [dst, aAddr, aLen, bAddr, bLen], h =>
      obtain ⟨hwf, rfl⟩ := ifFits_eq_some_iff.mp h
      exact ⟨hwf, rfl, rfl⟩
  | genPoly =>
    match values, h with
    | [dst, deg], h =>
      obtain ⟨hwf, rfl⟩ := ifFits_eq_some_iff.mp h
      exact ⟨hwf, rfl, rfl⟩
  | rsEnc =>
    match values, h with
    | [dst, dataAddr, dataLen, ec], h =>
      obtain ⟨hwf, rfl⟩ := ifFits_eq_some_iff.mp h
      exact ⟨hwf, rfl, rfl⟩

/-- A command whose operands fit is the command of its mnemonic with its numbers. -/
theorem commandOf?_operandValues {i : Instr} (h : i.wellFormed = true) :
    commandOf? i.opcode (operandValues i) = some i := by
  cases i with
  | nop => rfl
  | gfMul a b => simp [Instr.opcode, operandValues, commandOf?, fits8_iff, BitVec.isLt a, BitVec.isLt b]
  | gfLog x => simp [Instr.opcode, operandValues, commandOf?, fits8_iff, BitVec.isLt x]
  | gfExp | polyMul | polyDiv | genPoly | rsEnc => exact ifFits_eq_some_iff.mpr ⟨h, rfl⟩

theorem commandOf?_eq_some_iff {op : Opcode} {values : List Nat} {i : Instr} :
    commandOf? op values = some i ↔ i.wellFormed = true ∧ i.opcode = op ∧ operandValues i = values := by
  refine ⟨of_commandOf?_eq_some, ?_⟩
  rintro ⟨hwf, rfl, rfl⟩
  exact commandOf?_operandValues hwf

/-- The numbers of a command whose operands fit are below the bounds of its fields (R72, R73). -/
theorem operandValues_lt_bounds {i : Instr} (h : i.wellFormed = true) :
    List.Forall₂ (· < ·) (operandValues i) (operandBounds i.opcode) := by
  cases i with
  | nop => exact .nil
  | gfMul a b => simp [operandValues, operandBounds, Instr.opcode, BitVec.isLt a, BitVec.isLt b]
  | gfLog x => simp [operandValues, operandBounds, Instr.opcode, BitVec.isLt x]
  | gfExp => simpa [operandValues, operandBounds, Instr.opcode] using fits32_iff.mp h
  | polyMul | polyDiv | genPoly | rsEnc =>
    simpa [operandValues, operandBounds, Instr.opcode, Instr.wellFormed, fits10_iff, and_assoc] using h

/-- A mnemonic with numbers below the bounds of its fields gives a command. -/
theorem exists_commandOf? {op : Opcode} {values : List Nat} (h : List.Forall₂ (· < ·) values (operandBounds op)) :
    ∃ i, commandOf? op values = some i := by
  cases op <;> simp only [operandBounds, List.forall₂_cons_right_iff, List.forall₂_nil_right_iff] at h
  case nop =>
    exact ⟨_, by rw [h]; rfl⟩
  case gfMul =>
    obtain ⟨a, _, ha, ⟨b, _, hb, rfl, rfl⟩, rfl⟩ := h
    exact ⟨_, if_pos (by simpa [fits8_iff] using ⟨ha, hb⟩)⟩
  case gfLog =>
    obtain ⟨x, _, hx, rfl, rfl⟩ := h
    exact ⟨_, if_pos (by simpa [fits8_iff] using hx)⟩
  case gfExp =>
    obtain ⟨n, _, hn, rfl, rfl⟩ := h
    exact ⟨_, ifFits_eq_some_iff.mpr ⟨by simpa [Instr.wellFormed, fits32_iff] using hn, rfl⟩⟩
  case polyMul | polyDiv =>
    obtain ⟨dst, _, h5, ⟨a, _, h1, ⟨m, _, h2, ⟨b, _, h3, ⟨n, _, h4, rfl, rfl⟩, rfl⟩, rfl⟩, rfl⟩, rfl⟩ := h
    exact ⟨_, ifFits_eq_some_iff.mpr
      ⟨by simpa [Instr.wellFormed, fits10_iff, and_assoc] using ⟨h5, h1, h2, h3, h4⟩, rfl⟩⟩
  case genPoly =>
    obtain ⟨dst, _, h5, ⟨deg, _, h4, rfl, rfl⟩, rfl⟩ := h
    exact ⟨_, ifFits_eq_some_iff.mpr ⟨by simpa [Instr.wellFormed, fits10_iff] using ⟨h5, h4⟩, rfl⟩⟩
  case rsEnc =>
    obtain ⟨dst, _, h5, ⟨data, _, h1, ⟨n, _, h2, ⟨ec, _, h4, rfl, rfl⟩, rfl⟩, rfl⟩, rfl⟩ := h
    exact ⟨_, ifFits_eq_some_iff.mpr ⟨by simpa [Instr.wellFormed, fits10_iff, and_assoc] using ⟨h5, h1, h2, h4⟩, rfl⟩⟩

/-! ## The parts of a line -/

/-- The first word of a line. -/
def lineName (line : List Char) : List Char := (trimBlanks line).takeWhile fun c => !isBlank c

/-- What stands behind the first word of a line, trimmed. -/
def lineRest (line : List Char) : List Char := trimBlanks ((trimBlanks line).dropWhile fun c => !isBlank c)

/-- The mnemonic is found by its text (R80). -/
theorem find?_mnemonic_eq_some_iff {name : List Char} {op : Opcode} :
    (Opcode.all.find? fun op => mnemonicText op == name) = some op ↔ mnemonicText op = name := by
  constructor
  · intro h
    simpa using List.find?_some h
  · rintro rfl
    cases op <;> decide

theorem mnemonicText_ne_nil (op : Opcode) : mnemonicText op ≠ [] := by
  cases op <;> decide

theorem mnemonicText_no_blank (op : Opcode) : ∀ c ∈ mnemonicText op, isBlank c = false := by
  have hall : (mnemonicText op).all (fun c => !isBlank c) = true := by cases op <;> decide
  simpa using hall

/-- The line is read as this mnemonic with these numbers. -/
def ReadsAs (line : List Char) (op : Opcode) (values : List Nat) : Prop :=
  mnemonicText op = lineName line ∧
    ((lineRest line = [] ∧ values = []) ∨
      (lineRest line ≠ [] ∧ numbers? (splitCommas (lineRest line)) = some values))

/-- A line parses to the command of the mnemonic and the numbers that it is read as. -/
theorem parseLine_eq_some_iff {line : List Char} {i : Instr} :
    parseLine line = some i ↔ ∃ op values, ReadsAs line op values ∧ commandOf? op values = some i := by
  constructor
  · intro h
    simp only [parseLine] at h
    split at h
    · cases h
    rename_i op hop
    have hname := find?_mnemonic_eq_some_iff.mp hop
    split at h <;> rename_i hrest
    · exact ⟨op, [], ⟨hname, .inl ⟨hrest, rfl⟩⟩, h⟩
    split at h
    · exact ⟨op, _, ⟨hname, .inr ⟨hrest, ‹_›⟩⟩, h⟩
    · cases h
  · rintro ⟨op, values, ⟨hname, ⟨hrest, rfl⟩ | ⟨hrest, hvalues⟩⟩, h⟩
    · rw [lineName, ← find?_mnemonic_eq_some_iff] at hname
      rw [lineRest] at hrest
      simp only [parseLine, hname, if_pos hrest, h]
    · rw [lineName, ← find?_mnemonic_eq_some_iff] at hname
      rw [lineRest] at hrest hvalues
      simp only [parseLine, hname, if_neg hrest, hvalues, h]

/-- A line is its first word and what stands behind it, between blanks. -/
theorem exists_line_parts (line : List Char) :
    ∃ indent gap tail, (∀ c ∈ indent, isBlank c = true) ∧ (∀ c ∈ gap, isBlank c = true) ∧
      (∀ c ∈ tail, isBlank c = true) ∧ line = indent ++ lineName line ++ gap ++ lineRest line ++ tail ∧
      (lineRest line ≠ [] → gap ≠ []) := by
  obtain ⟨indent, post, hindent, hpost, hline⟩ := exists_trimBlanks line
  obtain ⟨gap, tail, hgap, htail, hbehind⟩ := exists_trimBlanks ((trimBlanks line).dropWhile fun c => !isBlank c)
  refine ⟨indent, gap, tail ++ post, hindent, hgap, ?_, ?_, ?_⟩
  · exact fun c hc => (List.mem_append.mp hc).elim (htail c) (hpost c)
  · calc line = indent ++ trimBlanks line ++ post := hline
      _ = indent ++ (lineName line ++ (gap ++ lineRest line ++ tail)) ++ post := by
        rw [lineName, lineRest, ← hbehind, List.takeWhile_append_dropWhile]
      _ = indent ++ lineName line ++ gap ++ lineRest line ++ (tail ++ post) := by simp
  · rintro hrest rfl
    obtain ⟨c, rest, hc⟩ := List.exists_cons_of_ne_nil hrest
    have hblank := List.head?_dropWhile_not (fun c => !isBlank c) (trimBlanks line)
    rw [lineRest] at hc
    rw [hbehind, hc] at hblank
    have hword : isBlank c = false := isBlank_head?_trimBlanks (by rw [hc]; rfl)
    simp [hword] at hblank

/-- Trimming the end of a text stops at a text without blanks. -/
theorem rdropWhile_append_of_no_blank {name : List Char} (hname : ∀ c ∈ name, isBlank c = false)
    (behind : List Char) :
    (name ++ behind).rdropWhile isBlank = name ++ behind.rdropWhile isBlank := by
  induction behind using List.reverseRecOn with
  | nil =>
    rw [List.append_nil, List.rdropWhile_nil, List.append_nil]
    exact (List.rdropWhile_eq_self_iff ..).mpr fun hl => ne_true_of_eq_false (hname _ (List.getLast_mem hl))
  | append_singleton behind c ih =>
    rw [← List.append_assoc]
    by_cases hc : isBlank c = true
    · rw [List.rdropWhile_concat_pos _ _ _ hc, List.rdropWhile_concat_pos _ _ _ hc, ih]
    · rw [List.rdropWhile_concat_neg _ _ _ hc, List.rdropWhile_concat_neg _ _ _ hc, List.append_assoc]

/-- The first word and what stands behind it are found between any blanks. -/
theorem line_parts_eq {indent name behind : List Char} (hindent : ∀ c ∈ indent, isBlank c = true) (hne : name ≠ [])
    (hname : ∀ c ∈ name, isBlank c = false) (hbehind : ∀ c ∈ behind.head?, isBlank c = true) :
    lineName (indent ++ name ++ behind) = name ∧ lineRest (indent ++ name ++ behind) = trimBlanks behind := by
  have htext : trimBlanks (indent ++ name ++ behind) = name ++ behind.rdropWhile isBlank := by
    obtain ⟨c, word, rfl⟩ := List.exists_cons_of_ne_nil hne
    have hdrop : (c :: word ++ behind).dropWhile isBlank = c :: word ++ behind := by
      simp [hname c (.head _)]
    rw [List.append_assoc, trimBlanks_append_left hindent, trimBlanks_eq_rdropWhile, hdrop,
      rdropWhile_append_of_no_blank hname]
  have hhead : ∀ c ∈ (behind.rdropWhile isBlank).head?, isBlank c = true := by
    intro c hc
    obtain ⟨post, hpost⟩ := List.rdropWhile_prefix isBlank behind
    exact hbehind c (by rw [← hpost, List.head?_append, Option.mem_def.mp hc]; rfl)
  have hword : ∀ c ∈ name, (!isBlank c) = true := by simpa using hname
  rw [lineName, lineRest, htext, List.takeWhile_append_of_pos hword, List.dropWhile_append_of_pos hword]
  have htrim : trimBlanks (behind.rdropWhile isBlank) = trimBlanks behind := by
    rw [← trimBlanks_append_right (fun c => List.mem_rtakeWhile_imp) (behind.rdropWhile isBlank),
      List.rdropWhile_append_rtakeWhile]
  rw [← htrim]
  cases h : behind.rdropWhile isBlank with
  | nil => simp
  | cons c rest =>
    rw [h] at hhead
    simp [hhead c rfl]

/-- The line is a mnemonic with operands exactly when it is read as that (R80; the blanks are log entry 19). -/
theorem lineOf_iff_readsAs {line : List Char} {op : Opcode} {values : List Nat} :
    LineOf line op values ↔ ReadsAs line op values := by
  constructor
  · rintro ⟨indent, gap, operands, rfl, rfl, hindent, hgap, hneed, hwritten⟩
    have hhead : ∀ c ∈ (gap ++ [','].intercalate (operands.map operandChars)).head?, isBlank c = true := by
      cases gap with
      | nil =>
        obtain rfl : operands = [] := by_contra fun h => hneed h rfl
        simp
      | cons c gap => simpa using hgap c (.head _)
    obtain ⟨hname, hrest⟩ := line_parts_eq hindent (mnemonicText_ne_nil op) (mnemonicText_no_blank op) hhead
    rw [trimBlanks_append_left hgap] at hrest
    have hline : lineText indent op gap operands =
        indent ++ mnemonicText op ++ (gap ++ [','].intercalate (operands.map operandChars)) := by
      rw [← List.append_assoc]
      rfl
    rw [hline, ReadsAs, hname, hrest]
    refine ⟨rfl, ?_⟩
    by_cases hnil : operands = []
    · subst hnil
      exact .inl ⟨rfl, rfl⟩
    · have hnumbers := numbers?_splitCommas_eq_some_iff.mpr ⟨operands, hnil, rfl, rfl, hwritten⟩
      rw [← numbers?_splitCommas_trimBlanks] at hnumbers
      refine .inr ⟨fun h => ?_, hnumbers⟩
      rw [h] at hnumbers
      cases hnumbers
  · rintro ⟨hname, hread⟩
    obtain ⟨indent, gap, tail, hindent, hgap, htail, hline, hneed⟩ := exists_line_parts line
    rw [← hname] at hline
    obtain ⟨hrest, rfl⟩ | ⟨hrest, hvalues⟩ := hread
    · refine ⟨indent, gap ++ tail, [], ?_, rfl, hindent, ?_, by simp, by simp⟩
      · rw [hline, hrest]
        simp [lineText]
      · exact fun c hc => (List.mem_append.mp hc).elim (hgap c) (htail c)
    · rw [← numbers?_splitCommas_append_right htail] at hvalues
      obtain ⟨operands, hne, hbody, hmap, hwritten⟩ := numbers?_splitCommas_eq_some_iff.mp hvalues
      refine ⟨indent, gap, operands, ?_, hmap, hindent, hgap, fun _ => hneed hrest, hwritten⟩
      rw [hline, List.append_assoc _ (lineRest line), hbody]
      rfl

/-- Settles O6: numerals by their digits, the mnemonics by their fields, and the line by its parts. -/
theorem assembledLineIsALegalWord : Obligations.AssembledLineIsALegalWord := by
  have hline : ∀ (line : List Char) (i : Instr),
      parseLine line = some i ↔ i.wellFormed = true ∧ LineOf line i.opcode (operandValues i) := by
    intro line i
    simp only [parseLine_eq_some_iff, commandOf?_eq_some_iff, lineOf_iff_readsAs]
    constructor
    · rintro ⟨op, values, hread, hwf, rfl, rfl⟩
      exact ⟨hwf, hread⟩
    · rintro ⟨hwf, hread⟩
      exact ⟨_, _, hread, hwf, rfl, rfl⟩
  refine ⟨fun ds => number?_decimal, fun ds => number?_hex, fun op values h => ?_, fun op values h => ?_, hline,
    fun line w => ?_, fun line i h => decodeInvertsEncode i ((hline line i).mp h).1⟩
  · obtain ⟨i, hi⟩ := exists_commandOf? h
    obtain ⟨-, hop, hvalues⟩ := commandOf?_eq_some_iff.mp hi
    exact ⟨i, hi, hop, hvalues⟩
  · rw [Option.eq_none_iff_forall_ne_some]
    intro i hi
    obtain ⟨hwf, rfl, rfl⟩ := commandOf?_eq_some_iff.mp hi
    exact h (operandValues_lt_bounds hwf)
  · simp [assembleLine, eq_comm]

end Sys2Proof.Machine
end

section
/-! PROOF. The host's statements as runs of the machine (30_encoding.md R81, 70_reset_and_hazards.md R190). -/

open Sys2Proof.Spec

namespace Sys2Proof.Machine

/-! ## One turn -/

theorem nextTurn_of_schedule {s : State} {turn : Turn} {later : List Turn} (h : s.schedule = turn :: later) :
    nextTurn s = turn := by
  simp [nextTurn, h]

@[simp] theorem popTurn_busy (s : State) : (popTurn s).busy = s.busy := rfl

/-- Whether an access is accepted depends, of the state, on the busy interval only (R57, R185). -/
theorem hostAccess_stops_congr {s t : State} (hz : t.awaitingIdle = s.awaitingIdle) (a : HostAccess) :
    (∀ r, hostAccess a s = .refused r → hostAccess a t = .refused r) ∧
    (∀ f, hostAccess a s = .fault f → hostAccess a t = .fault f) := by
  unfold hostAccess
  rw [hz]
  split_ifs <;> simp

/-- Settles O7: by the agent whose turn it is, and for `wait` by whether BUSY reads 1. -/
theorem stepRunsDecodedCommand : Obligations.StepRunsDecodedCommand := by
  refine ⟨fun s w i hT hp hd => ?_, fun s a rest hT hp => ?_, fun s rest hT hp => ⟨fun hb => ?_, fun hb => ?_⟩⟩
  · rw [step_core hT hp, execute, hd]
    rfl
  · obtain ⟨hrefused, hfault⟩ := hostAccess_stops_congr (s := s) (t := (popTurn s).setProgram rest) rfl a
    rw [step_host_access hT hp]
    exact ⟨rfl, hrefused, hfault⟩
  · have hbusy : s.busy = true := Option.isSome_iff_ne_none.mpr hb
    rw [step_host_wait hT hp, statusBusy_status, popTurn_busy, if_pos hbusy, ← hp]
    rfl
  · have hidle : s.busy = false := State.busy_eq_false_iff.mpr hb
    rw [step_host_wait hT hp, statusBusy_status, popTurn_busy, if_neg (ne_true_of_eq_false hidle)]
    rfl

/-- A run that begins with a host turn on an accepted access goes on from that access. -/
theorem run_access {s t : State} {a : HostAccess} {rest : List HostOp} {later : List Turn} (k : Nat)
    (hs : s.schedule = .host :: later) (hp : s.program = .access a :: rest)
    (h : hostAccess a ((popTurn s).setProgram rest) = .next t) :
    Sys2Proof.core.run (k + 1) s = Sys2Proof.core.run k t :=
  run_succ k ((step_host_access (nextTurn_of_schedule hs) hp).trans h)

/-! ## `dmem.bytes` -/

/-- The write of a byte to DMEM[addr] through the port, outside the busy interval. -/
theorem hostAccess_write_dmem {s : State} {addr : Nat} (hz : s.awaitingIdle = false) (ha : addr < 1024) (b : Byte) :
    hostAccess (.write 8 (offDmem + addr) (b.setWidth 32)) s = .next (s.memWrite addr [b]) := by
  rw [hostAccess_writeByte hz (by simp [offDmem]) (by simp only [offDmem]; omega), (zeroExtended_byte_fields b).1]
  simp [offDmem]

/-- The read of DMEM[addr] through the port, outside the busy interval. -/
theorem hostAccess_read_dmem {s : State} {addr : Nat} (hz : s.awaitingIdle = false) (ha : addr < 1024) (x : HostVar) :
    hostAccess (.read 8 (offDmem + addr) x) s = .next (s.setVar x ((s.readByte addr).setWidth 32)) := by
  rw [hostAccess_readByte hz (by simp [offDmem]) (by simp only [offDmem]; omega)]
  simp [offDmem]

/-- The accesses of `dmem.bytes` store its bytes, one host turn each. -/
theorem run_expandBytes {s : State} {addr : Nat} {bytes : List Byte} {rest : List HostOp} {later : List Turn}
    (hz : s.awaitingIdle = false) (hb : addr + bytes.length ≤ 1024) (hp : s.program = expandBytes addr bytes ++ rest)
    (hs : s.schedule = List.replicate bytes.length .host ++ later) :
    Sys2Proof.core.run bytes.length s =
      .next { s.memWrite addr bytes with program := rest, schedule := later } := by
  induction bytes generalizing s addr with
  | nil =>
    obtain rfl : s.program = rest := hp
    obtain rfl : s.schedule = later := hs
    rfl
  | cons b bytes ih =>
    rw [List.length_cons] at hb hs
    have hwrite := hostAccess_write_dmem (s := (popTurn s).setProgram (expandBytes (addr + 1) bytes ++ rest)) hz
      (addr := addr) (by omega) b
    refine (run_access _ hs hp hwrite).trans (ih hz (by omega) rfl ?_)
    simp [hs, List.replicate_succ]

/-- Settles O52: the run is one MemWrite. -/
theorem dmemBytesStatementStoresItsBytes : Obligations.DmemBytesStatementStoresItsBytes :=
  fun s addr bytes _ _ hz hb hp hs => ⟨_, run_expandBytes hz hb hp hs, storesExactly_memWrite s addr bytes⟩

/-! ## `dmem.read` -/

theorem State.var?_setVar_of_ne {s : State} {x y : HostVar} (h : y ≠ x) (v : Word32) :
    (s.setVar x v).var? y = s.var? y := by
  have hxy : (x == y) = false := by simpa using h.symm
  simp only [State.var?, State.setVar, List.find?_cons, hxy, List.find?_filter]
  congr 2
  funext p
  by_cases hp : p.1 = y <;> simp [hp, h]

/-- The read of DMEM[addr+k] into element `k` of the variable `name`. -/
def readElement (addr name k : Nat) : HostOp := .access (.read 8 (offDmem + addr + k) ⟨name, k⟩)

theorem expand_dmemRead (addr n name : Nat) :
    HostStmt.expand (.dmemRead addr n name) = (List.range n).map (readElement addr name) := rfl

/-- These reads assign their elements, one host turn each, and no other variable. -/
theorem run_readElements {s : State} {addr name : Nat} {ks : List Nat} {rest : List HostOp} {later : List Turn}
    (hz : s.awaitingIdle = false) (hb : ∀ k ∈ ks, addr + k < 1024)
    (hp : s.program = ks.map (readElement addr name) ++ rest)
    (hs : s.schedule = List.replicate ks.length .host ++ later) :
    ∃ t, Sys2Proof.core.run ks.length s = .next t ∧
      t = { s with hostVars := t.hostVars, program := rest, schedule := later } ∧
      (∀ k ∈ ks, t.var? ⟨name, k⟩ = some ((s.readByte (addr + k)).setWidth 32)) ∧
      ∀ x : HostVar, (x.name ≠ name ∨ x.index ∉ ks) → t.var? x = s.var? x := by
  induction ks generalizing s with
  | nil =>
    obtain rfl : s.program = rest := hp
    obtain rfl : s.schedule = later := hs
    exact ⟨s, rfl, rfl, by simp, fun _ _ => rfl⟩
  | cons k ks ih =>
    rw [List.length_cons] at hs
    have hread := hostAccess_read_dmem (s := (popTurn s).setProgram (ks.map (readElement addr name) ++ rest)) hz
      (hb k (.head _)) ⟨name, k⟩
    rw [← Nat.add_assoc] at hread
    obtain ⟨t, hrun, hframe, hset, hkeep⟩ := ih
      (s := ((popTurn s).setProgram (ks.map (readElement addr name) ++ rest)).setVar ⟨name, k⟩
        ((s.readByte (addr + k)).setWidth 32))
      hz (fun j hj => hb j (.tail _ hj)) rfl (by simp [hs, List.replicate_succ])
    refine ⟨t, (run_access _ hs hp hread).trans hrun, hframe, fun j hj => ?_, fun x hx => ?_⟩
    · by_cases hjk : j ∈ ks
      · exact hset j hjk
      · obtain rfl : j = k := by simpa [hjk] using hj
        rw [hkeep _ (.inr hjk), State.var?_setVar_same]
    · have hne : x ≠ ⟨name, k⟩ := by
        rintro rfl
        simp at hx
      exact (hkeep x (hx.imp id fun hx hks => hx (.tail _ hks))).trans (State.var?_setVar_of_ne hne _)

/-- Settles O53: the expansion is the reads of the elements below n. -/
theorem dmemReadStatementReadsItsBytes : Obligations.DmemReadStatementReadsItsBytes := by
  intro s addr n name rest later hz hb hp hs
  have hbound : ∀ k ∈ List.range n, addr + k < 1024 := fun k hk => by
    have := List.mem_range.mp hk
    omega
  rw [expand_dmemRead] at hp
  obtain ⟨t, hrun, hframe, hset, hkeep⟩ := run_readElements hz hbound hp (by simpa using hs)
  rw [List.length_range] at hrun
  exact ⟨t, hrun, hframe, fun k hk => hset k (List.mem_range.mpr hk), fun x hx => hkeep x (by simpa using hx)⟩

/-! ## `exec` -/

/-- The part of the host's variables that the polls of `wait` leave alone. -/
def varsButPoll (vars : List (HostVar × Word32)) : List (HostVar × Word32) := vars.filter fun p => !(p.1 == pollVar)

@[simp] theorem varsButPoll_setVar (s : State) (v : Word32) :
    varsButPoll (s.setVar pollVar v).hostVars = varsButPoll s.hostVars := by
  simp [varsButPoll]

/-- A poll is accepted in the busy interval too, and ends it where BUSY reads 0 (R185). -/
theorem hostAccess_statusPoll (s : State) :
    hostAccess statusPoll s = .next { s.setVar pollVar s.status with awaitingIdle := s.awaitingIdle && s.busy } := by
  refine hostAccess_next_iff.mpr ⟨by decide, by decide, fun _ => by decide, ?_⟩
  rw [statusPoll, perform_read, bne_self_eq_false, Bool.or_false]
  rfl

/-- A poll that finds BUSY = 1 assigns the poll variable, and nothing else changes. -/
theorem hostAccess_statusPoll_of_busy {s : State} (hb : s.busy = true) :
    hostAccess statusPoll s = .next (s.setVar pollVar s.status) := by
  rw [hostAccess_statusPoll, hb, Bool.and_true]
  rfl

/-- A poll that finds BUSY = 0 ends the busy interval. -/
theorem hostAccess_statusPoll_of_idle {s : State} (hb : s.busy = false) :
    hostAccess statusPoll s = .next { s.setVar pollVar s.status with awaitingIdle := false } := by
  rw [hostAccess_statusPoll, hb, Bool.and_false]

/-- Polls that find BUSY = 1 change nothing but the poll variable. -/
theorem run_polls {s : State} {n : Nat} {rest : List HostOp} {later : List Turn} (hb : s.busy = true)
    (hp : s.program = .wait :: rest) (hs : s.schedule = List.replicate n .host ++ later) :
    ∃ vars, varsButPoll vars = varsButPoll s.hostVars ∧
      Sys2Proof.core.run n s = .next { s with hostVars := vars, schedule := later } := by
  induction n generalizing s with
  | zero =>
    obtain rfl : s.schedule = later := hs
    exact ⟨s.hostVars, rfl, rfl⟩
  | succ n ih =>
    have hstep : step s = .next ((popTurn s).setVar pollVar s.status) := by
      rw [step_host_wait (nextTurn_of_schedule hs) hp, statusBusy_status, popTurn_busy, if_pos hb, ← hp]
      exact hostAccess_statusPoll_of_busy hb
    obtain ⟨vars, hvars, hrun⟩ := ih (s := (popTurn s).setVar pollVar s.status) hb hp
      (by simp [hs, List.replicate_succ])
    exact ⟨vars, hvars.trans (varsButPoll_setVar ..), (run_succ n hstep).trans hrun⟩

/-- `Execute(w)` always completes (30_encoding.md R77). -/
theorem execute_total (w : Word64) (s : State) : ∃ u, execute w s = .next u := by
  obtain ⟨i, u, -, hu, -⟩ | ⟨e, -, hu⟩ := execute_cases w s
  · exact ⟨u, hu⟩
  · exact ⟨_, hu⟩

/-- `Execute(w)` neither reads nor changes the host's variables and the schedule. -/
theorem execute_with_host {w : Word64} {s u : State} (h : execute w s = .next u) (vars : List (HostVar × Word32))
    (turns : List Turn) :
    execute w { s with hostVars := vars, schedule := turns } =
      .next { u with hostVars := vars, schedule := turns } := by
  unfold execute at h ⊢
  cases hd : decode w with
  | error e =>
    rw [hd] at h
    cases h
    rfl
  | ok i =>
    rw [hd] at h
    obtain ⟨f, hf, he⟩ := exec_effect i s
    have hsame : SameSources i s { s with hostVars := vars, schedule := turns } :=
      fun r _ => State.memRead_congr fun x _ _ => State.readByte_congr rfl rfl x
    cases (he s (.refl i s)).symm.trans h
    refine (he _ hsame).trans ?_
    cases hf <;> rfl

/-- A run that begins with a host turn on a write to a register, outside the busy interval. -/
theorem run_writeReg {s : State} {o : Nat} {v : Word32} {rest : List HostOp} {later : List Turn} (k : Nat)
    (hz : s.awaitingIdle = false) (ho : o < offDmem ∧ o % 4 = 0) (hs : s.schedule = .host :: later)
    (hp : s.program = .access (.write 32 o v) :: rest) :
    Sys2Proof.core.run (k + 1) s = Sys2Proof.core.run k (((popTurn s).setProgram rest).writeReg o v) :=
  run_access k hs hp (hostAccess_writeReg (by exact hz) ho.1 ho.2 v)

/-- The two halves of CMD hold the word (10_state.md R30). -/
theorem cmd_of_halves {s : State} {w : Word64} (hlo : s.cmdLo = w.extractLsb' 0 32)
    (hhi : s.cmdHi = w.extractLsb' 32 32) : s.cmd = w := by
  rw [State.cmd, hlo, hhi, BitVec.extractLsb'_append_extractLsb'_eq_extractLsb' (by rfl)]
  exact BitVec.extractLsb'_eq_self

/-- A write of GO with ERR = 0 starts the command (10_state.md R32). -/
theorem writeReg_go {s : State} (he : s.err = false) : s.writeReg offCtrl 1 = s.startCommand := by
  change s.writeCtrl 1 = _
  simp [State.writeCtrl, he]

/-- The state in which the writes of `exec w` leave the machine: `w` in CMD and in flight. -/
def afterExecWrites (s : State) (w : Word64) (rest : List HostOp) (later : List Turn) : State :=
  { s with cmdLo := w.extractLsb' 0 32, cmdHi := w.extractLsb' 32 32, pending := some w, awaitingIdle := true,
           program := .wait :: rest, schedule := later }

/-- The three writes of `exec w`, one host turn each. -/
theorem run_execWrites {s : State} {w : Word64} {rest : List HostOp} {later : List Turn} (k : Nat)
    (hz : s.awaitingIdle = false) (he : s.err = false) (hp : s.program = HostStmt.expand (.exec w) ++ rest)
    (hs : s.schedule = .host :: .host :: .host :: later) :
    Sys2Proof.core.run (k + 3) s = Sys2Proof.core.run k (afterExecWrites s w rest later) := by
  obtain rfl : s.schedule.tail.tail.tail = later := by rw [hs]; rfl
  refine (run_writeReg _ hz (by decide) hs hp).trans ?_
  refine (run_writeReg _ (by exact hz) (by decide) (congrArg List.tail hs) rfl).trans ?_
  refine (run_writeReg _ (by exact hz) (by decide) (congrArg (List.tail ∘ List.tail) hs) rfl).trans ?_
  rw [writeReg_go (by exact he), State.startCommand, cmd_of_halves (w := w) rfl rfl]
  rfl

/-- The core's turn on the word in flight, and the host's poll after it, which finds BUSY = 0. -/
theorem run_core_poll {s u : State} {w : Word64} {rest : List HostOp} {later : List Turn} (hw : s.pending = some w)
    (hp : s.program = .wait :: rest) (hs : s.schedule = .core :: .host :: later)
    (hu : execute w (popTurn s) = .next u) :
    Sys2Proof.core.run 2 s =
      .next { u.setVar pollVar u.status with program := rest, awaitingIdle := false, schedule := later } := by
  obtain ⟨-, -, hpending, hprogram, -, -, hschedule, -⟩ := execute_frame hu
  have hturn : u.schedule = .host :: later := hschedule.trans (congrArg List.tail hs)
  obtain rfl : u.schedule.tail = later := congrArg List.tail hturn
  have hidle : u.busy = false := State.busy_eq_false_iff.mpr hpending
  have hpoll : step u = .next { u.setVar pollVar u.status with
      program := rest, awaitingIdle := false, schedule := u.schedule.tail } := by
    rw [step_host_wait (nextTurn_of_schedule hturn) (hprogram.trans hp), statusBusy_status, popTurn_busy,
      if_neg (ne_true_of_eq_false hidle)]
    exact hostAccess_statusPoll_of_idle hidle
  exact (run_succ 1 ((step_core (nextTurn_of_schedule hs) hw).trans hu)).trans (run_succ 0 hpoll)

/-- Settles O8: three writes, the polls that find BUSY = 1, the core's turn, and the poll that finds BUSY = 0. -/
theorem execStatementRunsCommandAfterAnyPolls : Obligations.ExecStatementRunsCommandAfterAnyPolls := by
  intro s w rest polls later hidle hz he hp hs
  obtain ⟨u, hu⟩ := execute_total w (afterExecWrites s w rest later)
  refine ⟨u, hu, ?_⟩
  have hwrites := run_execWrites (later := List.replicate polls .host ++ .core :: .host :: later) (polls + 2) hz he hp
    (hs.trans (by rw [Nat.add_comm]; rfl))
  obtain ⟨vars, hvars, hpolls⟩ := run_polls (n := polls) (later := .core :: .host :: later)
    (s := afterExecWrites s w rest (List.replicate polls .host ++ .core :: .host :: later)) rfl rfl rfl
  have hlast := run_core_poll (s := { afterExecWrites s w rest (.core :: .host :: later) with hostVars := vars })
    rfl rfl rfl (execute_with_host hu vars (.host :: later))
  obtain ⟨-, -, -, -, -, -, hschedule, -⟩ := execute_frame hu
  refine (hwrites.trans ((run_add polls 2 hpolls).trans hlast)).trans ?_
  obtain rfl : u.schedule = later := hschedule
  have hkept : vars.filter (fun p => !(p.1 == pollVar)) = s.hostVars.filter fun p => !(p.1 == pollVar) := hvars
  rw [← hkept]
  rfl

end Sys2Proof.Machine
end

section
/-! PROOF. The scalar family (40_gf_scalar.md R100 to R108): GF_MUL is multiplication in the field. Everything rests on
one map, the doubling of 10_state.md R21: it is additive over XOR, and multiplying by α^i is doubling i times. -/

open Sys2Proof.Spec

namespace Sys2Proof.Machine

/-! ## Maps that are additive over XOR -/

/-- Every byte is the XOR of the powers of two at its bits. -/
theorem byte_eq_xor_twoPow : ∀ x : Byte,
    x = (List.range 8).foldl (fun r k => if x.getLsbD k then r ^^^ BitVec.twoPow 8 k else r) 0 := by decide +kernel

/-- A map of field elements that is additive over XOR, which is the addition of the field. -/
def XorAdditive (f : Byte → Byte) : Prop := ∀ x y, f (x ^^^ y) = f x ^^^ f y

theorem XorAdditive.map_zero {f : Byte → Byte} (hf : XorAdditive f) : f 0 = 0 := by
  simpa using hf 0 0

/-- An additive map is determined by its values at the powers of two. -/
theorem XorAdditive.eq_of_twoPow {f g : Byte → Byte} (hf : XorAdditive f) (hg : XorAdditive g)
    (h : ∀ k < 8, f (BitVec.twoPow 8 k) = g (BitVec.twoPow 8 k)) (x : Byte) : f x = g x := by
  rw [byte_eq_xor_twoPow x]
  refine List.foldlRecOn (motive := fun r => f r = g r) _ _ (hf.map_zero.trans hg.map_zero.symm) ?_
  intro r hr k hk
  split
  · rw [hf, hg, hr, h k (List.mem_range.mp hk)]
  · exact hr

theorem XorAdditive.iterate {f : Byte → Byte} (hf : XorAdditive f) (n : Nat) : XorAdditive f^[n] := by
  intro x y
  induction n with
  | zero => rfl
  | succ n ih => simp only [Function.iterate_succ_apply', ih, hf _ _]

/-! ## The table-free product (R103) -/

/-- One step of the reduction by 0x11d, at bit `k`. -/
def reduceBit (r k : Nat) : Nat := if r.testBit k then r ^^^ (Config.prim <<< (k - 8)) else r

/-- One step of the carry-less product, at bit `k` of `b`. -/
def addShifted (a b : Byte) (r k : Nat) : Nat := if b.getLsbD k then r ^^^ (a.toNat <<< k) else r

theorem clmulMod_eq (a b : Byte) : clmulMod a b =
    BitVec.ofNat 8 ([14, 13, 12, 11, 10, 9, 8].foldl reduceBit ((List.range 8).foldl (addShifted a b) 0)) := rfl

theorem reduceBit_xor (r s k : Nat) : reduceBit (r ^^^ s) k = reduceBit r k ^^^ reduceBit s k := by
  by_cases hr : r.testBit k <;> by_cases hs : s.testBit k <;>
    simp [reduceBit, hr, hs, Nat.xor_assoc, Nat.xor_left_comm, Nat.xor_comm]

theorem addShifted_xor_left (a a' b : Byte) (r s k : Nat) :
    addShifted (a ^^^ a') b (r ^^^ s) k = addShifted a b r k ^^^ addShifted a' b s k := by
  unfold addShifted
  split
  · rw [BitVec.toNat_xor, Nat.shiftLeft_xor_distrib]
    ac_rfl
  · rfl

theorem addShifted_xor_right (a b b' : Byte) (r s k : Nat) :
    addShifted a (b ^^^ b') (r ^^^ s) k = addShifted a b r k ^^^ addShifted a b' s k := by
  by_cases hb : b.getLsbD k <;> by_cases hb' : b'.getLsbD k <;>
    simp [addShifted, hb, hb', Nat.xor_assoc, Nat.xor_left_comm, Nat.xor_comm]

/-- The reduction is additive, so `clmul_mod` is additive wherever the carry-less product is. -/
theorem clmulMod_xor {a b a' b' a'' b'' : Byte}
    (h : ∀ r s k, addShifted a'' b'' (r ^^^ s) k = addShifted a b r k ^^^ addShifted a' b' s k) :
    clmulMod a'' b'' = clmulMod a b ^^^ clmulMod a' b' := by
  have hproduct := List.foldl_hom₂ (List.range 8) (· ^^^ ·) _ _ _ 0 0 fun r s k => (h r s k).symm
  have hreduce := fun r s => List.foldl_hom₂ [14, 13, 12, 11, 10, 9, 8] (· ^^^ ·) _ _ _ r s
    fun r s k => (reduceBit_xor r s k).symm
  simp only [clmulMod_eq, ← BitVec.ofNat_xor, ← hreduce, ← hproduct, Nat.xor_self]

theorem xorAdditive_clmulMod_left (b : Byte) : XorAdditive (clmulMod · b) :=
  fun _ _ => clmulMod_xor (addShifted_xor_left _ _ b)

theorem xorAdditive_clmulMod_right (a : Byte) : XorAdditive (clmulMod a) :=
  fun _ _ => clmulMod_xor (addShifted_xor_right a _ _)

/-! ## Doubling -/

/-- Multiplication by α: the advance of R21 on a byte. -/
def double (x : Byte) : Byte := BitVec.ofNat 8 (romAdvance x.toNat)

/-- The advance of R21 on a byte is a shift and one step of the reduction. -/
theorem romAdvance_eq_reduceBit : ∀ v < 256, romAdvance v = reduceBit (v <<< 1) 8 := by decide +kernel

theorem xorAdditive_double : XorAdditive double := by
  intro x y
  have h (z : Byte) : double z = BitVec.ofNat 8 (reduceBit (z.toNat <<< 1) 8) :=
    congrArg _ (romAdvance_eq_reduceBit z.toNat z.isLt)
  rw [h, h, h, BitVec.toNat_xor, Nat.shiftLeft_xor_distrib, reduceBit_xor, BitVec.ofNat_xor]

/-! ## Powers of α -/

theorem toNat_gfExp (i : Nat) : (gfExp i).toNat = romValue i := by
  rw [gfExp, expRom_eq_romValue (Nat.mod_lt i (by decide)).le, romValue_periodic.map_mod_nat]

theorem gfExp_succ (i : Nat) : gfExp (i + 1) = double (gfExp i) := by
  rw [double, toNat_gfExp, gfExp_eq_alphaPower, alphaPower, romValue]

theorem gfExp_add (i j : Nat) : gfExp (i + j) = double^[i] (gfExp j) := by
  induction i with
  | zero => rw [Nat.zero_add]; rfl
  | succ i ih => rw [Nat.succ_add, gfExp_succ, ih, Function.iterate_succ_apply']

theorem gfExp_ne_zero (i : Nat) : gfExp i ≠ 0 :=
  expRom_ne_zero _ ((Nat.mod_lt i (by decide)).trans (by decide))

theorem gfExp_gfLog {x : Byte} (hx : x ≠ 0) : gfExp (gfLog x).toNat = x := by
  obtain ⟨hlt, he⟩ := expRom_logRom x hx
  rw [gfLog, gfExp_of_lt hlt, he]

theorem gfLog_gfExp (i : Nat) : (gfLog (gfExp i)).toNat = i % 255 :=
  logRom_expRom _ (Nat.mod_lt i (by decide))

/-- A field element is 0 or a power of α. -/
theorem eq_zero_or_eq_gfExp (x : Byte) : x = 0 ∨ ∃ i, x = gfExp i :=
  or_iff_not_imp_left.mpr fun hx => ⟨_, (gfExp_gfLog hx).symm⟩

/-! ## The product -/

theorem gfMul_zero (a : Byte) : gfMul a 0 = 0 := by simp [gfMul]

theorem zero_gfMul (b : Byte) : gfMul 0 b = 0 := by simp [gfMul]

theorem gfMul_comm (a b : Byte) : gfMul a b = gfMul b a := by
  simp only [gfMul, or_comm, Nat.add_comm]

/-- Products of nonzero elements add logarithms. -/
theorem gfMul_gfExp (i j : Nat) : gfMul (gfExp i) (gfExp j) = gfExp (i + j) := by
  have hlog (n : Nat) : (logRom (gfExp n)).toNat = n % 255 := gfLog_gfExp n
  rw [gfMul, if_neg (not_or_intro (gfExp_ne_zero i) (gfExp_ne_zero j)), hlog, hlog, ← Nat.add_mod]
  rfl

/-- Multiplication by α^i doubles i times. -/
theorem gfExp_gfMul (i : Nat) (x : Byte) : gfMul (gfExp i) x = double^[i] x := by
  obtain rfl | ⟨j, rfl⟩ := eq_zero_or_eq_gfExp x
  · rw [gfMul_zero, (xorAdditive_double.iterate i).map_zero]
  · rw [gfMul_gfExp, gfExp_add]

theorem one_gfMul (a : Byte) : gfMul 1 a = a := gfExp_gfMul 0 a

theorem gfMul_assoc (a b c : Byte) : gfMul (gfMul a b) c = gfMul a (gfMul b c) := by
  obtain rfl | ⟨i, rfl⟩ := eq_zero_or_eq_gfExp a
  · simp only [zero_gfMul]
  obtain rfl | ⟨j, rfl⟩ := eq_zero_or_eq_gfExp b
  · simp only [zero_gfMul, gfMul_zero]
  rw [gfMul_gfExp, gfExp_gfMul, gfExp_gfMul, gfExp_gfMul, Function.iterate_add_apply]

theorem xorAdditive_gfMul_right (a : Byte) : XorAdditive (gfMul a) := by
  obtain rfl | ⟨i, rfl⟩ := eq_zero_or_eq_gfExp a
  · intro x y
    simp only [zero_gfMul]
    rfl
  · intro x y
    simpa only [gfExp_gfMul] using xorAdditive_double.iterate i x y

theorem xorAdditive_gfMul_left (b : Byte) : XorAdditive (gfMul · b) := by
  intro x y
  simpa only [gfMul_comm _ b] using xorAdditive_gfMul_right b x y

/-- The inverse of a nonzero element is the power of α that completes its logarithm to 255 (R104). -/
theorem gfMul_inverse {a : Byte} (ha : a ≠ 0) : gfMul a (expRom ((255 - (logRom a).toNat) % 255)) = 1 := by
  have hlt := (expRom_logRom a ha).1
  calc gfMul a (gfExp (255 - (logRom a).toNat))
      = gfMul (gfExp (logRom a).toNat) (gfExp (255 - (logRom a).toNat)) := by rw [← gfLog, gfExp_gfLog ha]
    _ = gfExp 255 := by rw [gfMul_gfExp, Nat.add_sub_cancel' hlt.le]
    _ = 1 := rfl

/-- Inverses are unique, in the way they are in every commutative monoid. -/
theorem gfMul_eq_one_iff {a b inv : Byte} (hinv : gfMul a inv = 1) : gfMul a b = 1 ↔ b = inv := by
  refine ⟨fun hb => ?_, fun hb => hb ▸ hinv⟩
  calc b = gfMul (gfMul inv a) b := by rw [gfMul_comm inv, hinv, one_gfMul]
    _ = gfMul inv 1 := by rw [gfMul_assoc, hb]
    _ = inv := by rw [gfMul_comm, one_gfMul]

/-- The two products of powers of two. -/
theorem gfMul_twoPow_twoPow : ∀ i < 8, ∀ j < 8,
    gfMul (BitVec.twoPow 8 i) (BitVec.twoPow 8 j) = clmulMod (BitVec.twoPow 8 i) (BitVec.twoPow 8 j) := by
  decide +kernel

/-- The two products agree, because both are additive in each argument (R103). -/
theorem gfMul_eq_clmulMod (a b : Byte) : gfMul a b = clmulMod a b := by
  refine (xorAdditive_gfMul_right a).eq_of_twoPow (xorAdditive_clmulMod_right a) (fun j hj => ?_) b
  exact (xorAdditive_gfMul_left _).eq_of_twoPow (xorAdditive_clmulMod_left _)
    (fun i hi => gfMul_twoPow_twoPow i hi j hj) a

/-! ## The commands -/

theorem exec_gfMul (s : State) (a b : Byte) :
    exec (.gfMul a b) s = .next { s with result := gfMul a b, pending := none } := rfl

/-- Settles O12: the two products are additive in each argument and agree at the powers of two. -/
theorem gfMulIsProductModulo11d : Obligations.GfMulIsProductModulo11d := by
  intro s a b
  rw [exec_gfMul, gfMul_eq_clmulMod]
  exact ⟨rfl, rfl⟩

/-- Settles O16: nonzero elements are powers of α, whose products add exponents, and multiplication by a power of α is
repeated doubling, which is additive. -/
theorem gfMulIsFieldMultiplication : Obligations.GfMulIsFieldMultiplication where
  left _ ha _ := gfMul_eq_one_iff (gfMul_inverse ha)
  right := ⟨fun _ ha => gfExp_gfLog ha, fun i hi => (gfLog_gfExp i).trans (Nat.mod_eq_of_lt (by omega)), gfMul_comm,
    gfMul_zero, one_gfMul, gfMul_assoc, xorAdditive_gfMul_right⟩

/-- Settles O1: each word is the encoding of its command. -/
theorem specExampleWordsDecode : Obligations.SpecExampleWordsDecode :=
  ⟨decodeInvertsEncode .nop rfl, decodeInvertsEncode (.gfMul 0x02 0x80) rfl, decodeInvertsEncode (.gfExp 300) rfl,
    decodeInvertsEncode (.gfLog 0x1D) rfl, decodeInvertsEncode (.polyMul 4 0 2 2 2) rfl,
    decodeInvertsEncode (.polyDiv 0 0 3 3 2) rfl, decodeInvertsEncode (.genPoly 0x200 10) rfl,
    decodeInvertsEncode (.rsEnc 16 0 16 10) rfl⟩

/-- Settles O11: NOP only completes. -/
theorem nopChangesNothing : Obligations.NopChangesNothing := fun _ => rfl

/-- Settles O15: 0 fails the precondition of GF_LOG. -/
theorem gfLogOfZeroIsInvalidArgument : Obligations.GfLogOfZeroIsInvalidArgument :=
  exec_of_invalidArgument (i := .gfLog 0) rfl

end Sys2Proof.Machine
end

section
/-! SUPPORT. XOR of one list into another, and one round of the sweep in terms of it (41_polynomial.md R120, R122). -/

namespace Sys2Proof.Machine

theorem zero_xor_byte (x : Byte) : 0 ^^^ x = x := BitVec.zero_xor

@[simp] theorem xorInto_nil_left (q : List Byte) : xorInto [] q = [] := rfl

@[simp] theorem xorInto_nil_right (p : List Byte) : xorInto p [] = p := by cases p <;> rfl

@[simp] theorem xorInto_cons (x y : Byte) (p q : List Byte) :
    xorInto (x :: p) (y :: q) = (x ^^^ y) :: xorInto p q := rfl

@[simp] theorem zeros_zero : zeros 0 = [] := rfl

@[simp] theorem zeros_succ (n : Nat) : zeros (n + 1) = 0 :: zeros n := rfl

theorem zeros_getD (n k : Nat) : (zeros n).getD k 0 = 0 := by
  rw [zeros, List.getD_eq_getElem?_getD, List.getElem?_getD_replicate_default_eq]

@[simp] theorem xorInto_zeros_right (p : List Byte) (n : Nat) : xorInto p (zeros n) = p := by
  induction p generalizing n with
  | nil => rfl
  | cons x p ih => cases n with
    | zero => simp
    | succ n => simp [ih]

/-- XORing into zeros copies. -/
theorem xorInto_zeros_left {n : Nat} {q : List Byte} (h : q.length = n) : xorInto (zeros n) q = q := by
  induction q generalizing n with
  | nil => subst h; rfl
  | cons y q ih => subst h; simp [ih rfl]

theorem xorInto_right_comm (p q r : List Byte) : xorInto (xorInto p q) r = xorInto (xorInto p r) q := by
  induction p generalizing q r with
  | nil => rfl
  | cons x p ih => cases q with
    | nil => simp
    | cons y q => cases r with
      | nil => simp
      | cons z r => simp only [xorInto_cons, ih q r, BitVec.xor_assoc, BitVec.xor_comm y z]

theorem xorInto_assoc {q r : List Byte} (h : r.length ≤ q.length) (p : List Byte) :
    xorInto (xorInto p q) r = xorInto p (xorInto q r) := by
  induction p generalizing q r with
  | nil => rfl
  | cons x p ih => cases q with
    | nil => simp [List.eq_nil_of_length_eq_zero (Nat.le_zero.mp h)]
    | cons y q => cases r with
      | nil => simp
      | cons z r => simp [ih (Nat.le_of_succ_le_succ h), BitVec.xor_assoc]

/-- XORing the same list in twice undoes it. -/
theorem xorInto_xorInto_self (p q : List Byte) : xorInto (xorInto p q) q = p := by
  induction p generalizing q with
  | nil => rfl
  | cons x p ih => cases q <;> simp [ih]

/-- For lists of equal length it is the entrywise XOR, whose arguments may be exchanged. -/
theorem xorInto_eq_zipWith {p q : List Byte} (h : q.length = p.length) :
    xorInto p q = List.zipWith (fun x y => x ^^^ y) q p := by
  induction p generalizing q with
  | nil => simp
  | cons x p ih => cases q with
    | nil => cases h
    | cons y q => simp [ih (Nat.succ.inj h), BitVec.xor_comm]

theorem xorInto_getD {p q : List Byte} (h : q.length ≤ p.length) (k : Nat) :
    (xorInto p q).getD k 0 = p.getD k 0 ^^^ q.getD k 0 := by
  induction p generalizing q k with
  | nil => simp [List.eq_nil_of_length_eq_zero (Nat.le_zero.mp h)]
  | cons x p ih => cases q with
    | nil => simp
    | cons y q => cases k with
      | zero => rfl
      | succ k => exact ih (Nat.le_of_succ_le_succ h) k

theorem map_gfMul_zero (p : List Byte) : p.map (gfMul 0) = zeros p.length := by
  rw [show gfMul 0 = fun _ => 0 from funext zero_gfMul, List.map_const', zeros]

/-- A round of the sweep XORs in the divisor scaled by the leading entry; for 0 that is no exception (R122, R126). -/
theorem polyDivPosition_cons (d : List Byte) (c : Byte) (r : List Byte) :
    polyDivPosition d (c :: r) = xorInto (c :: r) (d.map (gfMul c)) := by
  by_cases hc : c = 0
  · subst hc
    rw [map_gfMul_zero, xorInto_zeros_right]
    rw [polyDivPosition, if_pos rfl]
  · simp only [polyDivPosition, if_neg hc, gfMul_comm _ c]

end Sys2Proof.Machine
end

section
/-! PROOF. The polynomial multiplier (41_polynomial.md R120, R121): the index loops are the recursion on lists, whose
entries are the sums of products and whose value is the product of the values. -/

open Sys2Proof.Spec

namespace Sys2Proof.Machine

/-! ## The inner loop that R120 and R122 share -/

/-- `f 0, ..., f (len - 1)` XORed into the entries from `i` on, index by index. -/
def xorRow (f : Nat → Byte) (len i : Nat) (out : List Byte) : List Byte :=
  (List.range len).foldl (fun out j => out.modify (i + j) fun x => x ^^^ f j) out

theorem xorRow_nil (f : Nat → Byte) (len i : Nat) : xorRow f len i [] = [] :=
  List.foldl_fixed' (fun _ => List.modify_nil _ _) _

/-- The row from `i + 1` on leaves the first entry alone. -/
theorem xorRow_cons (f : Nat → Byte) (len i : Nat) (x : Byte) (out : List Byte) :
    xorRow f len (i + 1) (x :: out) = x :: xorRow f len i out :=
  List.foldl_hom (List.cons x) fun out j => by rw [Nat.add_right_comm, List.modify_succ_cons]

theorem xorRow_succ (f : Nat → Byte) (len i : Nat) (out : List Byte) :
    xorRow f (len + 1) i out = xorRow (fun j => f (j + 1)) len (i + 1) (out.modify i fun x => x ^^^ f 0) := by
  simp only [xorRow, List.range_succ_eq_map, List.foldl_cons, List.foldl_map, Nat.add_zero, Nat.succ_eq_add_one,
    Nat.add_right_comm i 1, Nat.add_assoc]

/-- From the first entry on, the loop is `xorInto`. -/
theorem xorRow_zero (f : Nat → Byte) (len : Nat) (out : List Byte) :
    xorRow f len 0 out = xorInto out ((List.range len).map f) := by
  induction len generalizing f out with
  | zero => exact (xorInto_nil_right out).symm
  | succ len ih => cases out with
    | nil => exact xorRow_nil ..
    | cons x out =>
      rw [xorRow_succ, List.modify_zero_cons, xorRow_cons, ih, List.range_succ_eq_map, List.map_cons, List.map_map,
        xorInto_cons]
      rfl

theorem map_range_getD (g : Byte → Byte) (p : List Byte) :
    (List.range p.length).map (fun j => g (p.getD j 0)) = p.map g :=
  List.ext_getElem (by simp) fun j _ hj => by
    rw [List.getElem_map, List.getElem_map, List.getElem_range, List.getD_eq_getElem]

/-! ## The loops of `poly_mul` (R120) -/

/-- The outer loop of R120, from any list `out` in place of the zeros. -/
def mulRows (a b out : List Byte) : List Byte :=
  (List.range a.length).foldl (fun out i => xorRow (fun j => gfMul (a.getD i 0) (b.getD j 0)) b.length i out) out

theorem mulLoop_eq_mulRows (a b : List Byte) : mulLoop a b = mulRows a b (zeros (a.length + b.length - 1)) := rfl

theorem mulRows_nil_right (a b : List Byte) : mulRows a b [] = [] :=
  List.foldl_fixed' (fun _ => xorRow_nil ..) _

/-- The head of `a` gives the row from index 0 on; the rest of `a` works on the entries after the first. -/
theorem mulRows_cons {x y : Byte} {a b out out' : List Byte} (h : xorInto out (b.map (gfMul x)) = y :: out') :
    mulRows (x :: a) b out = y :: mulRows a b out' := by
  rw [mulRows, List.length_cons, List.range_succ_eq_map, List.foldl_cons, List.foldl_map, xorRow_zero,
    List.getD_cons_zero, map_range_getD, h]
  exact List.foldl_hom (List.cons y) fun out i => xorRow_cons ..

theorem mulRows_eq_xorInto {b : List Byte} (hb : b ≠ []) (a out : List Byte) :
    mulRows a b out = xorInto out (polyMul a b) := by
  induction a generalizing out with
  | nil => simp [mulRows, polyMul]
  | cons x a ih =>
    obtain ⟨y, b', rfl⟩ := List.exists_cons_of_ne_nil hb
    have hrow : (b'.map (gfMul x)).length ≤ (polyMul a (y :: b')).length := by
      rw [polyMul_length hb, List.length_map, List.length_cons]
      omega
    cases out with
    | nil => exact mulRows_nil_right ..
    | cons z out =>
      rw [mulRows_cons (by rw [List.map_cons, xorInto_cons]), ih, polyMul, List.map_cons, xorInto_cons, xorInto_cons,
        zero_xor_byte, xorInto_right_comm, xorInto_assoc hrow]

theorem polyMul_eq_mulLoop {b : List Byte} (hb : b ≠ []) (a : List Byte) : polyMul a b = mulLoop a b := by
  rw [mulLoop_eq_mulRows, mulRows_eq_xorInto hb, xorInto_zeros_left (polyMul_length hb)]

/-! ## The entries of the product (R121) -/

/-- The products a[i]·b[k-i]; an index outside its list gives the product 0. -/
def productTerms (a b : List Byte) (k : Nat) : List Byte :=
  (List.range (k + 1)).map fun i => gfMul (a.getD i 0) (b.getD (k - i) 0)

theorem productEntry_eq (a b : List Byte) (k : Nat) : productEntry a b k = (productTerms a b k).foldl (· ^^^ ·) 0 := by
  rw [productEntry, productTerms, List.foldl_map]
  congr 1
  funext acc i
  split
  · rfl
  · rename_i hout
    obtain hi | hj : a.length ≤ i ∨ b.length ≤ k - i := by omega
    · rw [List.getD_eq_default _ _ hi, zero_gfMul]
    · rw [List.getD_eq_default _ _ hj, gfMul_zero]

theorem productEntry_nil (b : List Byte) (k : Nat) : productEntry [] b k = 0 :=
  List.foldl_fixed' (fun _ => by simp) _

theorem productEntry_zero (a b : List Byte) : productEntry a b 0 = gfMul (a.getD 0 0) (b.getD 0 0) := by
  simp [productEntry_eq, productTerms]

theorem productEntry_cons_succ (x : Byte) (a b : List Byte) (k : Nat) :
    productEntry (x :: a) b (k + 1) = productEntry a b k ^^^ gfMul x (b.getD (k + 1) 0) := by
  have hterms : productTerms (x :: a) b (k + 1) = gfMul x (b.getD (k + 1) 0) :: productTerms a b k := by
    simp [productTerms, List.range_succ_eq_map (n := k + 1), Function.comp_def]
  rw [productEntry_eq, hterms, List.foldl_cons, BitVec.xor_comm, List.foldl_assoc, ← productEntry_eq, BitVec.xor_comm]

theorem productTerms_reverse (a b : List Byte) (k : Nat) : (productTerms a b k).reverse = productTerms b a k := by
  refine List.ext_getElem (by simp [productTerms]) fun i hi _ => ?_
  have hik : k - (k - i) = i := by simp [productTerms] at hi; omega
  simp [productTerms, hik, gfMul_comm]

theorem productEntry_comm (a b : List Byte) (k : Nat) : productEntry a b k = productEntry b a k := by
  rw [productEntry_eq, productEntry_eq, ← productTerms_reverse a b k]
  exact (List.reverse_perm _).symm.foldl_op_eq

theorem polyMul_getD {b : List Byte} (hb : b ≠ []) (a : List Byte) (k : Nat) :
    (polyMul a b).getD k 0 = productEntry a b k := by
  induction a generalizing k with
  | nil => rw [productEntry_nil, polyMul, zeros_getD]
  | cons x a ih =>
    have hrow : (b.map (gfMul x)).length ≤ (0 :: polyMul a b).length := by
      rw [List.length_map, List.length_cons, polyMul_length hb]
      omega
    have hget : (b.map (gfMul x)).getD k 0 = gfMul x (b.getD k 0) := by
      simpa only [gfMul_zero] using List.getD_map b 0 (gfMul x)
    rw [polyMul, xorInto_getD hrow, hget]
    cases k with
    | zero => rw [productEntry_zero, List.getD_cons_zero, List.getD_cons_zero, zero_xor_byte]
    | succ k => rw [productEntry_cons_succ, List.getD_cons_succ, ih]

theorem polyMul_comm {a b : List Byte} (ha : a ≠ []) (hb : b ≠ []) : polyMul a b = polyMul b a := by
  refine List.ext_getElem (by rw [polyMul_length hb, polyMul_length ha, Nat.add_comm]) fun k hk hk' => ?_
  rw [← List.getD_eq_getElem _ 0 hk, ← List.getD_eq_getElem _ 0 hk', polyMul_getD hb, polyMul_getD ha,
    productEntry_comm]

/-- A constant scales every coefficient. -/
theorem polyMul_singleton {b : List Byte} (hb : b ≠ []) (c : Byte) : polyMul [c] b = b.map (gfMul c) := by
  obtain ⟨y, b, rfl⟩ := List.exists_cons_of_ne_nil hb
  exact xorInto_zeros_left (n := b.length + 1) (by simp)

theorem one_polyMul {b : List Byte} (hb : b ≠ []) : polyMul [1] b = b := by
  rw [polyMul_singleton hb, funext one_gfMul, List.map_id']

theorem polyMul_leading {b : List Byte} (hb : b ≠ []) (a : List Byte) :
    (polyMul a b).getD 0 0 = gfMul (a.getD 0 0) (b.getD 0 0) := by
  rw [polyMul_getD hb, productEntry_zero]

/-! ## The value of the product (R121) -/

/-- Multiplication by x^n. -/
def gfMulPow (x : Byte) (n : Nat) : Byte → Byte := (gfMul · x)^[n]

theorem xorAdditive_gfMulPow (x : Byte) (n : Nat) : XorAdditive (gfMulPow x n) :=
  (xorAdditive_gfMul_left x).iterate n

theorem gfMulPow_zero (x : Byte) (n : Nat) : gfMulPow x n 0 = 0 := (xorAdditive_gfMulPow x n).map_zero

theorem gfMulPow_gfMul (x : Byte) (n : Nat) (a b : Byte) : gfMulPow x n (gfMul a b) = gfMul a (gfMulPow x n b) := by
  have h : Function.Semiconj (gfMul a) (gfMul · x) (gfMul · x) := fun b => (gfMul_assoc a b x).symm
  exact ((h.iterate_right n) b).symm

/-- Horner's rule from an accumulator other than 0. -/
theorem foldl_horner (p : List Byte) (x acc : Byte) :
    p.foldl (fun acc c => gfMul acc x ^^^ c) acc = gfMulPow x p.length acc ^^^ evalPoly p x := by
  induction p generalizing acc with
  | nil => simp [gfMulPow, evalPoly]
  | cons c p ih =>
    rw [evalPoly, List.foldl_cons, List.foldl_cons, ih, ih, xorAdditive_gfMulPow, zero_gfMul, zero_xor_byte,
      BitVec.xor_assoc]
    rfl

theorem evalPoly_cons (c : Byte) (p : List Byte) (x : Byte) :
    evalPoly (c :: p) x = gfMulPow x p.length c ^^^ evalPoly p x := by
  rw [evalPoly, List.foldl_cons, foldl_horner, zero_gfMul, zero_xor_byte]

theorem evalPoly_zeros (n : Nat) (x : Byte) : evalPoly (zeros n) x = 0 := by
  induction n with
  | zero => rfl
  | succ n ih => rw [zeros_succ, evalPoly_cons, ih, gfMulPow_zero]; rfl

theorem evalPoly_map_gfMul (c : Byte) (p : List Byte) (x : Byte) :
    evalPoly (p.map (gfMul c)) x = gfMul c (evalPoly p x) := by
  induction p with
  | nil => exact (gfMul_zero c).symm
  | cons y p ih =>
    rw [List.map_cons, evalPoly_cons, evalPoly_cons, ih, List.length_map, gfMulPow_gfMul, xorAdditive_gfMul_right]

/-- XOR adds values; the second list, aligned at the leading entry, counts x^(difference of the lengths) times. -/
theorem evalPoly_xorInto {p q : List Byte} (h : q.length ≤ p.length) (x : Byte) :
    evalPoly (xorInto p q) x = evalPoly p x ^^^ gfMulPow x (p.length - q.length) (evalPoly q x) := by
  induction q generalizing p with
  | nil =>
    have hzero : gfMulPow x (p.length - 0) (evalPoly [] x) = 0 := gfMulPow_zero ..
    rw [xorInto_nil_right, List.length_nil, hzero]
    exact BitVec.xor_zero.symm
  | cons z q ih => cases p with
    | nil => cases h
    | cons y p =>
      have hle : q.length ≤ p.length := Nat.le_of_succ_le_succ h
      have hpow : gfMulPow x (p.length - q.length) (gfMulPow x q.length z) = gfMulPow x p.length z := by
        rw [gfMulPow, gfMulPow, ← Function.iterate_add_apply, Nat.sub_add_cancel hle, gfMulPow]
      rw [xorInto_cons, evalPoly_cons, evalPoly_cons, evalPoly_cons, ih hle, xorInto_length, List.length_cons,
        List.length_cons, Nat.add_sub_add_right, xorAdditive_gfMulPow, xorAdditive_gfMulPow, hpow]
      ac_rfl

theorem evalPoly_polyMul {b : List Byte} (hb : b ≠ []) (a : List Byte) (x : Byte) :
    evalPoly (polyMul a b) x = gfMul (evalPoly a x) (evalPoly b x) := by
  induction a with
  | nil => exact (evalPoly_zeros _ x).trans (zero_gfMul _).symm
  | cons y a ih =>
    have hlen : (0 :: polyMul a b).length = a.length + (b.map (gfMul y)).length := by
      have := List.length_pos_iff.mpr hb
      rw [List.length_cons, polyMul_length hb, List.length_map]
      omega
    calc evalPoly (polyMul (y :: a) b) x
        = evalPoly (polyMul a b) x ^^^ gfMulPow x a.length (gfMul y (evalPoly b x)) := by
          rw [polyMul, evalPoly_xorInto (by omega), hlen, Nat.add_sub_cancel, evalPoly_cons, gfMulPow_zero,
            zero_xor_byte, evalPoly_map_gfMul]
      _ = gfMul (evalPoly b x) (evalPoly a x) ^^^ gfMul (evalPoly b x) (gfMulPow x a.length y) := by
          rw [ih, gfMul_comm y, gfMulPow_gfMul, gfMul_comm (evalPoly a x)]
      _ = gfMul (evalPoly (y :: a) x) (evalPoly b x) := by
          rw [evalPoly_cons, gfMul_comm _ (evalPoly b x), xorAdditive_gfMul_right, BitVec.xor_comm]

/-! ## The statements -/

/-- Settles O18: by the equality of the loops and the recursion, and the rule of POLY_MUL with legal operands. -/
theorem polyMulStoresAccumulationLoop : Obligations.PolyMulStoresAccumulationLoop := by
  refine ⟨fun a b _ hb => ⟨polyMul_eq_mulLoop hb a, ?_⟩, ?_⟩
  · rw [← polyMul_eq_mulLoop hb, polyMul_length hb]
  · intro s dst aAddr aLen bAddr bLen ha hb hra hrb hrd
    have hne : s.memRead bAddr bLen ≠ [] := by simp [← List.length_pos_iff, Nat.pos_of_ne_zero hb]
    rw [← polyMul_eq_mulLoop hne]
    refine ⟨_, ?_, polyMul_memRead_length hb .., storesExactly_memWrite s dst _⟩
    exact exec_polyMul_of_legal (by simp [InvalidArgument, ha, hb]) (by simp [RangeOutOfBounds]; omega) s

/-- Settles O19: every property is one of the lemmas above. -/
theorem polyMulIsTheTrueProduct : Obligations.PolyMulIsTheTrueProduct := by
  intro a b ha hb
  refine ⟨polyMul_length hb, fun k _ => polyMul_getD hb a k, evalPoly_polyMul hb a, polyMul_comm ha hb, one_polyMul hb,
    polyMul_leading hb a, fun hma hmb => ?_, polyMul_singleton hb⟩
  rw [polyMul_leading hb, hma, hmb, one_gfMul]

end Sys2Proof.Machine
end

section
/-! PROOF. The polynomial divider (41_polynomial.md R122, R123, R126): the index loops are the sweep by recursion, and a
monic divisor leaves zeros, the quotient in the values of the sweep, and the remainder. -/

open Sys2Proof.Spec

namespace Sys2Proof.Machine

/-! ## The loops of `poly_div` (R122) -/

/-- Round `i` of the outer loop of R122 on the working copy `r`. -/
def divRound (d r : List Byte) (i : Nat) : List Byte :=
  if r.getD i 0 = 0 then r else xorRow (fun j => gfMul (d.getD j 0) (r.getD i 0)) d.length i r

theorem divRounds_eq_foldl (n d : List Byte) (k : Nat) : divRounds n d k = (List.range k).foldl (divRound d) n := rfl

/-- Round 0 is one position of the sweep. -/
theorem divRound_zero (d r : List Byte) : divRound d r 0 = polyDivPosition d r := by
  cases r with
  | nil => rfl
  | cons c r =>
    by_cases hc : c = 0
    · simp [divRound, polyDivPosition, hc]
    · rw [divRound, List.getD_cons_zero, if_neg hc, xorRow_zero, map_range_getD fun y => gfMul y c]
      exact (if_neg hc).symm

/-- Later rounds leave the first entry alone. -/
theorem divRound_cons (d : List Byte) (x : Byte) (r : List Byte) (i : Nat) :
    divRound d (x :: r) (i + 1) = x :: divRound d r i := by
  unfold divRound
  rw [List.getD_cons_succ]
  split
  · rfl
  · exact xorRow_cons ..

theorem divRounds_nil (d : List Byte) (k : Nat) : divRounds [] d k = [] :=
  List.foldl_fixed' (fun _ => rfl) _

/-- After round 0 the rounds work on the entries after the first. -/
theorem divRounds_succ {d r r' : List Byte} {x : Byte} (h : polyDivPosition d r = x :: r') (k : Nat) :
    divRounds r d (k + 1) = x :: divRounds r' d k := by
  rw [divRounds_eq_foldl, List.range_succ_eq_map, List.foldl_cons, List.foldl_map, divRound_zero, h]
  exact List.foldl_hom (List.cons x) fun r i => divRound_cons d x r i

theorem polyDivSweep_succ {d r r' : List Byte} {x : Byte} (h : polyDivPosition d r = x :: r') (k : Nat) :
    polyDivSweep d (k + 1) r = x :: polyDivSweep d k r' := by
  rw [polyDivSweep, h]

theorem polyDivSweep_nil (d : List Byte) (k : Nat) : polyDivSweep d k [] = [] := by
  cases k <;> rfl

theorem exists_polyDivPosition_cons (d : List Byte) (c : Byte) (r : List Byte) :
    ∃ x r', polyDivPosition d (c :: r) = x :: r' :=
  List.exists_cons_of_length_eq_add_one (polyDivPosition_length d (c :: r))

theorem polyDivSweep_eq_divRounds (d : List Byte) (k : Nat) (r : List Byte) :
    polyDivSweep d k r = divRounds r d k := by
  induction k generalizing r with
  | zero => rfl
  | succ k ih => cases r with
    | nil => rw [polyDivSweep_nil, divRounds_nil]
    | cons c r =>
      obtain ⟨x, r', h⟩ := exists_polyDivPosition_cons d c r
      rw [polyDivSweep_succ h, divRounds_succ h, ih]

theorem polyDiv_eq_divLoop (n d : List Byte) : polyDiv n d = divLoop n d :=
  polyDivSweep_eq_divRounds ..

/-- A round whose leading entry is 0 changes nothing (R126). -/
theorem divRounds_succ_of_zero {n d : List Byte} {i : Nat} (h : (divRounds n d i).getD i 0 = 0) :
    divRounds n d (i + 1) = divRounds n d i := by
  rw [divRounds_eq_foldl, List.range_succ, List.foldl_append, ← divRounds_eq_foldl]
  exact if_pos h

theorem divRounds_zeros (len k : Nat) (d : List Byte) : divRounds (zeros len) d k = zeros len :=
  List.foldl_fixed' (f := divRound d) (fun i => if_pos (zeros_getD len i)) _

/-! ## Division by a monic divisor (R123) -/

/-- The first `k` values `c` of the sweep. -/
def sweepQuotient (n d : List Byte) (k : Nat) : List Byte := (List.range k).map fun i => (divRounds n d i).getD i 0

theorem quotient_eq_sweepQuotient (n d : List Byte) : quotient n d = sweepQuotient n d (n.length - d.length + 1) := rfl

theorem sweepQuotient_succ {d r r' : List Byte} {c x : Byte} (h : polyDivPosition d (c :: r) = x :: r') (k : Nat) :
    sweepQuotient (c :: r) d (k + 1) = c :: sweepQuotient r' d k := by
  simp only [sweepQuotient, List.range_succ_eq_map, List.map_cons, List.map_map, Function.comp_def,
    Nat.succ_eq_add_one, divRounds_succ h, List.getD_cons_succ]
  rfl

@[simp] theorem sweepQuotient_length (n d : List Byte) (k : Nat) : (sweepQuotient n d k).length = k := by
  simp [sweepQuotient]

/-- A monic divisor cancels the leading entry. -/
theorem polyDivPosition_monic (d : List Byte) (c : Byte) (r : List Byte) :
    polyDivPosition (1 :: d) (c :: r) = 0 :: xorInto r (d.map (gfMul c)) := by
  rw [polyDivPosition_cons, List.map_cons, xorInto_cons, gfMul_comm c, one_gfMul, BitVec.xor_self]
  rfl

/-- The sweep leaves zeros at the positions it has passed. -/
theorem polyDivSweep_monic (d : List Byte) {k : Nat} {r : List Byte} (h : k ≤ r.length) :
    polyDivSweep (1 :: d) k r = zeros k ++ (polyDivSweep (1 :: d) k r).drop k := by
  induction k generalizing r with
  | zero => rfl
  | succ k ih => cases r with
    | nil => cases h
    | cons c r =>
      rw [polyDivSweep_succ (polyDivPosition_monic d c r), List.drop_succ_cons, zeros_succ, List.cons_append,
        ← ih (by simpa using h)]

/-- What the sweep leaves, with quotient times divisor XORed in, is the dividend: the round that takes the value `c`
XORs the scaled divisor in, and so does the head `c` of the quotient. -/
theorem xorInto_polyDivSweep_polyMul (d : List Byte) (k : Nat) (r : List Byte) :
    xorInto (polyDivSweep (1 :: d) k r) (polyMul (sweepQuotient r (1 :: d) k) (1 :: d)) = r := by
  induction k generalizing r with
  | zero => exact xorInto_zeros_right r _
  | succ k ih => cases r with
    | nil => rw [polyDivSweep_nil, xorInto_nil_left]
    | cons c r =>
      have hround := polyDivPosition_monic d c r
      have hrow : (d.map (gfMul c)).length ≤
          (polyMul (sweepQuotient (xorInto r (d.map (gfMul c))) (1 :: d) k) (1 :: d)).length := by
        rw [polyMul_length (List.cons_ne_nil _ _), List.length_map, List.length_cons]
        omega
      rw [polyDivSweep_succ hround, sweepQuotient_succ hround, polyMul, List.map_cons, xorInto_cons, xorInto_cons,
        gfMul_comm c, one_gfMul, zero_xor_byte, zero_xor_byte, ← xorInto_assoc hrow, ih, xorInto_xorInto_self]

theorem exists_eq_one_cons {d : List Byte} (h : d.getD 0 0 = 1) : ∃ d', d = 1 :: d' := by
  cases d with
  | nil => cases h
  | cons c d => exact ⟨d, congrArg (· :: d) h⟩

theorem lastEntries_zero (p : List Byte) : lastEntries p 0 = [] := List.drop_length

/-- The result is the zeros, then the last len(d) - 1 entries. -/
theorem polyDiv_monic {n d : List Byte} (hd : d.getD 0 0 = 1) (h : d.length ≤ n.length) :
    polyDiv n d = zeros (n.length - d.length + 1) ++ lastEntries (polyDiv n d) (d.length - 1) := by
  obtain ⟨d, rfl⟩ := exists_eq_one_cons hd
  rw [List.length_cons] at h
  have hlast : (polyDiv n (1 :: d)).length - ((1 :: d).length - 1) = n.length - (1 :: d).length + 1 := by
    rw [polyDiv_length, List.length_cons]
    omega
  rw [lastEntries, hlast]
  exact polyDivSweep_monic d (by rw [List.length_cons]; omega)

/-! ## The statements -/

/-- Settles O20: by the equality of the loops and the recursion, and the rule of POLY_DIV with legal operands. -/
theorem polyDivStoresSweep : Obligations.PolyDivStoresSweep := by
  refine ⟨fun n d _ _ => ⟨polyDiv_eq_divLoop n d, by rw [← polyDiv_eq_divLoop, polyDiv_length]⟩, ?_⟩
  intro s dst nAddr nLen dAddr dLen hd hle hrn hrd hrdst
  rw [← polyDiv_eq_divLoop]
  refine ⟨_, ?_, by rw [polyDiv_length, State.memRead_length], storesExactly_memWrite s dst _⟩
  exact exec_polyDiv_of_legal (by simp [InvalidArgument]; omega) (by simp [RangeOutOfBounds]; omega) s

/-- Settles O21: every round cancels the leading entry, and XORs in what its value contributes to the product. -/
theorem polyDivByMonicLeavesRemainder : Obligations.PolyDivByMonicLeavesRemainder := by
  intro n d hd h
  refine ⟨polyDiv_monic hd h, ?_⟩
  obtain ⟨d, rfl⟩ := exists_eq_one_cons hd
  have hlen : (polyMul (quotient n (1 :: d)) (1 :: d)).length = (polyDiv n (1 :: d)).length := by
    rw [polyMul_length (List.cons_ne_nil _ _), quotient_eq_sweepQuotient, sweepQuotient_length, polyDiv_length]
    omega
  rw [← xorInto_eq_zipWith hlen]
  exact (xorInto_polyDivSweep_polyMul d _ n).symm

/-- Settles O22: [1] is monic with an empty remainder, and the other cases are those of the loops. -/
theorem polyDivCornerCases : Obligations.PolyDivCornerCases := by
  refine ⟨fun n hn => ⟨?_, lastEntries_zero _⟩, fun n d _ hlen => ?_, fun len d _ _ => ?_,
    fun _ _ _ => divRounds_succ_of_zero, gfMul_zero⟩
  · have hpos : 1 ≤ n.length := List.length_pos_iff.mpr hn
    have h := polyDiv_monic (n := n) (d := [1]) rfl hpos
    rwa [List.length_singleton, Nat.sub_add_cancel hpos, lastEntries_zero, List.append_nil] at h
  · rw [polyDiv_eq_divLoop, divLoop, hlen, Nat.sub_self]
  · rw [polyDiv_eq_divLoop]
    exact divRounds_zeros ..

end Sys2Proof.Machine
end

section
/-! SUPPORT. Factors of a product in the field, products with zeros in front and with a binomial (40_gf_scalar.md R104,
41_polynomial.md R120), and the range just written (20_memory.md R61). -/

open Sys2Proof.Spec

namespace Sys2Proof.Machine

theorem gfMul_one (a : Byte) : gfMul a 1 = a := by rw [gfMul_comm, one_gfMul]

theorem gfMul_xor (a x y : Byte) : gfMul a (x ^^^ y) = gfMul a x ^^^ gfMul a y := xorAdditive_gfMul_right a x y

theorem xor_gfMul (x y b : Byte) : gfMul (x ^^^ y) b = gfMul x b ^^^ gfMul y b := xorAdditive_gfMul_left b x y

/-- The field has no divisors of zero: nonzero elements are powers of α, and so is their product. -/
theorem gfMul_eq_zero_iff {a b : Byte} : gfMul a b = 0 ↔ a = 0 ∨ b = 0 := by
  obtain rfl | ⟨i, rfl⟩ := eq_zero_or_eq_gfExp a
  · exact iff_of_true (zero_gfMul b) (.inl rfl)
  obtain rfl | ⟨j, rfl⟩ := eq_zero_or_eq_gfExp b
  · exact iff_of_true (gfMul_zero _) (.inr rfl)
  · rw [gfMul_gfExp]
    exact iff_of_false (gfExp_ne_zero _) (not_or_intro (gfExp_ne_zero i) (gfExp_ne_zero j))

theorem xor_eq_zero_byte {x y : Byte} : x ^^^ y = 0 ↔ x = y := BitVec.xor_eq_zero_iff

/-- A summand changes sides without a change of sign. -/
theorem xor_eq_xor_comm {x y z w : Byte} : x ^^^ y = z ^^^ w ↔ x ^^^ z = y ^^^ w := by
  have h : x ^^^ y ^^^ (z ^^^ w) = x ^^^ z ^^^ (y ^^^ w) := by ac_rfl
  rw [← xor_eq_zero_byte, h, xor_eq_zero_byte]

/-- α has order 255. -/
theorem gfExp_eq_one_iff {i : Nat} : gfExp i = 1 ↔ i % 255 = 0 := by
  refine ⟨fun h => ?_, fun h => by rw [gfExp, h]; rfl⟩
  rw [← gfLog_gfExp, h]
  rfl

/-- A list is x^(n+1) + 1 when its entries are: 1 at either end, and n zeros between. -/
theorem eq_one_zeros_one {p : List Byte} {n : Nat} (hlen : p.length = n + 2) (hfirst : p.getD 0 0 = 1)
    (hmiddle : ∀ j < n, p.getD (j + 1) 0 = 0) (hlast : p.getD (n + 1) 0 = 1) : p = 1 :: zeros n ++ [1] := by
  obtain ⟨p, rfl⟩ := exists_eq_one_cons hfirst
  rw [List.cons_append]
  refine congrArg (List.cons 1) (List.ext_getElem (by simpa using hlen) fun j hj hj' => ?_)
  rw [← List.getD_eq_getElem _ 0 hj, ← List.getD_eq_getElem _ 0 hj']
  obtain h | rfl : j < n ∨ j = n := by
    rw [List.length_cons] at hlen
    omega
  · rw [List.getD_append _ _ _ _ (by rwa [zeros_length]), zeros_getD]
    exact hmiddle j h
  · rw [List.getD_append_right _ _ _ _ (zeros_length j).le, zeros_length, Nat.sub_self]
    exact hlast

/-- Zeros in front of a factor stand in front of the product. -/
theorem polyMul_zeros_append (n : Nat) (a b : List Byte) : polyMul (zeros n ++ a) b = zeros n ++ polyMul a b := by
  induction n with
  | zero => rfl
  | succ n ih =>
    rw [zeros_succ, List.cons_append, polyMul, ih, map_gfMul_zero, xorInto_zeros_right, List.cons_append]

/-- A binomial [1, c] adds to each entry c times the one before it. -/
theorem polyMul_binomial_getD_succ {p : List Byte} (hp : p ≠ []) (c : Byte) (j : Nat) :
    (polyMul p [1, c]).getD (j + 1) 0 = p.getD (j + 1) 0 ^^^ gfMul c (p.getD j 0) := by
  have hscaled : productEntry [c] p j = gfMul c (p.getD j 0) := by
    rw [← polyMul_getD hp, polyMul_singleton hp]
    simpa only [gfMul_zero] using List.getD_map p 0 (gfMul c)
  rw [polyMul_getD (by simp), productEntry_comm, productEntry_cons_succ, hscaled, one_gfMul, BitVec.xor_comm]

/-- A command's destination range reads the bytes that the command stored. -/
theorem State.memRead_finishWith_self (s : State) (dst : Nat) (bytes : List Byte) :
    (s.finishWith dst bytes).memRead dst bytes.length = bytes := by
  have hread : ∀ a, (s.finishWith dst bytes).readByte a = _ := storesExactly_memWrite s dst bytes
  refine List.ext_getElem? fun k => ?_
  rw [State.memRead_getElem?, hread, Nat.add_sub_cancel_left]
  split
  · rename_i hk
    rw [if_pos (by omega), List.getD_eq_getElem _ _ hk, List.getElem?_eq_getElem hk]
  · rename_i hk
    exact (List.getElem?_eq_none (Nat.le_of_not_lt hk)).symm

end Sys2Proof.Machine
end

section
/-! PROOF. The generator-polynomial builder (42_generator.md R140 to R142). The product over the roots α^0, α^1, ...
can be extended at either end: by the next power of α, or by α^0 after a shift of all exponents. The two ways give a
recurrence of the coefficients from which gen_poly(255) is read off. -/

open Sys2Proof.Spec

namespace Sys2Proof.Machine

/-! ## The loop of `gen_poly` (R140) -/

theorem genLoop_succ (k : Nat) : genLoop (k + 1) = mulLoop (genLoop k) [1, alphaPower k] := by
  rw [genLoop, List.range_succ, List.foldl_append]
  rfl

theorem genPoly_eq_genLoop (k : Nat) : genPoly k = genLoop k := by
  induction k with
  | zero => rfl
  | succ k ih => rw [genPoly, genLoop_succ, ← ih, polyMul_eq_mulLoop (by simp), gfExp_eq_alphaPower]

theorem genPoly_ne_nil (k : Nat) : genPoly k ≠ [] := by simp [← List.length_pos_iff]

/-! ## Values and roots (R141) -/

theorem evalPoly_binomial (c x : Byte) : evalPoly [1, c] x = x ^^^ c := by
  rw [evalPoly, List.foldl_cons, List.foldl_cons, List.foldl_nil, zero_gfMul, zero_xor_byte, one_gfMul]

theorem evalPoly_genPoly_succ (k : Nat) (x : Byte) :
    evalPoly (genPoly (k + 1)) x = gfMul (evalPoly (genPoly k) x) (x ^^^ gfExp k) := by
  rw [genPoly, evalPoly_polyMul (by simp), evalPoly_binomial]

theorem evalPoly_genPoly (k : Nat) (x : Byte) :
    evalPoly (genPoly k) x = (List.range k).foldl (fun acc i => gfMul acc (x ^^^ gfExp i)) 1 := by
  induction k with
  | zero => rw [genPoly, evalPoly, List.foldl_cons, zero_gfMul]; rfl
  | succ k ih => rw [evalPoly_genPoly_succ, ih, List.range_succ, List.foldl_append]; rfl

/-- A product is 0 exactly when a factor is, so the roots are the powers of α, for any degree. -/
theorem evalPoly_genPoly_eq_zero_iff (k : Nat) (x : Byte) :
    evalPoly (genPoly k) x = 0 ↔ ∃ i, i < k ∧ x = gfExp i := by
  induction k with
  | zero => simp [evalPoly_genPoly]
  | succ k ih =>
    rw [evalPoly_genPoly_succ, gfMul_eq_zero_iff, ih, xor_eq_zero_byte, Nat.exists_lt_succ_right]

/-! ## Coefficients (R141) -/

theorem genPoly_getD_zero (k : Nat) : (genPoly k).getD 0 0 = 1 := by
  induction k with
  | zero => rfl
  | succ k ih => rw [genPoly, polyMul_leading (by simp), ih, one_gfMul]; rfl

/-- The product extended by the next power of α. -/
theorem genPoly_succ_getD_succ (k j : Nat) :
    (genPoly (k + 1)).getD (j + 1) 0 = (genPoly k).getD (j + 1) 0 ^^^ gfMul (gfExp k) ((genPoly k).getD j 0) :=
  polyMul_binomial_getD_succ (genPoly_ne_nil k) ..

theorem genPoly_getD_of_lt {k j : Nat} (h : k < j) : (genPoly k).getD j 0 = 0 :=
  List.getD_eq_default _ _ (by rw [genPoly_length]; omega)

/-- The product extended by α^0, the exponents of the other factors shifted by 1: entry j is then counted α^j times. -/
theorem genPoly_succ_getD_succ_shift (k j : Nat) :
    (genPoly (k + 1)).getD (j + 1) 0 =
      gfMul (gfExp (j + 1)) ((genPoly k).getD (j + 1) 0) ^^^ gfMul (gfExp j) ((genPoly k).getD j 0) := by
  induction k generalizing j with
  | zero =>
    have hzero : (genPoly 0).getD (j + 1) 0 = 0 := genPoly_getD_of_lt j.succ_pos
    rw [genPoly_succ_getD_succ, hzero, gfMul_zero]
    cases j with
    | zero => rfl
    | succ j => rw [genPoly_getD_of_lt j.succ_pos, gfMul_zero, gfMul_zero]
  | succ k ih =>
    have hlower : gfMul (gfExp j) ((genPoly k).getD j 0) ^^^ gfMul (gfExp (k + 1)) ((genPoly (k + 1)).getD j 0) =
        gfMul (gfExp (j + 1 + k)) ((genPoly k).getD j 0) ^^^ gfMul (gfExp j) ((genPoly (k + 1)).getD j 0) := by
      cases j with
      | zero =>
        simp only [genPoly_getD_zero, gfMul_one]
        rw [BitVec.xor_comm, Nat.zero_add, Nat.add_comm]
      | succ j =>
        nth_rw 1 [ih j]
        rw [genPoly_succ_getD_succ]
        simp only [gfMul_xor, ← gfMul_assoc, gfMul_gfExp]
        ac_rfl
    calc (genPoly (k + 2)).getD (j + 1) 0
        = gfMul (gfExp (j + 1)) ((genPoly k).getD (j + 1) 0) ^^^
            (gfMul (gfExp j) ((genPoly k).getD j 0) ^^^ gfMul (gfExp (k + 1)) ((genPoly (k + 1)).getD j 0)) := by
          rw [genPoly_succ_getD_succ, ih, BitVec.xor_assoc]
      _ = gfMul (gfExp (j + 1)) ((genPoly (k + 1)).getD (j + 1) 0) ^^^
            gfMul (gfExp j) ((genPoly (k + 1)).getD j 0) := by
          rw [hlower, genPoly_succ_getD_succ k j, gfMul_xor, ← gfMul_assoc, gfMul_gfExp, BitVec.xor_assoc]

/-- The constant term is the product of the powers, whose exponents add up to a triangular number. -/
theorem genPoly_constant (k : Nat) : (genPoly k).getD k 0 = gfExp (k * (k - 1) / 2) := by
  induction k with
  | zero => rfl
  | succ k ih =>
    rw [genPoly_succ_getD_succ, genPoly_getD_of_lt k.lt_succ_self, ih, gfMul_gfExp, zero_xor_byte, Nat.triangle_succ,
      Nat.add_comm]

/-! ## Degree 255 (R142) -/

/-- Both extensions agree, so each coefficient determines the next. -/
theorem genPoly_getD_recurrence (k j : Nat) :
    gfMul (1 ^^^ gfExp (j + 1)) ((genPoly k).getD (j + 1) 0) = gfMul (gfExp k ^^^ gfExp j) ((genPoly k).getD j 0) := by
  rw [xor_gfMul, xor_gfMul, one_gfMul, xor_eq_xor_comm, ← genPoly_succ_getD_succ, genPoly_succ_getD_succ_shift]

/-- As α^255 = 1, the recurrence starts from a factor 0, and the next coefficient takes it over each time. -/
theorem gfMul_genPoly_255_getD (j : Nat) : gfMul (1 ^^^ gfExp j) ((genPoly 255).getD j 0) = 0 := by
  induction j with
  | zero => exact zero_gfMul _
  | succ j ih => exact (genPoly_getD_recurrence 255 j).trans ih

theorem genPoly_255_getD {j : Nat} (hpos : 0 < j) (hlt : j < 255) : (genPoly 255).getD j 0 = 0 := by
  obtain h | h := gfMul_eq_zero_iff.mp (gfMul_genPoly_255_getD j)
  · have := gfExp_eq_one_iff.mp (xor_eq_zero_byte.mp h).symm
    omega
  · exact h

theorem genPoly_255 : genPoly 255 = 1 :: zeros 254 ++ [1] := by
  refine eq_one_zeros_one (genPoly_length 255) (genPoly_getD_zero 255)
    (fun j hj => genPoly_255_getD j.succ_pos (by omega)) ?_
  exact (genPoly_constant 255).trans (gfExp_eq_one_iff.mpr rfl)

theorem genPoly_256 : genPoly 256 = 1 :: 1 :: zeros 253 ++ [1, 1] := by
  rw [genPoly, genPoly_255, List.cons_append, polyMul, polyMul_zeros_append, one_polyMul (by simp)]
  rfl

/-! ## The statements -/

/-- Settles O24: by the equality of the loop and the recursion, and the rule of GEN_POLY with legal operands. -/
theorem genPolyStoresGenerator : Obligations.GenPolyStoresGenerator := by
  refine ⟨fun k => ⟨genPoly_eq_genLoop k, by rw [← genPoly_eq_genLoop, genPoly_length]⟩, fun s dst deg h => ?_⟩
  rw [← genPoly_eq_genLoop]
  refine ⟨_, ?_, genPoly_length deg, storesExactly_memWrite s dst _⟩
  exact exec_genPoly_of_legal (by unfold RangeOutOfBounds; omega) s

/-- Settles O25: the value is a product of factors x + α^i, which is 0 when one of them is. -/
theorem genPolyIsMonicWithAlphaPowersAsRoots : Obligations.GenPolyIsMonicWithAlphaPowersAsRoots := fun k =>
  ⟨genPoly_length k, genPoly_getD_zero k, fun i => evalPoly_binomial (gfExp i), evalPoly_genPoly k,
    fun _ => evalPoly_genPoly_eq_zero_iff k, genPoly_constant k, by decide +kernel⟩

/-- Settles O26: the recurrence of the coefficients at degree 255, and one more factor x + 1 for degree 256. -/
theorem genPolyDegreesOf255AndAbove : Obligations.GenPolyDegreesOf255AndAbove := by
  refine ⟨fun k => ?_, genPoly_255, fun x => ?_, fun x hx => ?_, genPoly_256, fun s dst deg _ h => ?_⟩
  · rw [genPoly, gfExp, gfExp, Nat.mod_mod]
  · rw [evalPoly_genPoly]
    exact List.foldl_ext _ _ _ fun acc i hi => by rw [gfExp_of_lt (List.mem_range.mp hi)]
  · obtain ⟨hlt, he⟩ := expRom_logRom x hx
    exact ⟨_, hlt, he⟩
  · refine ⟨_, exec_genPoly_of_legal (by unfold RangeOutOfBounds; omega) s, ?_⟩
    rw [← genPoly_eq_genLoop, ← genPoly_length deg]
    exact s.memRead_finishWith_self dst (genPoly deg)

end Sys2Proof.Machine
end

section
/-! SUPPORT. The sweep of `poly_div` is additive over XOR and passes over leading zeros (41_polynomial.md R122, R126),
and neighbouring ranges read as one (00_scope.md R12). -/

namespace Sys2Proof.Machine

/-! ## XOR of lists -/

theorem xorInto_append {p q : List Byte} (h : q.length = p.length) (u v : List Byte) :
    xorInto (p ++ u) (q ++ v) = xorInto p q ++ xorInto u v := by
  induction p generalizing q with
  | nil => rw [List.eq_nil_of_length_eq_zero h]; rfl
  | cons x p ih => cases q with
    | nil => cases h
    | cons y q => simp [ih (Nat.succ.inj h)]

theorem xorInto_self (p : List Byte) : xorInto p p = zeros p.length := by
  have h := xorInto_xorInto_self (zeros p.length) p
  rwa [xorInto_zeros_left rfl] at h

/-- Two pairs of summands may be regrouped when the lists of each pair are equally long. -/
theorem xorInto_xorInto_xorInto_comm {p q u v : List Byte} (hq : q.length = p.length) (hv : v.length = u.length) :
    xorInto (xorInto p q) (xorInto u v) = xorInto (xorInto p u) (xorInto q v) := by
  induction p generalizing q u v with
  | nil => rfl
  | cons x p ih => cases q with
    | nil => cases hq
    | cons y q => cases u with
      | nil => simp [List.eq_nil_of_length_eq_zero hv]
      | cons z u => cases v with
        | nil => cases hv
        | cons w v =>
          have hxor : x ^^^ y ^^^ (z ^^^ w) = x ^^^ z ^^^ (y ^^^ w) := by ac_rfl
          simp [ih (Nat.succ.inj hq) (Nat.succ.inj hv), hxor]

theorem map_gfMul_xor (d : List Byte) (x y : Byte) :
    d.map (gfMul (x ^^^ y)) = xorInto (d.map (gfMul x)) (d.map (gfMul y)) := by
  induction d with
  | nil => rfl
  | cons z d ih => simp only [List.map_cons, xorInto_cons, ih, xor_gfMul]

theorem ne_nil_of_length_eq {p q : List Byte} (h : p.length = q.length) (hq : q ≠ []) : p ≠ [] := by
  rw [← List.length_pos_iff, h]
  exact List.length_pos_iff.mpr hq

/-! ## The sweep -/

theorem polyDivPosition_xorInto (d : List Byte) {p q : List Byte} (h : q.length = p.length) :
    polyDivPosition d (xorInto p q) = xorInto (polyDivPosition d p) (polyDivPosition d q) := by
  cases p with
  | nil => rfl
  | cons x p => cases q with
    | nil => cases h
    | cons y q =>
      rw [xorInto_cons, polyDivPosition_cons, polyDivPosition_cons, polyDivPosition_cons, map_gfMul_xor,
        ← xorInto_cons, xorInto_xorInto_xorInto_comm h (by simp)]

theorem polyDivSweep_xorInto (d : List Byte) (k : Nat) {p q : List Byte} (h : q.length = p.length) :
    polyDivSweep d k (xorInto p q) = xorInto (polyDivSweep d k p) (polyDivSweep d k q) := by
  induction k generalizing p q with
  | zero => rfl
  | succ k ih => cases p with
    | nil => simp [polyDivSweep_nil]
    | cons x p => cases q with
      | nil => cases h
      | cons y q =>
        obtain ⟨x', p', hp⟩ := exists_polyDivPosition_cons d x p
        obtain ⟨y', q', hq⟩ := exists_polyDivPosition_cons d y q
        have hpq : polyDivPosition d (xorInto (x :: p) (y :: q)) = (x' ^^^ y') :: xorInto p' q' := by
          rw [polyDivPosition_xorInto d h, hp, hq, xorInto_cons]
        have hlen : q'.length = p'.length := by
          have hp' := polyDivPosition_length d (x :: p)
          have hq' := polyDivPosition_length d (y :: q)
          simp only [hp, hq, List.length_cons] at hp' hq' h
          omega
        rw [polyDivSweep_succ hp, polyDivSweep_succ hq, polyDivSweep_succ hpq, ih hlen, xorInto_cons]

theorem polyDivSweep_zero_cons (d : List Byte) (k : Nat) (r : List Byte) :
    polyDivSweep d (k + 1) (0 :: r) = 0 :: polyDivSweep d k r := by
  have hround : polyDivPosition d (0 :: r) = 0 :: r := by
    rw [polyDivPosition_cons, map_gfMul_zero, xorInto_zeros_right]
  exact polyDivSweep_succ hround k

theorem polyDivSweep_zeros_append (d : List Byte) (k : Nat) (r : List Byte) :
    polyDivSweep d k (zeros k ++ r) = zeros k ++ r := by
  induction k with
  | zero => rfl
  | succ k ih => rw [zeros_succ, List.cons_append, polyDivSweep_zero_cons, ih]

/-! ## Neighbouring ranges -/

theorem State.memRead_add (s : State) (a m n : Nat) : s.memRead a (m + n) = s.memRead a m ++ s.memRead (a + m) n := by
  induction m generalizing a with
  | zero => simp [State.memRead]
  | succ m ih =>
    rw [Nat.succ_add, State.memRead, State.memRead, ih, List.cons_append, Nat.add_right_comm a 1 m, Nat.add_assoc a m 1]

/-- A range in front of a command's destination reads as before. -/
theorem State.memRead_finishWith_before (s : State) {a n dst : Nat} (h : a + n ≤ dst) (bytes : List Byte) :
    (s.finishWith dst bytes).memRead a n = s.memRead a n :=
  State.memRead_congr fun x _ hx => (storesExactly_memWrite s dst bytes x).trans (if_neg (by omega))

end Sys2Proof.Machine
end

section
/-! PROOF. The Reed-Solomon encoder (43_rs_encoder.md R150 to R153). Dividing the padded data by the generator leaves
zeros and then the check bytes. As the sweep is additive, a tail in place of the padding is XORed to the check bytes;
linearity and the divisibility of the codeword follow. -/

open Sys2Proof.Spec

namespace Sys2Proof.Machine

/-! ## The steps of `rs_encode` (R150) -/

theorem rsEncode_eq_encodeLoop (data : List Byte) (k : Nat) : rsEncode data k = encodeLoop data k := by
  rw [rsEncode, polyDiv_eq_divLoop, genPoly_eq_genLoop]
  rfl

/-! ## Division by the generator -/

/-- The sweep passes over exactly the data. -/
theorem polyDiv_genPoly {data : List Byte} (hd : data ≠ []) {k : Nat} {tail : List Byte} (ht : tail.length = k) :
    polyDiv (data ++ tail) (genPoly k) = polyDivSweep (genPoly k) data.length (data ++ tail) := by
  have hrounds : (data ++ tail).length - (genPoly k).length + 1 = data.length := by
    have := List.length_pos_iff.mpr hd
    rw [List.length_append, genPoly_length]
    omega
  rw [polyDiv, hrounds]

/-- The padded data leaves zeros, then the check bytes. -/
theorem polyDivSweep_padded {data : List Byte} (hd : data ≠ []) (k : Nat) :
    polyDivSweep (genPoly k) data.length (data ++ zeros k) = zeros data.length ++ rsEncode data k := by
  have hpos := List.length_pos_iff.mpr hd
  have hquot : (data ++ zeros k).length - (genPoly k).length + 1 = data.length := by simp; omega
  have h := polyDiv_monic (n := data ++ zeros k) (genPoly_getD_zero k) (by simp; omega)
  rwa [hquot, genPoly_length, Nat.add_sub_cancel, ← rsEncode, polyDiv_genPoly hd (zeros_length k)] at h

/-- `rs_encode` is what the sweep leaves behind the data's zeros. -/
theorem rsEncode_eq_of_polyDivSweep {data rem : List Byte} (hd : data ≠ []) {k : Nat}
    (h : polyDivSweep (genPoly k) data.length (data ++ zeros k) = zeros data.length ++ rem) : rsEncode data k = rem :=
  List.append_cancel_left ((polyDivSweep_padded hd k).symm.trans h)

/-- Any tail in place of the padding is XORed to the check bytes. -/
theorem polyDiv_append_tail {data : List Byte} (hd : data ≠ []) {k : Nat} {tail : List Byte} (ht : tail.length = k) :
    polyDiv (data ++ tail) (genPoly k) = zeros data.length ++ xorInto (rsEncode data k) tail := by
  have hsplit : data ++ tail = xorInto (data ++ zeros k) (zeros data.length ++ tail) := by
    rw [xorInto_append (zeros_length _), xorInto_zeros_right, xorInto_zeros_left ht]
  rw [polyDiv_genPoly hd ht, hsplit, polyDivSweep_xorInto _ _ (by simp [ht]), polyDivSweep_padded hd,
    polyDivSweep_zeros_append, xorInto_append rfl, xorInto_zeros_right]

/-! ## The properties of `rs_encode` (R152) -/

/-- The codeword is divisible by the generator: the check bytes cancel themselves. -/
theorem polyDiv_codeword {data : List Byte} (hd : data ≠ []) (k : Nat) :
    polyDiv (data ++ rsEncode data k) (genPoly k) = zeros (data.length + k) := by
  rw [polyDiv_append_tail hd (rsEncode_length data k), xorInto_self, rsEncode_length]
  exact List.replicate_append_replicate

theorem rsEncode_xorInto {data other : List Byte} (hd : data ≠ []) (h : other.length = data.length) (k : Nat) :
    rsEncode (xorInto data other) k = xorInto (rsEncode data k) (rsEncode other k) := by
  have hother := polyDivSweep_padded (ne_nil_of_length_eq h hd) k
  have hpad : xorInto data other ++ zeros k = xorInto (data ++ zeros k) (other ++ zeros k) := by
    rw [xorInto_append h, xorInto_zeros_right]
  rw [h] at hother
  refine rsEncode_eq_of_polyDivSweep (ne_nil_of_length_eq (xorInto_length ..) hd) ?_
  rw [hpad, xorInto_length, polyDivSweep_xorInto _ _ (by simp [h]), polyDivSweep_padded hd, hother,
    xorInto_append rfl, xorInto_zeros_right]

theorem rsEncode_zeros {data : List Byte} (hd : data ≠ []) (k : Nat) : rsEncode (zeros data.length) k = zeros k := by
  refine rsEncode_eq_of_polyDivSweep (ne_nil_of_length_eq (zeros_length _) hd) ?_
  rw [zeros_length, polyDivSweep_zeros_append]

theorem rsEncode_zero_cons {data : List Byte} (hd : data ≠ []) (k : Nat) :
    rsEncode (0 :: data) k = rsEncode data k := by
  refine rsEncode_eq_of_polyDivSweep (List.cons_ne_nil _ _) ?_
  rw [List.length_cons, List.cons_append, polyDivSweep_zero_cons, polyDivSweep_padded hd, zeros_succ, List.cons_append]

/-- The generator of degree 1 is [1, 1]. -/
theorem rsEncode_singleton_one (d : Byte) : rsEncode [d] 1 = [d] := by
  refine rsEncode_eq_of_polyDivSweep (List.cons_ne_nil _ _) ?_
  have hgen : genPoly 1 = [1, 1] := rfl
  have hround : polyDivPosition [1, 1] [d, 0] = [0, d] := by
    rw [polyDivPosition_monic, List.map_singleton, gfMul_one, xorInto_cons, zero_xor_byte, xorInto_nil_right]
  rw [hgen]
  exact polyDivSweep_succ hround 0

/-! ## The roots of a codeword (R141) -/

/-- A multiple of a monic polynomial vanishes wherever that one does. -/
theorem evalPoly_eq_zero_of_polyDiv {n d : List Byte} {x : Byte} (hmonic : d.getD 0 0 = 1) (hle : d.length ≤ n.length)
    (hdiv : polyDiv n d = zeros n.length) (hroot : evalPoly d x = 0) : evalPoly n x = 0 := by
  obtain ⟨d, rfl⟩ := exists_eq_one_cons hmonic
  have hd : (1 :: d) ≠ [] := List.cons_ne_nil _ _
  have hlen : (polyMul (quotient n (1 :: d)) (1 :: d)).length = n.length := by
    rw [polyMul_length hd, quotient_eq_sweepQuotient, sweepQuotient_length]
    omega
  have hfactor : polyMul (quotient n (1 :: d)) (1 :: d) = n := by
    have h := xorInto_polyDivSweep_polyMul d (n.length - (1 :: d).length + 1) n
    rwa [← polyDiv, hdiv, ← quotient_eq_sweepQuotient, xorInto_zeros_left hlen] at h
  rw [← hfactor, evalPoly_polyMul hd, hroot, gfMul_zero]

theorem evalPoly_codeword {data : List Byte} (hd : data ≠ []) {j k : Nat} (hj : j < k) :
    evalPoly (data ++ rsEncode data k) (alphaPower j) = 0 := by
  have hlen : (data ++ rsEncode data k).length = data.length + k := by simp
  refine evalPoly_eq_zero_of_polyDiv (genPoly_getD_zero k) ?_ ?_
    ((evalPoly_genPoly_eq_zero_iff k _).mpr ⟨j, hj, (gfExp_eq_alphaPower j).symm⟩)
  · have := List.length_pos_iff.mpr hd
    rw [hlen, genPoly_length]
    omega
  · rw [hlen, polyDiv_codeword hd]

/-! ## RS_ENC (R153) -/

theorem exec_rsEnc {dst dataAddr dataLen ec : Nat} (hec : ec ≠ 0) (hlen : dataLen ≠ 0)
    (hdata : dataAddr + dataLen ≤ 1024) (hdst : dst + ec ≤ 1024) (s : State) :
    exec (.rsEnc dst dataAddr dataLen ec) s =
      .next (s.finishWith dst (rsEncode (s.memRead dataAddr dataLen) ec)) :=
  exec_rsEnc_of_legal (by simp [InvalidArgument, hec, hlen]) (by simp [RangeOutOfBounds, hdata, hdst]) s

theorem State.memRead_finishWith_rsEncode (s : State) (dst : Nat) (data : List Byte) (ec : Nat) :
    (s.finishWith dst (rsEncode data ec)).memRead dst ec = rsEncode data ec := by
  simpa using s.memRead_finishWith_self dst (rsEncode data ec)

/-! ## The statements -/

/-- Settles O27: by the equality of the loops and the recursion, and the rule of RS_ENC with legal operands. -/
theorem rsEncStoresRemainder : Obligations.RsEncStoresRemainder := by
  refine ⟨fun data k _ _ => ⟨rsEncode_eq_encodeLoop data k, ?_⟩,
    fun s dst dataAddr dataLen ec hec hlen hdata hdst => ?_⟩
  · rw [← rsEncode_eq_encodeLoop, rsEncode_length]
  · rw [← rsEncode_eq_encodeLoop]
    exact ⟨_, exec_rsEnc hec hlen hdata hdst s, rsEncode_length _ ec, storesExactly_memWrite s dst _⟩

/-- Settles O28: by the additive sweep, and because RS_ENC stores `rs_encode` of the bytes it reads. -/
theorem rsEncodeIsLinearAndDivisible : Obligations.RsEncodeIsLinearAndDivisible := by
  refine ⟨fun data k hd _ => ⟨rsEncode_length data k, polyDiv_codeword hd k, fun other h => ?_,
    rsEncode_zeros hd k, rsEncode_zero_cons hd k⟩, rsEncode_singleton_one, ?_⟩
  · rw [← xorInto_eq_zipWith h.symm, ← xorInto_eq_zipWith (by simp),
      rsEncode_xorInto (ne_nil_of_length_eq h hd) h.symm]
  · intro s s' t t' dst dst' a a' len ec hec hlen ha ha' hdst hdst' hsame ht ht'
    rw [exec_rsEnc (by omega) (by omega) ha hdst] at ht
    rw [exec_rsEnc (by omega) (by omega) ha' hdst'] at ht'
    cases ht
    cases ht'
    rw [State.memRead_finishWith_rsEncode, State.memRead_finishWith_rsEncode, hsame]

/-- Settles O29: the range reads as the data and its check bytes, a multiple of the generator, whose roots it takes
over. -/
theorem rsEncLeavesCodewordWithGeneratorRoots : Obligations.RsEncLeavesCodewordWithGeneratorRoots := by
  intro s dataAddr dataLen ec hec hlen hrange
  have hdata : s.memRead dataAddr dataLen ≠ [] := by
    rw [← List.length_pos_iff, State.memRead_length]
    omega
  refine ⟨_, exec_rsEnc (by omega) (by omega) (by omega) hrange s, s.memRead_finishWith_before le_rfl _,
    fun j hj => ?_⟩
  rw [State.memRead_add, State.memRead_finishWith_before s le_rfl, State.memRead_finishWith_rsEncode]
  exact evalPoly_codeword hdata hj

theorem rsEncode_goldenData :
    rsEncode [32, 91, 11, 120, 209, 114, 220, 77, 67, 64, 236, 17, 236, 17, 236, 17] 10 =
      [196, 35, 39, 119, 235, 215, 231, 226, 93, 23] := by decide +kernel

/-- Settles O30: RS_ENC stores `rs_encode` of the golden data, which evaluates to the listed bytes. -/
theorem goldenVectorEncodes : Obligations.GoldenVectorEncodes := by
  intro s hdata
  refine ⟨_, exec_rsEnc (by decide) (by decide) (by decide) (by decide) s, ?_⟩
  rw [State.memRead_finishWith_rsEncode, hdata, rsEncode_goldenData]

end Sys2Proof.Machine
end

section
/-! PROOF. How a command ends, what stays while ERR = 1, and the machine that stands still (60_exceptions.md R162 to R165,
R174, 70_reset_and_hazards.md R191). -/

open Sys2Proof.Spec

namespace Sys2Proof.Machine

/-! ## How a command ends -/

/-- A command without a cause of failure completes and records no error (R160, R163). -/
theorem exec_completes_of_legal {i : Instr} (hi : ¬ InvalidArgument i) (hr : ¬ RangeOutOfBounds i) (s : State) :
    ∃ t, exec i s = .next t ∧ t.pending = none ∧ t.err = s.err ∧ t.errCode = s.errCode ∧ t.errOp = s.errOp := by
  cases i with
  | nop | gfMul | gfExp => exact ⟨_, rfl, rfl, rfl, rfl, rfl⟩
  | gfLog x => exact ⟨_, exec_gfLog hi s, rfl, rfl, rfl, rfl⟩
  | polyMul dst aAddr aLen bAddr bLen => exact ⟨_, exec_polyMul_of_legal hi hr s, rfl, rfl, rfl, rfl⟩
  | polyDiv dst nAddr nLen dAddr dLen => exact ⟨_, exec_polyDiv_of_legal hi hr s, rfl, rfl, rfl, rfl⟩
  | genPoly dst deg => exact ⟨_, exec_genPoly_of_legal hr s, rfl, rfl, rfl, rfl⟩
  | rsEnc dst dataAddr dataLen ec => exact ⟨_, exec_rsEnc_of_legal hi hr s, rfl, rfl, rfl, rfl⟩

/-- Settles O23: an illegal word does not reach `exec`, and a command's preconditions are looked at before its ranges. -/
theorem exactlyOneErrorInPriorityOrder : Obligations.ExactlyOneErrorInPriorityOrder := by
  intro s w hp
  obtain ⟨hillegal, hlegal⟩ := illegalWordRecordsIllegalCommand s w hp
  refine ⟨hillegal, fun hw => ?_⟩
  obtain ⟨i, hd, hexec⟩ := hlegal hw
  have hop : w.extractLsb' 0 8 = i.opcode.byte := (opcode_byte_of_decode hd).symm
  rw [hexec, hop]
  exact ⟨i, hd, fun hi => exec_of_invalidArgument hi s, fun hi hr => exec_of_rangeOutOfBounds hi hr s,
    fun hi hr => exec_completes_of_legal hi hr s⟩

/-! ## While ERR = 1 -/

/-- Without CLR_ERR a CTRL write does nothing while ERR = 1 (R165). -/
theorem writeCtrl_eq_self_of_err {s : State} {v : Word32} (he : s.err = true) (hv : v.getLsbD 1 = false) :
    s.writeCtrl v = s := by
  unfold State.writeCtrl
  rw [hv]
  simp [he]

/-- No command is in flight while ERR = 1 (R165). -/
theorem Inv.pending_eq_none_of_err {s : State} (h : Inv s) (he : s.err = true) : s.pending = none := by
  rw [← State.busy_eq_false_iff]
  cases hb : s.busy with
  | false => rfl
  | true => exact absurd he (by simp [h.busyNoError hb])

/-- Settles O46: by the shapes of a step, of which a reset and the CTRL write touch STATUS or RESULT with no command in
flight. -/
theorem stickyErrorKeepsFirstError : Obligations.StickyErrorKeepsFirstError := by
  refine ⟨fun s v he hz _ hv => ?_, fun s t hinv h he hreset hclear => ?_⟩
  · rw [hostAccess_writeReg hz (by decide) rfl v]
    exact congrArg _ (writeCtrl_eq_self_of_err he hv)
  · have hidle := hinv.pending_eq_none_of_err he
    cases step_shape h with
    | reset hT => exact absurd hT hreset
    | command _ hp | illegal _ hp => cases hidle.symm.trans hp
    | @writeCtrl v rest hT _ hp =>
      rw [writeCtrl_eq_self_of_err (s := (popTurn s).setProgram rest) he (hclear hT v rest hp)]
      exact ⟨rfl, hidle, rfl⟩
    | idleCore | hostOnly | writeCmdLo | writeCmdHi | writeDmem => exact ⟨rfl, hidle, rfl⟩

/-! ## The machine that stands still -/

/-- A core turn with no command in flight (R174). -/
theorem step_idleCore {s : State} (hT : nextTurn s = .core) (hp : s.pending = none) : step s = .next (popTurn s) := by
  simp [step, hT, coreStep, hp]

/-- A host turn once the program is done (70_reset_and_hazards.md R191). -/
theorem step_finishedHost {s : State} (hT : nextTurn s = .host) (hp : s.program = []) :
    step s = .next (popTurn s) := by
  simp [step, hT, hostStep, hp]

/-- Settles O10: by the agent whose turn it is. -/
theorem endedMachineStandsStill : Obligations.EndedMachineStandsStill := by
  rintro s ⟨hprogram, hpending⟩ hreset
  cases hT : nextTurn s with
  | core => exact step_idleCore hT hpending
  | host => exact step_finishedHost hT hprogram
  | reset => exact absurd hT hreset

end Sys2Proof.Machine
end

section
/-! PROOF. Reset (70_reset_and_hazards.md R180, R181, R183) and the busy interval (R185). -/

namespace Sys2Proof.Machine

/-! ## Reset -/

/-- STATUS reads 0 with no command in flight and no error recorded (10_state.md R33). -/
theorem State.status_eq_zero {s : State} (hp : s.pending = none) (he : s.err = false) (hcode : s.errCode = 0)
    (hop : s.errOp = 0) : s.status = 0 := by
  rw [State.status, State.busy_eq_false_iff.mpr hp, he, hcode, hop]
  rfl

/-- CMD reads 0 after a reset (10_state.md R40). -/
@[simp] theorem resetStep_cmd (s : State) : (resetStep s).cmd = 0 := cmd_of_halves rfl rfl

/-- Settles O49: a reset step writes the reset value to every register. -/
theorem resetSetsEveryRegister : Obligations.ResetSetsEveryRegister :=
  ⟨⟨rfl, State.status_eq_zero rfl rfl rfl rfl, rfl, rfl⟩, fun _ hT =>
    ⟨_, step_reset hT, resetStep_cmd _, rfl, rfl, State.status_eq_zero rfl rfl rfl rfl, rfl, rfl, rfl, rfl, rfl, rfl⟩⟩

/-- Settles O50: a reset step leaves no byte listed and numbers a new draw. -/
theorem resetDrawsEveryDmemByte : Obligations.ResetDrawsEveryDmemByte :=
  fun _ hT => ⟨_, step_reset hT, rfl, fun _ => rfl⟩

/-- The word 0, which a reset leaves in CMD, is NOP (R183). -/
theorem decode_zero : decode 0 = .ok .nop := decodeInvertsEncode .nop rfl

/-- Settles O51: GO puts the word 0 of CMD in flight, which is NOP. -/
theorem goAfterResetRunsNop : Obligations.GoAfterResetRunsNop := by
  intro s t hT h hz
  rw [step_reset hT] at h
  cases h
  have hgo := hostAccess_writeReg (o := offCtrl) hz (by decide) rfl 1
  rw [writeReg_go rfl, State.startCommand, resetStep_cmd] at hgo
  refine ⟨rfl, _, hgo, rfl, decode_zero, ?_, rfl⟩
  change execute 0 _ = _
  rw [execute, decode_zero]
  rfl

/-! ## The busy interval -/

/-- A write to CTRL opens the busy interval exactly when it starts a command (10_state.md R32). -/
theorem writeCtrl_awaitingIdle {s : State} (hz : s.awaitingIdle = false) (v : Word32) :
    (s.writeCtrl v).awaitingIdle = true ↔ v.getLsbD 0 = true ∧ (s.err = false ∨ v.getLsbD 1 = true) := by
  obtain ⟨-, h0, e⟩ | ⟨h1, -, he, e⟩ | ⟨-, h0, he, e⟩ | ⟨-, h0, e⟩ | ⟨h1, h0, e⟩ := writeCtrl_cases s v <;> rw [e]
  · rw [hz, h0]; simp
  · rw [hz, h1, he]; simp
  · rw [h0, he]; simp
  · rw [State.clearError_awaitingIdle, hz, h0]; simp
  · rw [h0, h1]; simp

/-- A 32-bit read of STATUS is accepted in every state, and ends the busy interval where BUSY reads 0. -/
theorem hostAccess_readStatus (s : State) (x : HostVar) :
    ∃ t, hostAccess (.read 32 offStatus x) s = .next t ∧ t.awaitingIdle = (s.awaitingIdle && s.busy) := by
  obtain ⟨hwindow, hadmitted⟩ := admitted_register (o := offStatus) (by decide) rfl
  refine ⟨_, hostAccess_next_iff.mpr ⟨hwindow, hadmitted, fun _ => rfl, rfl⟩, ?_⟩
  rw [perform_read, bne_self_eq_false, Bool.or_false]

/-- An admitted read of STATUS has 32 bits (20_memory.md R55). -/
theorem eq_readStatus {a : HostAccess} (ha : admitted a.width a.offset = true) (hs : a.isStatusRead = true) :
    ∃ x, a = .read 32 offStatus x := by
  cases a with
  | write width offset v => cases hs
  | read width offset x =>
    obtain rfl : offset = offStatus := by simpa [HostAccess.isStatusRead] using hs
    obtain ⟨-, ⟨rfl, -⟩ | ⟨-, hdmem⟩⟩ := admitted_iff.mp ha
    · exact ⟨x, rfl⟩
    · exact absurd (show 0x400 ≤ offStatus from hdmem) (by decide)

/-- The one access that is accepted in the busy interval. -/
theorem eq_readStatus_of_awaitingIdle {s t : State} {a : HostAccess} (hz : s.awaitingIdle = true)
    (h : hostAccess a s = .next t) : ∃ x, a = .read 32 offStatus x := by
  obtain ⟨-, hadmitted, hbusy, -⟩ := hostAccess_next_iff.mp h
  exact eq_readStatus hadmitted (hbusy hz)

/-- An access that ends the busy interval is a read of STATUS while BUSY = 0. -/
theorem readStatus_of_interval_ended {s t : State} {a : HostAccess} (h : hostAccess a s = .next t)
    (hs : s.awaitingIdle = true) (ht : t.awaitingIdle = false) : s.busy = false ∧ ∃ x, a = .read 32 offStatus x := by
  obtain ⟨x, rfl⟩ := eq_readStatus_of_awaitingIdle hs h
  obtain ⟨u, hu, hz⟩ := hostAccess_readStatus s x
  cases hu.symm.trans h
  refine ⟨?_, x, rfl⟩
  rwa [ht, hs, Bool.true_and, eq_comm] at hz

/-- Settles O36: by what a CTRL write and a STATUS read do to the interval; of the agents only the host ends it. -/
theorem busyIntervalAllowsOnlyStatusReads : Obligations.BusyIntervalAllowsOnlyStatusReads := by
  refine ⟨fun s t v hz h => ?_, fun s x => ?_, fun s t a => eq_readStatus_of_awaitingIdle, fun s t h hs ht => ?_⟩
  · cases (hostAccess_writeReg hz (by decide) rfl v).symm.trans h
    exact writeCtrl_awaitingIdle hz v
  · obtain ⟨t, h, hz⟩ := hostAccess_readStatus s x
    exact ⟨t, h, fun hb => by simp [hz, hb], fun hb => by simp [hz, hb]⟩
  · obtain ⟨-, -, rfl⟩ | ⟨w, -, -, h⟩ | ⟨hT, h⟩ | ⟨-, rfl⟩ := step_cases h
    · cases hs.symm.trans ht
    · obtain ⟨-, -, -, -, -, hz, -⟩ := execute_frame h
      cases hs.symm.trans (hz.symm.trans ht)
    · obtain ⟨-, rfl⟩ | ⟨a, rest, hp, h⟩ | ⟨rest, hp, h⟩ := hostStep_cases h
      · cases hs.symm.trans ht
      · obtain ⟨hb, x, rfl⟩ := readStatus_of_interval_ended h hs ht
        exact ⟨hT, hb, rest, .inr ⟨x, hp⟩⟩
      · obtain ⟨hb, -⟩ := readStatus_of_interval_ended h hs ht
        exact ⟨hT, hb, rest, .inl hp⟩
    · cases hs.symm.trans ht

end Sys2Proof.Machine
end

section
/-! PROOF. Schedules make no difference (70_reset_and_hazards.md R190): every run without a reset that ends leaves the
core, and the host variables that no poll assigns, as the run in program order does, in which each command completes
before the host's next access. -/

namespace Sys2Proof.Machine

/-! ## The part of the state that schedules leave alone -/

/-- The core's part of the state: the host's fields and the schedule are blank. -/
def State.coreOnly (s : State) : State :=
  { s with program := [], hostVars := [], awaitingIdle := false, schedule := [] }

/-- Two states with the same core, and the same values of these host variables. -/
structure Alike (vars : HostVar → Prop) (s t : State) : Prop where
  core : s.coreOnly = t.coreOnly
  value : ∀ x, vars x → s.var? x = t.var? x

theorem Alike.refl (vars : HostVar → Prop) (s : State) : Alike vars s s := ⟨rfl, fun _ _ => rfl⟩

theorem Alike.symm {vars : HostVar → Prop} {s t : State} (h : Alike vars s t) : Alike vars t s :=
  ⟨h.core.symm, fun x hx => (h.value x hx).symm⟩

theorem Alike.trans {vars : HostVar → Prop} {s t u : State} (h : Alike vars s t) (h' : Alike vars t u) :
    Alike vars s u :=
  ⟨h.core.trans h'.core, fun x hx => (h.value x hx).trans (h'.value x hx)⟩

/-- States with one core and one remaining program differ in the other host fields only. -/
theorem eq_of_coreOnly_eq {s t : State} (h : s.coreOnly = t.coreOnly) (hp : s.program = t.program) :
    t = { s with schedule := t.schedule, hostVars := t.hostVars, awaitingIdle := t.awaitingIdle } := by
  cases s
  cases t
  simp_all [State.coreOnly]

/-- What is observed of an ended run is the core's. -/
theorem observe_coreOnly (s : State) : s.coreOnly.observe = s.observe := by
  have hbytes : s.coreOnly.memRead 0 Config.dmemSize = s.memRead 0 Config.dmemSize :=
    State.memRead_congr fun x _ _ => State.readByte_congr rfl rfl x
  rw [State.observe, hbytes]
  rfl

/-! ## Host accesses -/

theorem portRead_coreOnly (s : State) (width offset : Nat) :
    s.coreOnly.portRead width offset = s.portRead width offset := rfl

theorem writeCtrl_coreOnly (s : State) (v : Word32) : (s.coreOnly.writeCtrl v).coreOnly = (s.writeCtrl v).coreOnly := by
  obtain ⟨h1, h0, e⟩ | ⟨h1, h0, he, e⟩ | ⟨h1, h0, he, e⟩ | ⟨h1, h0, e⟩ | ⟨h1, h0, e⟩ := writeCtrl_cases s v <;>
    rw [e, State.writeCtrl, h1, h0]
  · rfl
  · simp [State.coreOnly, he]
  · simp [State.coreOnly, he, State.startCommand, State.cmd]
  · rfl
  · rfl

theorem writeReg_coreOnly (s : State) (offset : Nat) (v : Word32) :
    (s.coreOnly.writeReg offset v).coreOnly = (s.writeReg offset v).coreOnly := by
  unfold State.writeReg
  split_ifs
  · rfl
  · rfl
  · exact writeCtrl_coreOnly s v
  · rfl

/-- A write through the port does to the core what it does to the core alone. -/
theorem portWrite_coreOnly (s : State) (width offset : Nat) (v : Word32) :
    (s.coreOnly.portWrite width offset v).coreOnly = (s.portWrite width offset v).coreOnly := by
  unfold State.portWrite
  split_ifs
  · exact writeReg_coreOnly s offset v
  · rfl
  · rfl

/-- A write through the port leaves the host's program and variables alone. -/
theorem portWrite_host (s : State) (width offset : Nat) (v : Word32) :
    (s.portWrite width offset v).program = s.program ∧ (s.portWrite width offset v).hostVars = s.hostVars := by
  obtain ⟨-, e⟩ | ⟨-, -, e⟩ | ⟨-, -, e⟩ := portWrite_cases s width offset v <;> rw [e]
  · obtain ⟨-, e⟩ | ⟨-, e⟩ | ⟨-, e⟩ | ⟨-, -, -, e⟩ := writeReg_cases s offset v <;> rw [e] <;> simp
  · exact ⟨rfl, rfl⟩
  · exact ⟨rfl, rfl⟩

theorem perform_program (a : HostAccess) (s : State) : (a.perform s).program = s.program := by
  cases a with
  | read => rw [perform_read]; rfl
  | write width offset v => exact (portWrite_host s width offset v).1

/-- A read assigns its variable and no other. -/
theorem perform_read_var? (width offset : Nat) (x : HostVar) (s : State) (y : HostVar) :
    ((HostAccess.read width offset x).perform s).var? y =
      if y = x then some (s.portRead width offset) else s.var? y := by
  rw [perform_read]
  split_ifs with h
  · subst h
    exact State.var?_setVar_same ..
  · exact State.var?_setVar_of_ne h _

/-- A read into a variable that does not matter changes nothing that does. -/
theorem Alike.of_read {vars : HostVar → Prop} {x : HostVar} (hx : ¬ vars x) (width offset : Nat) (s : State) :
    Alike vars s ((HostAccess.read width offset x).perform s) where
  core := by rw [perform_read]; rfl
  value y hy := by
    have hne : y ≠ x := fun h => hx (h ▸ hy)
    rw [perform_read_var?, if_neg hne]

/-- An access has one effect on states that are alike. -/
theorem Alike.perform {vars : HostVar → Prop} {s t : State} (h : Alike vars s t) (a : HostAccess) :
    Alike vars (a.perform s) (a.perform t) := by
  cases a with
  | read width offset x =>
    refine ⟨by rw [perform_read, perform_read]; exact h.core, fun y hy => ?_⟩
    rw [perform_read_var?, perform_read_var?, ← portRead_coreOnly, h.core, portRead_coreOnly, h.value y hy]
  | write width offset v =>
    refine ⟨?_, fun y hy => ?_⟩
    · rw [HostAccess.perform, HostAccess.perform, ← portWrite_coreOnly, h.core, portWrite_coreOnly]
    · have hvars := fun u : State => congrArg (List.find? fun p => p.1 == y) (portWrite_host u width offset v).2
      simpa [State.var?, HostAccess.perform, hvars] using h.value y hy

/-! ## The command in flight, completed -/

/-- The state after the core's step: the command in flight, if there is one, has completed. -/
def State.settled (s : State) : State :=
  match coreStep s with
  | .next t => t
  | _ => s

theorem coreStep_eq_settled (s : State) : coreStep s = .next s.settled := by
  obtain ⟨t, h⟩ : ∃ t, coreStep s = .next t := by
    unfold coreStep
    cases s.pending with
    | none => exact ⟨s, rfl⟩
    | some w => exact execute_total w s
  rw [State.settled, h]

theorem settled_of_idle {s : State} (hp : s.pending = none) : s.settled = s := by
  rw [State.settled, coreStep, hp]

theorem execute_eq_settled {s : State} {w : Word64} (hp : s.pending = some w) : execute w s = .next s.settled := by
  have h := coreStep_eq_settled s
  rwa [coreStep, hp] at h

/-- Completing a command leaves none in flight, and the host's program and variables alone. -/
theorem settled_frame (s : State) :
    s.settled.pending = none ∧ s.settled.program = s.program ∧ s.settled.hostVars = s.hostVars := by
  cases hp : s.pending with
  | none => rw [settled_of_idle hp]; exact ⟨hp, rfl, rfl⟩
  | some w =>
    obtain ⟨-, -, hpending, hprogram, hvars, -⟩ := execute_frame (execute_eq_settled hp)
    exact ⟨hpending, hprogram, hvars⟩

theorem settled_settled (s : State) : s.settled.settled = s.settled := settled_of_idle (settled_frame s).1

/-- `Execute(w)` reads and changes the core only (10_state.md R20). -/
theorem execute_coreOnly {w : Word64} {s t : State} (h : execute w s = .next t) :
    execute w s.coreOnly = .next t.coreOnly := by
  unfold execute at h ⊢
  cases hd : decode w with
  | error e =>
    rw [hd] at h
    cases h
    rfl
  | ok i =>
    rw [hd] at h
    obtain ⟨f, hf, he⟩ := exec_effect i s
    have hsame : SameSources i s s.coreOnly :=
      fun r _ => State.memRead_congr fun x _ _ => State.readByte_congr rfl rfl x
    cases (he s (.refl i s)).symm.trans h
    refine (he _ hsame).trans ?_
    cases hf <;> rfl

theorem settled_coreOnly (s : State) : s.coreOnly.settled = s.settled.coreOnly := by
  cases hp : s.pending with
  | none => rw [settled_of_idle hp, settled_of_idle (by exact hp)]
  | some w =>
    have hcore : execute w s.coreOnly = .next s.coreOnly.settled := execute_eq_settled hp
    exact Host.Outcome.next.inj (hcore.symm.trans (execute_coreOnly (execute_eq_settled hp)))

/-- The command in flight has one effect on states that are alike. -/
theorem Alike.settled {vars : HostVar → Prop} {s t : State} (h : Alike vars s t) : Alike vars s.settled t.settled := by
  refine ⟨by rw [← settled_coreOnly, h.core, settled_coreOnly], fun x hx => ?_⟩
  obtain ⟨-, -, hs⟩ := settled_frame s
  obtain ⟨-, -, ht⟩ := settled_frame t
  rw [State.var?, State.var?, hs, ht]
  exact h.value x hx

/-! ## The run in program order -/

/-- A host's program in which each command completes before the host's next access, so that no poll is needed. -/
def runInOrder : List HostOp → State → State
  | [], s => s.settled
  | .wait :: rest, s => runInOrder rest s
  | .access a :: rest, s => runInOrder rest (if a.isStatusRead then s else a.perform s.settled)

/-- The host variables that no STATUS read of the program assigns. -/
def NotPolled (program : List HostOp) (x : HostVar) : Prop :=
  x ≠ pollVar ∧ ∀ width, HostOp.access (.read width 0x00C x) ∉ program

theorem NotPolled.mono {p q : List HostOp} {x : HostVar} (h : NotPolled p x) (hq : ∀ op ∈ q, op ∈ p) : NotPolled q x :=
  ⟨h.1, fun width hop => h.2 width (hq _ hop)⟩

/-! ## Every run follows the run in program order -/

/-- From here the run in program order still ends in `target`, as far as these variables tell. -/
structure FollowsOrder (vars : HostVar → Prop) (target s : State) : Prop where
  inv : Inv s
  notPolled : ∀ x, vars x → NotPolled s.program x
  ahead : ∃ u, Alike vars u.settled s.settled ∧ runInOrder s.program u = target

/-- A step keeps it that leads to the same place on the run in program order. -/
theorem FollowsOrder.of_same_place {vars : HostVar → Prop} {target s t : State} (h : FollowsOrder vars target s)
    (hinv : Inv t) (hmem : ∀ op ∈ t.program, op ∈ s.program) (hplace : runInOrder t.program = runInOrder s.program)
    (hsettled : Alike vars s.settled t.settled) : FollowsOrder vars target t where
  inv := hinv
  notPolled x hx := (h.notPolled x hx).mono hmem
  ahead := by
    obtain ⟨u, hu, hrun⟩ := h.ahead
    exact ⟨u, hu.trans hsettled, by rw [hplace, hrun]⟩

/-- The host's turn and its place in its program are no matter of the core. -/
theorem alike_setProgram_popTurn (vars : HostVar → Prop) (s : State) (p : List HostOp) :
    Alike vars s ((popTurn s).setProgram p) := ⟨rfl, fun _ _ => rfl⟩

/-- A core's turn completes the command in flight. -/
theorem step_core_eq_settled {s : State} (hT : nextTurn s = .core) : step s = .next (popTurn s).settled := by
  rw [step, hT]
  exact coreStep_eq_settled _

theorem FollowsOrder.core {vars : HostVar → Prop} {target s t : State} (h : FollowsOrder vars target s)
    (hT : nextTurn s = .core) (hstep : step s = .next t) : FollowsOrder vars target t := by
  have hinv := stepKeepsInv s t h.inv hstep
  cases (step_core_eq_settled hT).symm.trans hstep
  have hp : (popTurn s).settled.program = s.program := (settled_frame _).2.1
  have halike : Alike vars s.settled (popTurn s).settled.settled := by
    rw [settled_settled]
    exact (alike_setProgram_popTurn vars s s.program).settled
  exact h.of_same_place hinv (by rw [hp]; exact fun _ => id) (by rw [hp]) halike

/-- A read of STATUS, once or as a poll, is no step of the run in program order. -/
theorem FollowsOrder.readStatus {vars : HostVar → Prop} {target s t : State} (h : FollowsOrder vars target s)
    {x : HostVar} {p : List HostOp} (hx : ¬ vars x) (hmem : ∀ op ∈ p, op ∈ s.program)
    (hplace : runInOrder p = runInOrder s.program)
    (haccess : hostAccess (.read 32 offStatus x) ((popTurn s).setProgram p) = .next t) (hinv : Inv t) :
    FollowsOrder vars target t := by
  obtain ⟨-, -, -, rfl⟩ := hostAccess_next_iff.mp haccess
  have hp := perform_program (.read 32 offStatus x) ((popTurn s).setProgram p)
  refine h.of_same_place hinv ?_ ?_ ((alike_setProgram_popTurn vars s p).trans (.of_read hx ..)).settled
  · rw [hp]; exact hmem
  · rw [hp]; exact hplace

/-- An access that is no read of STATUS finds no command in flight, and is the next step of the run in program order. -/
theorem FollowsOrder.access {vars : HostVar → Prop} {target s t : State} (h : FollowsOrder vars target s)
    {a : HostAccess} {rest : List HostOp} (hp : s.program = .access a :: rest) (ha : a.isStatusRead = false)
    (haccess : hostAccess a ((popTurn s).setProgram rest) = .next t) (hinv : Inv t) : FollowsOrder vars target t := by
  obtain ⟨-, -, hbusy, rfl⟩ := hostAccess_next_iff.mp haccess
  have hz : s.awaitingIdle = false := by
    cases hs : s.awaitingIdle with
    | false => rfl
    | true => cases ha.symm.trans (hbusy hs)
  have hidle : s.settled = s := settled_of_idle (State.busy_eq_false_iff.mp (h.inv.not_busy hz))
  have hrest := perform_program a ((popTurn s).setProgram rest)
  obtain ⟨u, hu, hrun⟩ := h.ahead
  refine ⟨hinv, fun x hx => (h.notPolled x hx).mono ?_, a.perform u.settled, ?_, ?_⟩
  · rw [hrest, hp]
    exact fun _ => .tail _
  · rw [hidle] at hu
    exact ((hu.trans (alike_setProgram_popTurn vars s rest)).perform a).settled
  · rw [hrest, ← hrun, hp, runInOrder, ha]
    rfl

theorem FollowsOrder.host {vars : HostVar → Prop} {target s t : State} (h : FollowsOrder vars target s)
    (hT : nextTurn s = .host) (hstep : step s = .next t) : FollowsOrder vars target t := by
  have hinv := stepKeepsInv s t h.inv hstep
  rw [step, hT] at hstep
  obtain ⟨-, rfl⟩ | ⟨a, rest, hp, haccess⟩ | ⟨rest, hp, haccess⟩ := hostStep_cases hstep
  · exact h.of_same_place hinv (fun _ => id) rfl (alike_setProgram_popTurn vars s s.program).settled
  · rw [popTurn_program] at hp
    cases ha : a.isStatusRead with
    | false => exact h.access hp ha haccess hinv
    | true =>
      obtain ⟨-, hadmitted, -⟩ := hostAccess_next_iff.mp haccess
      obtain ⟨x, rfl⟩ := eq_readStatus hadmitted ha
      refine h.readStatus (fun hx => (h.notPolled x hx).2 32 ?_) ?_ ?_ haccess hinv <;> rw [hp]
      · exact .head _
      · exact fun _ => .tail _
      · rfl
  · rw [popTurn_program] at hp
    refine h.readStatus (fun hx => (h.notPolled pollVar hx).1 rfl) ?_ ?_ haccess hinv <;> rw [hp] <;> split_ifs
    · exact fun _ => id
    · exact fun _ => .tail _
    · rfl
    · rfl

/-- A step counts a reset, or leaves the count as it is. -/
theorem step_resets {s t : State} (h : step s = .next t) :
    (nextTurn s = .reset ∧ t.resets = s.resets + 1) ∨ (nextTurn s ≠ .reset ∧ t.resets = s.resets) := by
  cases step_shape h with
  | reset hT => exact .inl ⟨hT, rfl⟩
  | command hT _ _ _ hs => exact .inr ⟨by simp [hT], by cases hs <;> rfl⟩
  | writeCtrl hT => exact .inr ⟨by simp [hT], by simp⟩
  | idleCore hT | illegal hT | hostOnly hT | writeCmdLo hT | writeCmdHi hT | writeDmem hT =>
    exact .inr ⟨by simp [hT], rfl⟩

theorem FollowsOrder.step {vars : HostVar → Prop} {target s t : State} (h : FollowsOrder vars target s)
    (hreset : nextTurn s ≠ .reset) (hstep : step s = .next t) : FollowsOrder vars target t := by
  cases hT : nextTurn s with
  | core => exact h.core hT hstep
  | host => exact h.host hT hstep
  | reset => exact absurd hT hreset

/-- A run of `n + 1` steps makes one step first. -/
theorem step_of_run_succ {n : Nat} {s t : State} (h : Sys2Proof.core.run (n + 1) s = .next t) :
    ∃ m, Machine.step s = .next m ∧ Sys2Proof.core.run n m = .next t := by
  cases hs : Machine.step s with
  | next m => exact ⟨m, rfl, (run_succ n hs).symm.trans h⟩
  | fault r => cases (run_succ_fault Sys2Proof.core n hs).symm.trans h
  | refused r => cases (run_succ_refused Sys2Proof.core n hs).symm.trans h

theorem run_resets_le {n : Nat} {s t : State} (h : Sys2Proof.core.run n s = .next t) : s.resets ≤ t.resets := by
  induction n generalizing s with
  | zero => cases h; exact le_rfl
  | succ n ih =>
    obtain ⟨m, hstep, hrun⟩ := step_of_run_succ h
    have := ih hrun
    obtain ⟨-, hm⟩ | ⟨-, hm⟩ := step_resets hstep <;> omega

theorem FollowsOrder.run {vars : HostVar → Prop} {target s t : State} {n : Nat} (h : FollowsOrder vars target s)
    (hrun : Sys2Proof.core.run n s = .next t) (hresets : t.resets = s.resets) : FollowsOrder vars target t := by
  induction n generalizing s with
  | zero => cases hrun; exact h
  | succ n ih =>
    obtain ⟨m, hstep, hrest⟩ := step_of_run_succ hrun
    have hle := run_resets_le hrest
    obtain ⟨-, hm⟩ | ⟨hT, hm⟩ := step_resets hstep
    · omega
    · exact ih (h.step hT hstep) hrest (by omega)

/-- An ended run has come to the end of the run in program order. -/
theorem FollowsOrder.alike_of_ended {vars : HostVar → Prop} {target t : State} (h : FollowsOrder vars target t)
    (hend : t.ended) : Alike vars target t := by
  obtain ⟨hprogram, hpending⟩ := hend
  obtain ⟨u, hu, rfl⟩ := h.ahead
  rw [hprogram, runInOrder]
  rwa [settled_of_idle hpending] at hu

/-- Every run without a reset that ends does so as the run in program order, from any state alike. -/
theorem alike_runInOrder {s s' t : State} {n : Nat} (hinv : Inv s') (hp : s'.program = s.program)
    (h : Alike (NotPolled s.program) s s') (hrun : Sys2Proof.core.run n s' = .next t) (hresets : t.resets = s'.resets)
    (hend : t.ended) : Alike (NotPolled s.program) (runInOrder s.program s) t := by
  have hstart : FollowsOrder (NotPolled s.program) (runInOrder s.program s) s' :=
    ⟨hinv, fun x hx => by rwa [hp], s, h.settled, by rw [hp]⟩
  exact (hstart.run hrun hresets).alike_of_ended hend

/-- Settles O9: both runs end as the run in program order does. -/
theorem resultsAgreeUnderEverySchedule : Obligations.ResultsAgreeUnderEverySchedule := by
  intro s s' t t' n n' hinv hs' hrun hrun' hresets hresets' hend hend'
  obtain ⟨turns, rfl⟩ : ∃ turns, s' = { s with schedule := turns } := ⟨_, hs'⟩
  have hinv' : Inv { s with schedule := turns } :=
    hinv.of_same_core hinv.dmemCanonical rfl rfl rfl rfl rfl fun _ => id
  have ht := alike_runInOrder hinv rfl (.refl _ s) hrun hresets hend
  have ht' := alike_runInOrder (s := s) hinv' rfl ⟨rfl, fun _ _ => rfl⟩ hrun' hresets' hend'
  have halike : Alike (NotPolled s.program) t t' := ht.symm.trans ht'
  have hprogram : t.program = t'.program := hend.1.trans hend'.1.symm
  refine ⟨?_, eq_of_coreOnly_eq halike.core hprogram, fun x hx hread => halike.value x ⟨hx, hread⟩⟩
  rw [← observe_coreOnly t, halike.core, observe_coreOnly]

end Sys2Proof.Machine
end
